-- ==== Sys2Proof/Word.lean ====
section
/-! DEFINITION. The word types of the HBD block (00_scope.md R8, R9): bytes and 32-bit words, bit 0 least significant, nothing signed. -/

namespace Sys2Proof

/-- A byte of IN. -/
abbrev Byte := BitVec 8

/-- A register, wire field, symbol or word of OUT: an unsigned 32-bit value. -/
abbrev Word := BitVec 32

end Sys2Proof
end

