-- ==== Sys2Proof/Config.lean ====
section
/-! DEFINITION. What an instance fixes (00_scope.md R7) and the values the spec leaves open (10_state.md R50, R51, R63). -/

namespace Sys2Proof

/-- The implementation parameters of 00_scope.md R7 that the block's rules read.
`HBD_BASE` and `N_INST` are the platform's and no rule of one instance reads them. -/
structure Params where
  /-- `IN_SIZE`, bytes of IN. -/
  inSize : Nat
  /-- `OUT_SIZE`, words of OUT. -/
  outSize : Nat
  /-- `MAX_ALPHABET`. -/
  maxAlphabet : Nat
  deriving DecidableEq, Repr

/-- The ranges of 00_scope.md R7. -/
abbrev Params.ok (p : Params) : Prop :=
  (1 ≤ p.inSize ∧ p.inSize ≤ 2 ^ 30) ∧ (1 ≤ p.outSize ∧ p.outSize ≤ 2 ^ 29) ∧
    (2 ≤ p.maxAlphabet ∧ p.maxAlphabet ≤ 256)

/-- `L_MAX`, the longest code (00_scope.md R7). -/
def Params.lMax (p : Params) : Nat := p.maxAlphabet - 1

/-- `IN_SIZE - 1`: OPEN, any 30-bit number (DESIGN CHOICE log 4). -/
opaque Config.inSizeLess1 : BitVec 30

/-- `OUT_SIZE - 1`: OPEN, any 29-bit number (DESIGN CHOICE log 4). -/
opaque Config.outSizeLess1 : BitVec 29

/-- The parameters of the instance that `State.reset` describes: the two OPEN sizes are unknown
numbers of their range, `MAX_ALPHABET` is the spec's nominal 256 (DESIGN CHOICE log 4). -/
def Config.params : Params where
  inSize := Config.inSizeLess1.toNat + 1
  outSize := Config.outSizeLess1.toNat + 1
  maxAlphabet := 256

/-- FREE VALUE (10_state.md R50, R63; U16): the byte that address `a` of instance `inst`'s own IN
(60_exceptions.md R268) holds after its `draw`-th reset, until the host writes it (DESIGN CHOICE log 5). -/
opaque Config.inDraw : (inst draw a : Nat) → Byte

/-- FREE VALUE (10_state.md R51, R63; U17): the word that word `i` of instance `inst`'s own OUT
(60_exceptions.md R268) holds after its `draw`-th reset, until the engine writes it
(DESIGN CHOICE log 5). -/
opaque Config.outDraw : (inst draw i : Nat) → Word

/-! FREE VALUES where a rule takes something for granted that 43_code_table.md R189 does not list. No
decode reaches such a state (DESIGN CHOICE log 11). -/

/-- FREE VALUE: the frequency that the empty ARENA slot `i` counts with in a key
(43_code_table.md R171; DESIGN CHOICE log 11). -/
opaque Config.emptySlotFreq : (i : Nat) → BitVec 40

/-- FREE VALUE: what 40 bits hold of a sum of two frequencies of `2^40` or more
(43_code_table.md R178, R182; DESIGN CHOICE log 11). -/
opaque Config.overlongFreq : (sum : Nat) → BitVec 40

/-- FREE VALUES: symbol and count of the `i`-th key of FMAP where ALPHA = `n` exceeds the number of
keys (43_code_table.md R177, 10_state.md R41; DESIGN CHOICE log 11). -/
opaque Config.missingSymbol : (n i : Nat) → Word

opaque Config.missingCount : (n i : Nat) → Word

/-- FREE VALUE: `ALPHA + 1` at ALPHA = `2^32 - 1`, with `keys` keys in FMAP: nothing wraps
(00_scope.md R9), and no rule gives the sum (42_header.md R160; DESIGN CHOICE log 11). -/
opaque Config.alphaAboveTop : (keys : Nat) → Word

/-- FREE VALUE: `PAIRS_LEFT - 1` at PAIRS_LEFT = 0, with the cursor at `pos` (42_header.md R164;
DESIGN CHOICE log 11). -/
opaque Config.pairsLeftBelowZero : (pos : Word) → Word

end Sys2Proof
end

