-- ==== Sys2Proof/Syntax.lean ====
section
/-! DEFINITION. The block's operations, one constructor per row of spec/opcode_table.json, and the moves that ask for them. -/

namespace Sys2Proof

/-- The operations of the three formats of 30_encoding.md R117, R118 and 20_memory.md R80, R81. -/
inductive Instr where
  /-- CMD 1 (45_host_commands.md R230). -/
  | start
  /-- CMD 2 (45_host_commands.md R231). -/
  | clear
  /-- PHASE 0x00 (40_step.md R142). -/
  | idle
  /-- PHASE 0x01 (42_header.md R161). -/
  | hdrDeclen
  /-- PHASE 0x02 (42_header.md R162). -/
  | hdrReserved
  /-- PHASE 0x03 (42_header.md R163). -/
  | hdrCount
  /-- PHASE 0x04 (42_header.md R164). -/
  | hdrPair
  /-- PHASE 0x05 (43_code_table.md R177). -/
  | treeSeed
  /-- PHASE 0x06 (43_code_table.md R178). -/
  | treeMerge
  /-- PHASE 0x07 (43_code_table.md R179). -/
  | codeBuild
  /-- PHASE 0x08 (44_bitstream_decode.md R202). -/
  | trlPbits
  /-- PHASE 0x09 (44_bitstream_decode.md R203). -/
  | trlPbytes
  /-- PHASE 0x0A (44_bitstream_decode.md R204). -/
  | trlUnpacked
  /-- PHASE 0x0B (44_bitstream_decode.md R205). -/
  | payload
  /-- PHASE 0x0C (44_bitstream_decode.md R206). -/
  | decSingle
  /-- PHASE 0x0D (44_bitstream_decode.md R207). -/
  | decBit
  /-- PHASE 0x0E (44_bitstream_decode.md R208). -/
  | decEnd
  /-- PHASE 0x0F (40_step.md R142). -/
  | done
  /-- PHASE 0x10 (40_step.md R142). -/
  | error
  /-- 32-bit host read of REG offset `reg` (45_host_commands.md R236). -/
  | regRd32 (reg : BitVec 12)
  /-- 32-bit host write of `v` at REG offset `reg` (45_host_commands.md R237). -/
  | regWr32 (reg : BitVec 12) (v : Word)
  /-- 8-bit host read of IN byte `a` (45_host_commands.md R238). -/
  | inRd8 (a : BitVec 30)
  /-- 32-bit host read of IN bytes `a .. a+3` (45_host_commands.md R238). -/
  | inRd32 (a : BitVec 30)
  /-- 8-bit host write of IN byte `a` (45_host_commands.md R239). -/
  | inWr8 (a : BitVec 30) (v : Byte)
  /-- 32-bit host write of IN bytes `a .. a+3` (45_host_commands.md R239). -/
  | inWr32 (a : BitVec 30) (v : Word)
  /-- 32-bit host read of OUT word `i` (45_host_commands.md R240). -/
  | outRd32 (i : BitVec 29)
  deriving DecidableEq, Repr

/-- The direction of a host bus access. -/
inductive Dir where
  | read
  | write
  deriving DecidableEq, Repr

/-- One host bus transaction `(direction, width, offset, data)` (30_encoding.md R128).
`width` is in bits and may be any number (20_memory.md R81); `off` is relative to HBD_BASE (R80);
`data` is the write data, and means nothing for a read. -/
structure BusAccess where
  dir : Dir
  width : Nat
  off : Word
  data : Word
  deriving DecidableEq, Repr

/-- One move of 40_step.md R140, or a change of the RST input (70_reset_and_hazards.md R280). -/
inductive Turn where
  /-- The engine's turn (40_step.md R141). -/
  | engine
  /-- The host's turn (45_host_commands.md R236–R240). -/
  | host (a : BusAccess)
  /-- The RST input goes to `level`; `true` is asserted. -/
  | rst (level : Bool)
  deriving DecidableEq, Repr

end Sys2Proof
end

