-- ==== Sys2Proof/WellFormed.lean ====
section
/-! DEFINITION. Which terms of Instr an encoding can produce (20_memory.md R81, 30_encoding.md R117). -/

namespace Sys2Proof

/-- The offset is a multiple of 4 (20_memory.md R81). -/
def aligned {n : Nat} (off : BitVec n) : Bool := off.extractLsb' 0 2 == 0#2

/-- REG offset of CMD (10_state.md R21). -/
def cmdOffset : BitVec 12 := 0x004#12

/-- The 32-bit accesses are aligned, and a write to CMD of a command value is that command
(DEDUCED log 8). -/
def Instr.wf : Instr → Bool
  | .start => true
  | .clear => true
  | .idle => true
  | .hdrDeclen => true
  | .hdrReserved => true
  | .hdrCount => true
  | .hdrPair => true
  | .treeSeed => true
  | .treeMerge => true
  | .codeBuild => true
  | .trlPbits => true
  | .trlPbytes => true
  | .trlUnpacked => true
  | .payload => true
  | .decSingle => true
  | .decBit => true
  | .decEnd => true
  | .done => true
  | .error => true
  | .regRd32 reg => aligned reg
  | .regWr32 reg v => aligned reg && !(reg == cmdOffset && (v == 1#32 || v == 2#32))
  | .inRd8 _ => true
  | .inRd32 a => aligned a
  | .inWr8 _ _ => true
  | .inWr32 a _ => aligned a
  | .outRd32 _ => true

end Sys2Proof
end

