-- ==== Sys2Proof/Decode.lean ====
section
/-! DEFINITION. The codes of 30_encoding.md R117, R118 and 20_memory.md R80, R81: decoding, rejecting by name, and encoding. -/

namespace Sys2Proof

/-! ### PHASE codes (30_encoding.md R118) -/

abbrev Phase.idle : BitVec 5 := 0x00#5
abbrev Phase.hdrDeclen : BitVec 5 := 0x01#5
abbrev Phase.hdrReserved : BitVec 5 := 0x02#5
abbrev Phase.hdrCount : BitVec 5 := 0x03#5
abbrev Phase.hdrPair : BitVec 5 := 0x04#5
abbrev Phase.treeSeed : BitVec 5 := 0x05#5
abbrev Phase.treeMerge : BitVec 5 := 0x06#5
abbrev Phase.codeBuild : BitVec 5 := 0x07#5
abbrev Phase.trlPbits : BitVec 5 := 0x08#5
abbrev Phase.trlPbytes : BitVec 5 := 0x09#5
abbrev Phase.trlUnpacked : BitVec 5 := 0x0A#5
abbrev Phase.payload : BitVec 5 := 0x0B#5
abbrev Phase.decSingle : BitVec 5 := 0x0C#5
abbrev Phase.decBit : BitVec 5 := 0x0D#5
abbrev Phase.decEnd : BitVec 5 := 0x0E#5
abbrev Phase.done : BitVec 5 := 0x0F#5
abbrev Phase.error : BitVec 5 := 0x10#5

/-- The codes 0x11–0x1F are reserved and never entered (30_encoding.md R120). -/
def Phase.reserved (p : BitVec 5) : Bool := Phase.error.ult p

/-- Why bits are no operation of the block. -/
inductive DecodeError where
  /-- A PHASE code of 0x11–0x1F (30_encoding.md R120). -/
  | reservedPhase
  /-- A CMD value other than 1 and 2 (30_encoding.md R119). -/
  | reservedCommand
  /-- An offset outside REG, IN and OUT (20_memory.md R80). -/
  | unmapped
  /-- A width the region does not allow (20_memory.md R81). -/
  | wrongWidth
  /-- A 32-bit access whose offset is no multiple of 4 (20_memory.md R81). -/
  | misaligned
  /-- A write to OUT (20_memory.md R81). -/
  | outWrite
  /-- Fewer bytes than the format has. -/
  | truncated
  deriving DecidableEq, Repr

/-- The operation a PHASE code selects (30_encoding.md R118, 40_step.md R141). -/
def decodePhase (p : BitVec 5) : Except DecodeError Instr :=
  if p = Phase.idle then .ok .idle
  else if p = Phase.hdrDeclen then .ok .hdrDeclen
  else if p = Phase.hdrReserved then .ok .hdrReserved
  else if p = Phase.hdrCount then .ok .hdrCount
  else if p = Phase.hdrPair then .ok .hdrPair
  else if p = Phase.treeSeed then .ok .treeSeed
  else if p = Phase.treeMerge then .ok .treeMerge
  else if p = Phase.codeBuild then .ok .codeBuild
  else if p = Phase.trlPbits then .ok .trlPbits
  else if p = Phase.trlPbytes then .ok .trlPbytes
  else if p = Phase.trlUnpacked then .ok .trlUnpacked
  else if p = Phase.payload then .ok .payload
  else if p = Phase.decSingle then .ok .decSingle
  else if p = Phase.decBit then .ok .decBit
  else if p = Phase.decEnd then .ok .decEnd
  else if p = Phase.done then .ok .done
  else if p = Phase.error then .ok .error
  else .error .reservedPhase

/-- The command a value written to CMD gives, all 32 bits compared (30_encoding.md R117). -/
def decodeCmd (v : Word) : Except DecodeError Instr :=
  if v = 1#32 then .ok .start
  else if v = 2#32 then .ok .clear
  else .error .reservedCommand

/-- An access in the REG region (20_memory.md R81; 45_host_commands.md R236, R237).
A write to CMD of a command value is that command (DEDUCED log 8). -/
def decodeReg (t : BusAccess) : Except DecodeError Instr :=
  let reg : BitVec 12 := t.off.extractLsb' 0 12
  if t.width ≠ 32 then .error .wrongWidth
  else if !aligned t.off then .error .misaligned
  else
    match t.dir with
    | .read => .ok (.regRd32 reg)
    | .write =>
      if reg = cmdOffset then
        match decodeCmd t.data with
        | .ok i => .ok i
        | .error _ => .ok (.regWr32 reg t.data)
      else .ok (.regWr32 reg t.data)

/-- An access in the IN region (20_memory.md R81; 45_host_commands.md R238, R239). Whether the
bytes lie below IN_SIZE is the meaning's to check. -/
def decodeIn (t : BusAccess) : Except DecodeError Instr :=
  let a : BitVec 30 := t.off.extractLsb' 0 30
  if t.width = 8 then
    match t.dir with
    | .read => .ok (.inRd8 a)
    | .write => .ok (.inWr8 a (t.data.extractLsb' 0 8))
  else if t.width = 32 then
    if aligned t.off then
      match t.dir with
      | .read => .ok (.inRd32 a)
      | .write => .ok (.inWr32 a t.data)
    else .error .misaligned
  else .error .wrongWidth

/-- An access in the OUT region (20_memory.md R81; 45_host_commands.md R240). -/
def decodeOut (t : BusAccess) : Except DecodeError Instr :=
  match t.dir with
  | .write => .error .outWrite
  | .read =>
    if t.width ≠ 32 then .error .wrongWidth
    else if !aligned t.off then .error .misaligned
    else .ok (.outRd32 (t.off.extractLsb' 2 29))

/-- The address decode of 20_memory.md R80. -/
def decodeAccess (t : BusAccess) : Except DecodeError Instr :=
  if t.off.extractLsb' 12 20 = 0#20 then decodeReg t
  else if t.off.extractLsb' 30 2 = 1#2 then decodeIn t
  else if t.off.extractLsb' 31 1 = 1#1 then decodeOut t
  else .error .unmapped

/-! ### Bytes

The spec's table has three formats, and the place the bits come from says which: the PHASE field,
a value written to CMD, or the host bus. Direction and width are bus signals, not bits of a word.
The byte layout is the model's (DESIGN CHOICE log 7): least significant byte first, the offset, then the data. -/

/-- Where an operation's bits come from. -/
inductive Format where
  /-- One byte, PHASE in its low five bits. -/
  | phase
  /-- Four bytes, the value written to CMD. -/
  | cmd
  /-- Four bytes, the offset of a host read of `width` bits. -/
  | busRead (width : Nat)
  /-- Eight bytes, the offset and the data of a host write of `width` bits. -/
  | busWrite (width : Nat)
  deriving DecidableEq, Repr

/-- How many bytes a format takes. -/
def Format.length : Format → Nat
  | .phase => 1
  | .cmd => 4
  | .busRead _ => 4
  | .busWrite _ => 8

/-- A word from its bytes, the first least significant. -/
def wordOf (b0 b1 b2 b3 : Byte) : Word := b3 ++ b2 ++ b1 ++ b0

/-- The bytes of a word, least significant first. -/
def bytesOf (w : Word) : List Byte :=
  [w.extractLsb' 0 8, w.extractLsb' 8 8, w.extractLsb' 16 8, w.extractLsb' 24 8]

/-- The decoder: the operation and the bytes after it, or why there is none. -/
def decode : Format → List Byte → Except DecodeError (Instr × List Byte)
  | .phase, b :: rest =>
    match decodePhase (b.extractLsb' 0 5) with
    | .ok i => .ok (i, rest)
    | .error e => .error e
  | .cmd, b0 :: b1 :: b2 :: b3 :: rest =>
    match decodeCmd (wordOf b0 b1 b2 b3) with
    | .ok i => .ok (i, rest)
    | .error e => .error e
  | .busRead n, b0 :: b1 :: b2 :: b3 :: rest =>
    match decodeAccess ⟨.read, n, wordOf b0 b1 b2 b3, 0#32⟩ with
    | .ok i => .ok (i, rest)
    | .error e => .error e
  | .busWrite n, b0 :: b1 :: b2 :: b3 :: d0 :: d1 :: d2 :: d3 :: rest =>
    match decodeAccess ⟨.write, n, wordOf b0 b1 b2 b3, wordOf d0 d1 d2 d3⟩ with
    | .ok i => .ok (i, rest)
    | .error e => .error e
  | _, _ => .error .truncated

/-- The offset of REG register `reg`, IN byte `a` and OUT word `i` (20_memory.md R80). -/
def regOff (reg : BitVec 12) : Word := 0#20 ++ reg

def inOff (a : BitVec 30) : Word := 1#2 ++ a

def outOff (i : BitVec 29) : Word := 1#1 ++ i ++ 0#2

/-- The one byte of a PHASE code; STATUS[7:5] reads 0 (10_state.md R34). -/
def phaseByte (p : BitVec 5) : List Byte := [0#3 ++ p]

/-- The encoder: an operation's format and its bytes. -/
def encode : Instr → Format × List Byte
  | .start => (.cmd, bytesOf 1#32)
  | .clear => (.cmd, bytesOf 2#32)
  | .idle => (.phase, phaseByte Phase.idle)
  | .hdrDeclen => (.phase, phaseByte Phase.hdrDeclen)
  | .hdrReserved => (.phase, phaseByte Phase.hdrReserved)
  | .hdrCount => (.phase, phaseByte Phase.hdrCount)
  | .hdrPair => (.phase, phaseByte Phase.hdrPair)
  | .treeSeed => (.phase, phaseByte Phase.treeSeed)
  | .treeMerge => (.phase, phaseByte Phase.treeMerge)
  | .codeBuild => (.phase, phaseByte Phase.codeBuild)
  | .trlPbits => (.phase, phaseByte Phase.trlPbits)
  | .trlPbytes => (.phase, phaseByte Phase.trlPbytes)
  | .trlUnpacked => (.phase, phaseByte Phase.trlUnpacked)
  | .payload => (.phase, phaseByte Phase.payload)
  | .decSingle => (.phase, phaseByte Phase.decSingle)
  | .decBit => (.phase, phaseByte Phase.decBit)
  | .decEnd => (.phase, phaseByte Phase.decEnd)
  | .done => (.phase, phaseByte Phase.done)
  | .error => (.phase, phaseByte Phase.error)
  | .regRd32 reg => (.busRead 32, bytesOf (regOff reg))
  | .regWr32 reg v => (.busWrite 32, bytesOf (regOff reg) ++ bytesOf v)
  | .inRd8 a => (.busRead 8, bytesOf (inOff a))
  | .inRd32 a => (.busRead 32, bytesOf (inOff a))
  | .inWr8 a v => (.busWrite 8, bytesOf (inOff a) ++ bytesOf (0#24 ++ v))
  | .inWr32 a v => (.busWrite 32, bytesOf (inOff a) ++ bytesOf v)
  | .outRd32 i => (.busRead 32, bytesOf (outOff i))

/-- The formats a table word of 32 bits is tried in, the first that decodes winning: a command
value, then an offset read by 32 bits, then an offset read by 8 bits (DESIGN CHOICE log 7). -/
def tableFormats : List Format := [.cmd, .busRead 32, .busRead 8]

/-- The operation of the first format that decodes the bytes. -/
def firstDecoded (bs : List Byte) : List Format → Option (Format × Instr)
  | [] => none
  | f :: fs =>
    match decode f bs with
    | .ok (i, _) => some (f, i)
    | .error _ => firstDecoded bs fs

/-- What the decoder reads from a word of spec/opcode_table.json: up to 8 bits is a PHASE code,
up to 32 bits a command value or an offset (DESIGN CHOICE log 7). -/
def decodeTableWord (nbits w : Nat) : Option Instr :=
  if nbits ≤ 8 then
    match decode .phase [BitVec.ofNat 8 w] with
    | .ok (i, _) => some i
    | .error _ => none
  else if nbits ≤ 32 then
    match firstDecoded (bytesOf (BitVec.ofNat 32 w)) tableFormats with
    | some (_, i) => some i
    | none => none
  else none

end Sys2Proof
end

