-- ==== Sys2Proof/Machine/State.lean ====
section
/-! DEFINITION. The state of one HBD instance (10_state.md R20–R65), why a step can stop, and the state after reset (R63). -/

namespace Sys2Proof.Machine

/-- A node of the Huffman tree (43_code_table.md R170). -/
inductive Node where
  | leaf (symbol : Word) (freq : BitVec 40)
  | internal (freq : BitVec 40) (left right : Nat)
  deriving DecidableEq, Repr

/-- An entry of FMAP: a symbol and its count (10_state.md R53). -/
structure FreqEntry where
  symbol : Word
  count : Word
  deriving DecidableEq, Repr

/-- An entry of CT: a code and its symbol (30_encoding.md R115). The code is the bit-string of
00_scope.md R10, first bit first. -/
structure CodeEntry where
  code : List Bool
  symbol : Word
  deriving DecidableEq, Repr

/-- The errors that end a decode in the ERROR phase (60_exceptions.md R250). They are no stop of
the machine: raising one is a next state (R251). -/
inductive HbdError where
  | malformedHeader
  | emptyAlphabet
  | outOfData
  | truncatedStream
  | alphabetTooLarge
  | outputOverflow
  deriving DecidableEq, Repr

/-- The machine has no fault: an error of a decode is the next state of 60_exceptions.md R251, and
a host access never faults (20_memory.md R81). Nobody raises one. -/
inductive Fault where
  deriving DecidableEq, Repr

/-- Why a step has no meaning (00_scope.md R13). But for `notModelled`, every reason is a condition
of 43_code_table.md R189, which the block cannot reach, or the ERRCODE of U24; refusing is safe. -/
inductive Refusal where
  /-- Raised by an arm of `exec` whose instruction has no meaning yet. Safe. -/
  | notModelled (mnemonic : String)
  /-- A reserved PHASE code (30_encoding.md R120). Raised by `step` before any move. Safe. -/
  | reservedPhase
  /-- ERRCODE holds 7 (60_exceptions.md R250, U24). Raised by `step` before any move. Safe. -/
  | reservedErrCode
  /-- `HeapPopMin` or `HeapPeek` on an empty HEAP (R173, R174, R189). Raised by them. Safe. -/
  | heapEmpty
  /-- `HeapPush` with `|HEAP| = MAX_ALPHABET` (R172, R189). Raised by it. Safe. -/
  | heapFull
  /-- `HeapPush` of an index already in HEAP (R172, R189). Raised by it. Safe. -/
  | heapDuplicate
  /-- NEXTIDX beyond `2*MAX_ALPHABET - 1` (R189). Raised by TREE_MERGE. Safe. -/
  | arenaFull
  /-- TREE_MERGE entered with `HeapSize() < 2` (R189). Raised by TREE_MERGE. Safe. -/
  | mergeUnderflow
  /-- `BitRead(k)` without its precondition (41_cursor.md R154, R189). Raised by it. Safe. -/
  | bitReadOutOfRange
  /-- `|CAND| > L_MAX` (44_bitstream_decode.md R209, R189). Raised by DEC_BIT. Safe. -/
  | candTooLong
  /-- Two CT entries match one candidate (44_bitstream_decode.md R200, R189). Raised by
  `CtLookup`. Safe. -/
  | ambiguousMatch
  deriving DecidableEq, Repr

/-- The state of one instance (10_state.md R20), and the moves still to come. -/
structure State where
  /-- The instance's parameters, read through CAP_INSIZE, CAP_OUTSIZE and CAP_MAXALPHA
  (10_state.md R47–R49). No step changes them (DESIGN CHOICE log 3). -/
  cfg : Params
  /-- CTRL.BE (R22). -/
  be : Bool
  /-- CTRL.BITORD (R23). -/
  bitord : Bool
  /-- CTRL.IE (R24). -/
  ie : Bool
  /-- STATUS.PHASE (R27), the program counter. -/
  phase : BitVec 5
  /-- STATUS.ERRCODE (R32). -/
  errCode : BitVec 3
  /-- STATUS.ERRPHASE (R33). -/
  errPhase : BitVec 5
  /-- IN_LEN (R35). -/
  inLen : Word
  /-- POS (R37). -/
  pos : Word
  /-- BITPOS (R38). -/
  bitPos : Word
  /-- DECLEN (R39). -/
  decLen : Word
  /-- SYMCNT (R40). -/
  symCnt : Word
  /-- ALPHA (R41). -/
  alpha : Word
  /-- PBITS (R42). -/
  pBits : Word
  /-- PBYTES (R43). -/
  pBytes : Word
  /-- UNPACKED (R44). -/
  unpacked : Word
  /-- PAYBASE (R45). -/
  payBase : Word
  /-- IN (R50): the bytes written since the last reset, by rising address (DESIGN CHOICE log 6). -/
  inMem : List Host.Cell
  /-- OUT (R51): the words written since the last reset, by rising index (DESIGN CHOICE log 6). -/
  outMem : List (Nat × Word)
  /-- OCNT (R52). -/
  ocnt : Nat
  /-- FMAP (R53), by rising symbol. -/
  fmap : List FreqEntry
  /-- ARENA (R54): the filled slots, by rising index. -/
  arena : List (Nat × Node)
  /-- NEXTIDX (R54). -/
  nextIdx : Nat
  /-- HEAP (R55), by rising index. -/
  heap : List Nat
  /-- ROOT (R56). -/
  root : Option Nat
  /-- CAND (R57), first bit first. -/
  cand : List Bool
  /-- CT (R58), in the order of the walk that wrote it. -/
  ct : List CodeEntry
  /-- PAIRS_LEFT (R59). -/
  pairsLeft : Word
  /-- The level of the RST input (70_reset_and_hazards.md R280); `true` is asserted. -/
  rst : Bool
  /-- MODEL'S OWN: which instance this is (60_exceptions.md R268). It selects the instance's own
  power-on draws and nothing else; no step changes it (DESIGN CHOICE log 15). -/
  inst : Nat
  /-- MODEL'S OWN: which power-on draw IN and OUT hold; every reset advances it (DESIGN CHOICE log 5). -/
  draws : Nat
  /-- MODEL'S OWN: what the last host read returned (DESIGN CHOICE log 2). -/
  rdData : Word
  /-- MODEL'S OWN: the moves still to come, the next first; with none left the engine has every
  turn (DESIGN CHOICE log 1). -/
  turns : List Turn
  deriving DecidableEq, Repr

/-- The state after RST (10_state.md R63) of instance `n` with parameters `p`, holding power-on
draw `d`: RST released, no read made, no move to come (DESIGN CHOICE log 1, DESIGN CHOICE log 2, DESIGN CHOICE log 12). -/
def State.resetWith (p : Params) (n d : Nat) : State where
  cfg := p
  be := false
  bitord := false
  ie := false
  phase := Phase.idle
  errCode := 0#3
  errPhase := 0#5
  inLen := 0#32
  pos := 0#32
  bitPos := 0#32
  decLen := 0#32
  symCnt := 0#32
  alpha := 0#32
  pBits := 0#32
  pBytes := 0#32
  unpacked := 0#32
  payBase := 0#32
  inMem := []
  outMem := []
  ocnt := 0
  fmap := []
  arena := []
  nextIdx := 0
  heap := []
  root := none
  cand := []
  ct := []
  pairsLeft := 0#32
  rst := false
  inst := n
  draws := d
  rdData := 0#32
  turns := []

/-- The machine right after reset (10_state.md R63, 70_reset_and_hazards.md R281): instance 0
(DESIGN CHOICE log 15). -/
def State.reset : State := State.resetWith Config.params 0 0

end Sys2Proof.Machine
end

