-- ==== Sys2Proof/Machine/Operands.lean ====
section
/-! DEFINITION. How the block's operands are read out of bits: byte and bit order (20_memory.md R82, R86, R87), bit-strings (00_scope.md R10), register offsets (10_state.md R21). -/

namespace Sys2Proof.Machine

/-- `U32(b0, b1, b2, b3)` under CTRL.BE = `be` (20_memory.md R86). -/
def u32 (be : Bool) (b0 b1 b2 b3 : Byte) : Word :=
  if be then wordOf b3 b2 b1 b0 else wordOf b0 b1 b2 b3

/-- Which bit of its byte payload bit `k` is, under CTRL.BITORD = `bitord` (20_memory.md R87). -/
def bitIndex (bitord : Bool) (k : Nat) : Nat :=
  if bitord then k % 8 else 7 - k % 8

/-- A payload bit out of its byte (20_memory.md R87). -/
def payloadBitOf (bitord : Bool) (b : Byte) (k : Nat) : Bool :=
  b.getLsbD (bitIndex bitord k)

/-- Byte `j` of a 32-bit host access (20_memory.md R82). -/
def lane (v : Word) (j : Nat) : Byte := v.extractLsb' (8 * j) 8

/-- `val(s)`: the number a bit-string is in binary, first bit most significant
(00_scope.md R10). -/
def bitsVal (s : List Bool) : Nat := s.foldl (fun n b => 2 * n + b.toNat) 0

/-- The stored form `(|s|, val(s))` of a bit-string (30_encoding.md R116). -/
def storedCode (s : List Bool) : Nat × Nat := (s.length, bitsVal s)

/-- The host-visible registers (10_state.md R21). -/
inductive RegName where
  | ctrl
  | cmd
  | status
  | inLen
  | outCount
  | pos
  | bitPos
  | decLen
  | symCnt
  | alpha
  | pBits
  | pBytes
  | unpacked
  | payBase
  | candLen
  | capInSize
  | capOutSize
  | capMaxAlpha
  deriving DecidableEq, Repr

/-- The register at a REG offset, if there is one (10_state.md R21, R61). -/
def regAt (off : BitVec 12) : Option RegName :=
  if off = 0x000#12 then some .ctrl
  else if off = 0x004#12 then some .cmd
  else if off = 0x008#12 then some .status
  else if off = 0x00C#12 then some .inLen
  else if off = 0x010#12 then some .outCount
  else if off = 0x014#12 then some .pos
  else if off = 0x018#12 then some .bitPos
  else if off = 0x01C#12 then some .decLen
  else if off = 0x020#12 then some .symCnt
  else if off = 0x024#12 then some .alpha
  else if off = 0x028#12 then some .pBits
  else if off = 0x02C#12 then some .pBytes
  else if off = 0x030#12 then some .unpacked
  else if off = 0x034#12 then some .payBase
  else if off = 0x038#12 then some .candLen
  else if off = 0x03C#12 then some .capInSize
  else if off = 0x040#12 then some .capOutSize
  else if off = 0x044#12 then some .capMaxAlpha
  else none

end Sys2Proof.Machine
end

