-- ==== Sys2Proof/Machine/Flags.lean ====
section
/-! DEFINITION. The computed flags and register words: STATUS (10_state.md R27–R34), CTRL (R22–R25), OUT_COUNT (R36), CANDLEN (R46), IRQ (R60). -/

namespace Sys2Proof.Machine

/-- `BUSY = (PHASE ∉ {IDLE, DONE, ERROR})` (10_state.md R28). -/
def State.busy (s : State) : Bool :=
  s.phase != Phase.idle && s.phase != Phase.done && s.phase != Phase.error

/-- `DONE = (PHASE = DONE)` (10_state.md R29). -/
def State.isDone (s : State) : Bool := s.phase == Phase.done

/-- `ERR = (PHASE = ERROR)` (10_state.md R30). -/
def State.isErr (s : State) : Bool := s.phase == Phase.error

/-- The level of the IRQ line (10_state.md R31, R60; 60_exceptions.md R264). -/
def State.irq (s : State) : Bool := s.ie && (s.isDone || s.isErr)

/-- CTRL as a word: BE in bit 0, BITORD in bit 1, IE in bit 2, the rest 0 (10_state.md R22–R25). -/
def State.ctrlWord (s : State) : Word :=
  0#29 ++ BitVec.ofBool s.ie ++ BitVec.ofBool s.bitord ++ BitVec.ofBool s.be

/-- STATUS as a word (10_state.md R27–R34): PHASE [4:0], BUSY 8, DONE 9, ERR 10, IRQ 11,
ERRCODE [14:12], ERRPHASE [20:16], the rest 0. -/
def State.statusWord (s : State) : Word :=
  0#11 ++ s.errPhase ++ 0#1 ++ s.errCode ++ BitVec.ofBool s.irq ++ BitVec.ofBool s.isErr ++
    BitVec.ofBool s.isDone ++ BitVec.ofBool s.busy ++ 0#3 ++ s.phase

/-- What OUT_COUNT reads: OCNT when DONE, else 0 (10_state.md R36). An OCNT past 32 bits, above any
OUT_SIZE, reads in its low bits (DESIGN CHOICE log 20). -/
def State.outCountWord (s : State) : Word :=
  if s.isDone then BitVec.ofNat 32 s.ocnt else 0#32

/-- What CANDLEN reads: `|CAND|` (10_state.md R46), in its low 32 bits where it is longer, far above any
L_MAX (DESIGN CHOICE log 20). -/
def State.candLenWord (s : State) : Word := BitVec.ofNat 32 s.cand.length

end Sys2Proof.Machine
end

