-- ==== Sys2Proof/Machine/Ops.lean ====
section
/-! DEFINITION. The named operations every meaning is written in: ordered collections and memories, the cursor, FMAP, HEAP, ARENA, CT, output, error entry and return, commands, registers, reset. -/

namespace Sys2Proof

/-- FREE VALUE: the CT of a walk that R179 does not give: from no ROOT, over an empty slot, or round
a cycle. No decode reaches such a tree (43_code_table.md R180; DESIGN CHOICE log 11). -/
opaque Config.treelessTable :
  (root : Option Nat) → (arena : List (Nat × Machine.Node)) → List Machine.CodeEntry

/-- FREE VALUE: the symbol of the sole entry of a CT that has no such entry. No decode of one symbol
reaches such a CT (43_code_table.md R184; DESIGN CHOICE log 11). -/
opaque Config.noSoleSymbol : (ct : List Machine.CodeEntry) → Word

end Sys2Proof

namespace Sys2Proof.Machine

/-! ### Ordered collections

IN, OUT, ARENA, FMAP and HEAP are lists of entries with strictly rising keys. -/

/-- The entry with key `k`. -/
def Sorted.find {α : Type} (key : α → Nat) (k : Nat) : List α → Option α
  | [] => none
  | e :: l => if key e = k then some e else Sorted.find key k l

/-- Enter `x` under its key, replacing the entry that has it. -/
def Sorted.put {α : Type} (key : α → Nat) (x : α) : List α → List α
  | [] => [x]
  | e :: l =>
    if key x < key e then x :: e :: l
    else if key x = key e then x :: l
    else e :: Sorted.put key x l

/-- The keys rise strictly: the one canonical form. -/
def Sorted.wf {α : Type} (key : α → Nat) : List α → Bool
  | [] => true
  | e :: l => l.all (fun e' => decide (key e < key e')) && Sorted.wf key l

/-! ### IN and OUT -/

/-- The canonical form of a memory of `w`-bit cells (DESIGN CHOICE log 6). -/
def Memory.wf {w : Nat} (m : List (Nat × BitVec w)) : Bool := Sorted.wf Prod.fst m

/-- Cell `a`; an unlisted cell reads as `power a`. -/
def Memory.read {w : Nat} (power : Nat → BitVec w) (m : List (Nat × BitVec w)) (a : Nat) : BitVec w :=
  match Sorted.find Prod.fst a m with
  | some c => c.2
  | none => power a

/-- Cell `a` becomes `v`. -/
def Memory.write {w : Nat} (m : List (Nat × BitVec w)) (a : Nat) (v : BitVec w) : List (Nat × BitVec w) :=
  Sorted.put Prod.fst (a, v) m

/-- `IN[a]` (10_state.md R50). -/
def State.inByte (s : State) (a : Nat) : Byte := Memory.read (Config.inDraw s.inst s.draws) s.inMem a

/-- `OUT[i]` (10_state.md R51). -/
def State.outWord (s : State) (i : Nat) : Word := Memory.read (Config.outDraw s.inst s.draws) s.outMem i

/-- `IN[a] <- v` (45_host_commands.md R239). -/
def State.putInByte (s : State) (a : Nat) (v : Byte) : State :=
  { s with inMem := Memory.write s.inMem a v }

/-- `IN[a .. a+3] <- v` in the lanes of 20_memory.md R82. -/
def State.putInWord (s : State) (a : Nat) (v : Word) : State :=
  (((s.putInByte a (lane v 0)).putInByte (a + 1) (lane v 1)).putInByte (a + 2) (lane v 2)).putInByte
    (a + 3) (lane v 3)

/-- `IN[a .. a+3]` in the lanes of 20_memory.md R82. -/
def State.inWord (s : State) (a : Nat) : Word :=
  wordOf (s.inByte a) (s.inByte (a + 1)) (s.inByte (a + 2)) (s.inByte (a + 3))

/-- `MemWrite(OUT, i, v)` (00_scope.md R11). -/
def State.memWriteOut (s : State) (i : Nat) (v : Word) : State :=
  { s with outMem := Memory.write s.outMem i v }

/-! ### Error entry and its return (60_exceptions.md R251, R262) -/

/-- The code of an error (60_exceptions.md R250). -/
def HbdError.code : HbdError → BitVec 3
  | .malformedHeader => 1#3
  | .emptyAlphabet => 2#3
  | .outOfData => 3#3
  | .truncatedStream => 4#3
  | .alphabetTooLarge => 5#3
  | .outputOverflow => 6#3

/-- `raise E` in phase `p` (60_exceptions.md R251): nothing but these three is written. -/
def State.raise (s : State) (e : HbdError) (p : BitVec 5) : State :=
  { s with errCode := e.code, errPhase := p, phase := Phase.error }

/-- What START and CLEAR share (45_host_commands.md R230, R231): every register of the decode and
the working state start again, and the engine is in phase `p`. It is the only return from an
error (60_exceptions.md R262). -/
def State.restart (s : State) (p : BitVec 5) : State :=
  { s with
    pos := 0#32
    bitPos := 0#32
    decLen := 0#32
    symCnt := 0#32
    alpha := 0#32
    pBits := 0#32
    pBytes := 0#32
    unpacked := 0#32
    payBase := 0#32
    ocnt := 0
    cand := []
    pairsLeft := 0#32
    fmap := []
    arena := []
    nextIdx := 0
    heap := []
    root := none
    ct := []
    errCode := 0#3
    errPhase := 0#5
    phase := p }

/-! ### How a primitive ends (00_scope.md R12, R13) -/

/-- A primitive gives a value and a state, or raises an error in the state it left, or has no
meaning. -/
inductive Act (α : Type) where
  | ok (a : α) (s : State)
  | raised (e : HbdError) (s : State)
  | refused (r : Refusal)
  deriving Repr

/-- Go on after a primitive called by the step of phase `p`; a raise ends the step at once
(00_scope.md R12). -/
def Act.andThen {α : Type} (m : Act α) (p : BitVec 5) (k : α → State → Host.Outcome State Fault Refusal) :
    Host.Outcome State Fault Refusal :=
  match m with
  | .ok a s => k a s
  | .raised e s => .next (s.raise e p)
  | .refused r => .refused r

/-- One primitive after another. -/
def Act.bind {α β : Type} (m : Act α) (k : α → State → Act β) : Act β :=
  match m with
  | .ok a s => k a s
  | .raised e s => .raised e s
  | .refused r => .refused r

/-! ### The cursor and the bit reader (41_cursor.md) -/

/-- `Remaining()` (41_cursor.md R151), over the integers (DEDUCED log 14). -/
def State.remaining (s : State) : Int := (s.inLen.toNat : Int) - s.pos.toNat

/-- `U32` of the four bytes `MemRead(a, 4)` (20_memory.md R85, R86). -/
def State.wireU32 (s : State) (a : Nat) : Word :=
  u32 s.be (s.inByte a) (s.inByte (a + 1)) (s.inByte (a + 2)) (s.inByte (a + 3))

/-- `ReadU32()` (41_cursor.md R152). -/
def readU32 (s : State) : Act Word :=
  if s.remaining < 4 then .raised .outOfData s
  else .ok (s.wireU32 s.pos.toNat) { s with pos := BitVec.ofNat 32 (s.pos.toNat + 4) }

/-- `ReadBytes(n)`: the offset where the bytes start (41_cursor.md R153). -/
def readBytes (n : Nat) (s : State) : Act Word :=
  if s.remaining < n then .raised .outOfData s
  else .ok s.pos { s with pos := BitVec.ofNat 32 (s.pos.toNat + n) }

/-- `PayloadBit(k)` (20_memory.md R87). -/
def State.payloadBit (s : State) (k : Nat) : Bool :=
  payloadBitOf s.bitord (s.inByte (s.payBase.toNat + k / 8)) k

/-- The precondition of `BitRead(k)` (41_cursor.md R154). -/
abbrev State.bitReadable (s : State) (k : Nat) : Prop :=
  k < s.pBits.toNat ∧ s.pBits.toNat ≤ 8 * s.pBytes.toNat ∧
    s.payBase.toNat + s.pBytes.toNat ≤ s.inLen.toNat

/-- `BitRead(k)` (41_cursor.md R154). -/
def bitRead (k : Nat) (s : State) : Act Bool :=
  if s.bitReadable k then .ok (s.payloadBit k) s else .refused .bitReadOutOfRange

/-! ### FMAP (42_header.md R160) -/

/-- The key FMAP is ordered by. -/
def FreqEntry.key (e : FreqEntry) : Nat := e.symbol.toNat

/-- `FMAP[y]`, if `y` is a key. -/
def State.count? (s : State) (y : Word) : Option Word :=
  (Sorted.find FreqEntry.key y.toNat s.fmap).map FreqEntry.count

/-- `ALPHA + 1` (42_header.md R160); free where it does not fit in 32 bits, far above any MAX_ALPHABET
(DESIGN CHOICE log 11). -/
def State.alphaAfter (s : State) : Word :=
  if s.alpha = 0xFFFFFFFF#32 then Config.alphaAboveTop s.fmap.length else s.alpha + 1#32

/-- `FmapInsert(y, c)` (42_header.md R160). -/
def fmapInsert (y c : Word) (s : State) : Act Unit :=
  if (s.count? y).isSome then
    .ok () { s with fmap := Sorted.put FreqEntry.key ⟨y, c⟩ s.fmap }
  else if s.alpha.toNat = s.cfg.maxAlphabet then .raised .alphabetTooLarge s
  else
    .ok () { s with fmap := Sorted.put FreqEntry.key ⟨y, c⟩ s.fmap, alpha := s.alphaAfter }

/-! ### ARENA and HEAP (43_code_table.md R170–R176) -/

/-- A node's frequency (43_code_table.md R170). -/
def Node.freq : Node → BitVec 40
  | .leaf _ f => f
  | .internal f _ _ => f

/-- `ARENA[i]` (10_state.md R54). -/
def arenaGet (arena : List (Nat × Node)) (i : Nat) : Option Node :=
  (Sorted.find Prod.fst i arena).map Prod.snd

/-- `ARENA[i] <- n` (10_state.md R54). -/
def State.arenaPut (s : State) (i : Nat) (n : Node) : State :=
  { s with arena := Sorted.put Prod.fst (i, n) s.arena }

/-- `ARENA[i].freq` as a number (43_code_table.md R170); free for an empty slot, which no decode has
in HEAP (DESIGN CHOICE log 11). -/
def freqAt (arena : List (Nat × Node)) (i : Nat) : Nat :=
  match arenaGet arena i with
  | some n => n.freq.toNat
  | none => (Config.emptySlotFreq i).toNat

/-- `key(i) < key(j)` for `key(i) = (ARENA[i].freq, i)` (43_code_table.md R171). -/
def keyLt (arena : List (Nat × Node)) (i j : Nat) : Bool :=
  decide (freqAt arena i < freqAt arena j) ||
    (freqAt arena i == freqAt arena j && decide (i < j))

/-- The index of a list with the least key (43_code_table.md R171). -/
def minKey (arena : List (Nat × Node)) : List Nat → Option Nat
  | [] => none
  | i :: l =>
    match minKey arena l with
    | none => some i
    | some j => if keyLt arena j i then some j else some i

/-- `HeapSize()` (43_code_table.md R175). -/
def State.heapSize (s : State) : Nat := s.heap.length

/-- `HeapPush(i)` (43_code_table.md R172). -/
def heapPush (i : Nat) (s : State) : Act Unit :=
  if s.heap.length < s.cfg.maxAlphabet then
    if s.heap.contains i then .refused .heapDuplicate
    else .ok () { s with heap := Sorted.put id i s.heap }
  else .refused .heapFull

/-- `HeapPeek()` (43_code_table.md R174). -/
def heapPeek (s : State) : Act Nat :=
  match minKey s.arena s.heap with
  | none => .refused .heapEmpty
  | some m => .ok m s

/-- `HeapPopMin()` (43_code_table.md R173). -/
def heapPopMin (s : State) : Act Nat :=
  (heapPeek s).bind fun m s => .ok m { s with heap := s.heap.filter (fun i => i != m) }

/-- `(y0, FMAP[y0]) .. (y(n-1), FMAP[y(n-1)])` for `n = ALPHA`, by ascending symbol
(43_code_table.md R177). ALPHA is the number of keys (10_state.md R41), so these are all of FMAP;
keys beyond the last are free (DESIGN CHOICE log 11). -/
def State.seedEntries (s : State) : List FreqEntry :=
  s.fmap.take s.alpha.toNat ++
    (List.range (s.alpha.toNat - s.fmap.length)).map fun k =>
      ⟨Config.missingSymbol s.alpha.toNat (s.fmap.length + k),
        Config.missingCount s.alpha.toNat (s.fmap.length + k)⟩

/-- The loop of TREE_SEED (43_code_table.md R177): leaf `i` and its push, for each entry. -/
def seedFrom : Nat → List FreqEntry → State → Act Unit
  | _, [], s => .ok () s
  | i, e :: l, s =>
    (heapPush i (s.arenaPut i (.leaf e.symbol (e.count.setWidth 40)))).bind fun _ s =>
      seedFrom (i + 1) l s

/-- The exact sum of two frequencies in 40 bits; no decode takes it to `2^40`, where it is free
(43_code_table.md R178, R182; DESIGN CHOICE log 11). -/
def freqSum (f g : Nat) : BitVec 40 :=
  if f + g < 2 ^ 40 then BitVec.ofNat 40 (f + g) else Config.overlongFreq (f + g)

/-- The node of one merge (43_code_table.md R178). -/
def mergedNode (arena : List (Nat × Node)) (a b : Nat) : Node :=
  .internal (freqSum (freqAt arena a) (freqAt arena b)) a b

/-- The walk of CODE_BUILD from node `i` with path `p`, left first (43_code_table.md R179, R188).
`none` if it meets an empty slot or goes deeper than `fuel` nodes. -/
def walk (arena : List (Nat × Node)) : (fuel i : Nat) → (p : List Bool) → Option (List CodeEntry)
  | 0, _, _ => none
  | fuel + 1, i, p =>
    match arenaGet arena i with
    | none => none
    | some (.leaf y _) => some [⟨p, y⟩]
    | some (.internal _ l r) =>
      match walk arena fuel l (p ++ [false]), walk arena fuel r (p ++ [true]) with
      | some cl, some cr => some (cl ++ cr)
      | _, _ => none

/-- CT from ROOT and ARENA (43_code_table.md R179). A path without a cycle meets each filled slot
at most once, so it is no longer than ARENA. -/
def codesOf (root : Option Nat) (arena : List (Nat × Node)) : Option (List CodeEntry) :=
  match root with
  | none => none
  | some r => walk arena arena.length r []

/-- What CODE_BUILD leaves in CT: the walk's entries, or, where R179 gives no walk, a free table
(DESIGN CHOICE log 11). -/
def codeTable (root : Option Nat) (arena : List (Nat × Node)) : List CodeEntry :=
  match codesOf root arena with
  | some ct => ct
  | none => Config.treelessTable root arena

/-! ### CT and the output (44_bitstream_decode.md R200, R201) -/

/-- `CtLookup(c)` (44_bitstream_decode.md R200). -/
def ctLookup (c : List Bool) (s : State) : Act (Option Word) :=
  match s.ct.filter (fun e => e.code == c) with
  | [] => .ok none s
  | e :: l =>
    if l.all (fun e' => e'.symbol == e.symbol) then .ok (some e.symbol) s
    else .refused .ambiguousMatch

/-- `Emit(y)` (44_bitstream_decode.md R201). -/
def emit (y : Word) (s : State) : Act Unit :=
  if s.ocnt = s.cfg.outSize then .raised .outputOverflow s
  else .ok () { s.memWriteOut s.ocnt y with ocnt := s.ocnt + 1 }

/-- Emit a match and start a new candidate, or go on with the old one
(44_bitstream_decode.md R207). -/
def emitMatch (m : Option Word) (s : State) : Act Unit :=
  match m with
  | none => .ok () s
  | some y => (emit y s).bind fun _ s => .ok () { s with cand := [] }

/-! ### Commands and registers (45_host_commands.md) -/

/-- `Cmd_START()` (45_host_commands.md R230). -/
def State.cmdStart (s : State) : State := if s.busy then s else s.restart Phase.hdrDeclen

/-- `Cmd_CLEAR()` (45_host_commands.md R231). -/
def State.cmdClear (s : State) : State := s.restart Phase.idle

/-- A write of `v` to CMD (10_state.md R26; 45_host_commands.md R230–R232). -/
def State.writeCmd (s : State) (v : Word) : State :=
  if v = 1#32 then s.cmdStart else if v = 2#32 then s.cmdClear else s

/-- A write of `v` to CTRL (10_state.md R25). -/
def State.writeCtrl (s : State) (v : Word) : State :=
  if s.busy then { s with ie := v.getLsbD 2 }
  else { s with be := v.getLsbD 0, bitord := v.getLsbD 1, ie := v.getLsbD 2 }

/-- A write of `v` to IN_LEN (10_state.md R35). -/
def State.writeInLen (s : State) (v : Word) : State :=
  if s.busy = false ∧ v.toNat ≤ s.cfg.inSize then { s with inLen := v } else s

/-- `RegWrite(off, v)` (45_host_commands.md R234). -/
def State.regWrite (s : State) (off : BitVec 12) (v : Word) : State :=
  match regAt off with
  | some .ctrl => s.writeCtrl v
  | some .cmd => s.writeCmd v
  | some .inLen => s.writeInLen v
  | some _ => s
  | none => s

/-- What a register reads (10_state.md R21–R49; 45_host_commands.md R235). A parameter past 32 bits,
outside the ranges of R7, reads in its low bits (DESIGN CHOICE log 20). -/
def State.regRead (s : State) : RegName → Word
  | .ctrl => s.ctrlWord
  | .cmd => 0#32
  | .status => s.statusWord
  | .inLen => s.inLen
  | .outCount => s.outCountWord
  | .pos => s.pos
  | .bitPos => s.bitPos
  | .decLen => s.decLen
  | .symCnt => s.symCnt
  | .alpha => s.alpha
  | .pBits => s.pBits
  | .pBytes => s.pBytes
  | .unpacked => s.unpacked
  | .payBase => s.payBase
  | .candLen => s.candLenWord
  | .capInSize => BitVec.ofNat 32 s.cfg.inSize
  | .capOutSize => BitVec.ofNat 32 s.cfg.outSize
  | .capMaxAlpha => BitVec.ofNat 32 s.cfg.maxAlphabet

/-- `RegValue(off)` (45_host_commands.md R235; 10_state.md R61). -/
def State.regValue (s : State) (off : BitVec 12) : Word :=
  match regAt off with
  | some r => s.regRead r
  | none => 0#32

/-- The host read returns `v`; nothing else changes (20_memory.md R89, DESIGN CHOICE log 2). -/
def State.respond (s : State) (v : Word) : State := { s with rdData := v }

/-- An access that does nothing: a read returns 0, a write is ignored (20_memory.md R80, R81). -/
def State.noEffect (s : State) (d : Dir) : State :=
  match d with
  | .read => s.respond 0#32
  | .write => s

/-- All four bytes from `a` on lie in IN, and `a` is a multiple of 4 (45_host_commands.md R238,
R239; 20_memory.md R81). -/
abbrev State.inWordMapped (s : State) (a : BitVec 30) : Prop :=
  aligned a = true ∧ a.toNat + 3 < s.cfg.inSize

/-- What `OUT_RD32(i)` returns (45_host_commands.md R240), 0 outside OUT (20_memory.md R80). -/
def State.outRead (s : State) (i : Nat) : Word :=
  if i < s.cfg.outSize ∧ s.isDone = true ∧ i < s.ocnt then s.outWord i else 0#32

/-! ### Reset (70_reset_and_hazards.md R280) -/

/-- The RST input goes to `level`: asserting it sets every state element to its reset value, IN and
OUT to a fresh draw (10_state.md R63, DESIGN CHOICE log 5, DESIGN CHOICE log 12). -/
def State.setRst (s : State) (level : Bool) : State :=
  if level then
    { State.resetWith s.cfg s.inst (s.draws + 1) with rst := true, rdData := s.rdData, turns := s.turns }
  else { s with rst := false }

end Sys2Proof.Machine
end

