-- ==== Sys2Proof/Machine/Bits.lean ====
section
/-! DEFINITION. The decoding phases: single-symbol emission, the prefix-match state machine, the end check (44_bitstream_decode.md R206–R208). -/

namespace Sys2Proof.Machine

/-- The symbol of the sole entry `(ε, y)` of CT (43_code_table.md R184); free where CT is not one such
entry (DESIGN CHOICE log 11). -/
def soleSymbol : List CodeEntry → Word
  | [⟨[], y⟩] => y
  | ct => Config.noSoleSymbol ct

/-- `Op_DEC_SINGLE()` (44_bitstream_decode.md R206). -/
def execDecSingle (s : State) : Host.Outcome State Fault Refusal :=
  (emit (soleSymbol s.ct) s).andThen Phase.decSingle fun _ s =>
    if s.ocnt = s.unpacked.toNat then .next { s with phase := Phase.done } else .next s

/-- `Op_DEC_BIT()` (44_bitstream_decode.md R207). It is the one move that `|CAND| > L_MAX` refuses
(43_code_table.md R189, DESIGN CHOICE log 11). -/
def execDecBit (s : State) : Host.Outcome State Fault Refusal :=
  (bitRead s.bitPos.toNat s).andThen Phase.decBit fun b s =>
    let s := { s with bitPos := s.bitPos + 1#32, cand := s.cand ++ [b] }
    if s.cfg.lMax < s.cand.length then .refused .candTooLong
    else
      (ctLookup s.cand s).andThen Phase.decBit fun m s =>
        (emitMatch m s).andThen Phase.decBit fun _ s =>
          if s.bitPos = s.pBits then .next { s with phase := Phase.decEnd } else .next s

/-- `Op_DEC_END()` (44_bitstream_decode.md R208). -/
def execDecEnd (s : State) : Host.Outcome State Fault Refusal :=
  if s.cand.length ≠ 0 then .next (s.raise .truncatedStream Phase.decEnd)
  else .next { s with phase := Phase.done }

end Sys2Proof.Machine
end

