-- ==== Sys2Proof/Machine/Header.lean ====
section
/-! DEFINITION. The header and frequency-table parser (42_header.md). -/

namespace Sys2Proof.Machine

/-- `Op_HDR_DECLEN()` (42_header.md R161). -/
def execHdrDeclen (s : State) : Host.Outcome State Fault Refusal :=
  (readU32 s).andThen Phase.hdrDeclen fun v s =>
    .next { s with decLen := v, phase := Phase.hdrReserved }

/-- `Op_HDR_RESERVED()` (42_header.md R162). -/
def execHdrReserved (s : State) : Host.Outcome State Fault Refusal :=
  (readU32 s).andThen Phase.hdrReserved fun v s =>
    if v ≠ 0#32 then .next (s.raise .malformedHeader Phase.hdrReserved)
    else .next { s with phase := Phase.hdrCount }

/-- `Op_HDR_COUNT()` (42_header.md R163). -/
def execHdrCount (s : State) : Host.Outcome State Fault Refusal :=
  (readU32 s).andThen Phase.hdrCount fun v s =>
    if v = 0#32 then .next ({ s with symCnt := v }.raise .emptyAlphabet Phase.hdrCount)
    else .next { s with symCnt := v, pairsLeft := v, phase := Phase.hdrPair }

/-- `PAIRS_LEFT - 1` (42_header.md R164); free at 0, which no decode enters HDR_PAIR with
(DESIGN CHOICE log 11). -/
def State.pairsLeftAfter (s : State) : Word :=
  if s.pairsLeft = 0#32 then Config.pairsLeftBelowZero s.pos else s.pairsLeft - 1#32

/-- The end of `Op_HDR_PAIR()`, once the pair is entered (42_header.md R164). -/
def afterPair (s : State) : State :=
  if s.pairsLeftAfter = 0#32 then { s with pairsLeft := 0#32, phase := Phase.treeSeed }
  else { s with pairsLeft := s.pairsLeftAfter }

/-- `Op_HDR_PAIR()` (42_header.md R164). -/
def execHdrPair (s : State) : Host.Outcome State Fault Refusal :=
  (readU32 s).andThen Phase.hdrPair fun c s =>
    (readU32 s).andThen Phase.hdrPair fun y s =>
      (fmapInsert y c s).andThen Phase.hdrPair fun _ s => .next (afterPair s)

end Sys2Proof.Machine
end

