-- ==== Sys2Proof/Machine/HostBus.lean ====
section
/-! DEFINITION. The host's commands and bus accesses (45_host_commands.md). -/

namespace Sys2Proof.Machine

/-- START (45_host_commands.md R230). -/
def execStart (s : State) : Host.Outcome State Fault Refusal := .next s.cmdStart

/-- CLEAR (45_host_commands.md R231). -/
def execClear (s : State) : Host.Outcome State Fault Refusal := .next s.cmdClear

/-- REG_RD32 (45_host_commands.md R236). A misaligned offset holds no register and reads 0. -/
def execRegRd32 (reg : BitVec 12) (s : State) : Host.Outcome State Fault Refusal :=
  .next (s.respond (s.regValue reg))

/-- REG_WR32 (45_host_commands.md R237). -/
def execRegWr32 (reg : BitVec 12) (v : Word) (s : State) : Host.Outcome State Fault Refusal :=
  .next (s.regWrite reg v)

/-- IN_RD8 (45_host_commands.md R238); 0 at or above IN_SIZE (20_memory.md R80). -/
def execInRd8 (a : BitVec 30) (s : State) : Host.Outcome State Fault Refusal :=
  .next (s.respond (if a.toNat < s.cfg.inSize then (s.inByte a.toNat).setWidth 32 else 0#32))

/-- IN_RD32 (45_host_commands.md R238); 0 unless aligned and all four bytes lie in IN. -/
def execInRd32 (a : BitVec 30) (s : State) : Host.Outcome State Fault Refusal :=
  .next (s.respond (if s.inWordMapped a then s.inWord a.toNat else 0#32))

/-- IN_WR8 (45_host_commands.md R239); ignored while busy and at or above IN_SIZE. -/
def execInWr8 (a : BitVec 30) (v : Byte) (s : State) : Host.Outcome State Fault Refusal :=
  .next (if s.busy = false ∧ a.toNat < s.cfg.inSize then s.putInByte a.toNat v else s)

/-- IN_WR32 (45_host_commands.md R239); ignored while busy, and unless aligned and all four bytes
lie in IN. -/
def execInWr32 (a : BitVec 30) (v : Word) (s : State) : Host.Outcome State Fault Refusal :=
  .next (if s.busy = false ∧ s.inWordMapped a then s.putInWord a.toNat v else s)

/-- OUT_RD32 (45_host_commands.md R240). -/
def execOutRd32 (i : BitVec 29) (s : State) : Host.Outcome State Fault Refusal :=
  .next (s.respond (s.outRead i.toNat))

end Sys2Proof.Machine
end

