-- ==== Sys2Proof/Machine/Quiescent.lean ====
section
/-! DEFINITION. IDLE, DONE and ERROR: the engine has no step there (40_step.md R142), so its turn leaves the state as it is (DEDUCED log 10). -/

namespace Sys2Proof.Machine

/-- PHASE 0x00 (40_step.md R142). -/
def execIdle (s : State) : Host.Outcome State Fault Refusal := .next s

/-- PHASE 0x0F (40_step.md R142). -/
def execDone (s : State) : Host.Outcome State Fault Refusal := .next s

/-- PHASE 0x10 (40_step.md R142). -/
def execError (s : State) : Host.Outcome State Fault Refusal := .next s

end Sys2Proof.Machine
end

