-- ==== Sys2Proof/Machine/Trailer.lean ====
section
/-! DEFINITION. The trailer and the payload binding (44_bitstream_decode.md R202–R205). -/

namespace Sys2Proof.Machine

/-- TRL_PBITS (44_bitstream_decode.md R202). -/
def execTrlPbits (s : State) : Host.Outcome State Fault Refusal :=
  (readU32 s).andThen Phase.trlPbits fun v s =>
    .next { s with pBits := v, phase := Phase.trlPbytes }

/-- TRL_PBYTES (44_bitstream_decode.md R203). -/
def execTrlPbytes (s : State) : Host.Outcome State Fault Refusal :=
  (readU32 s).andThen Phase.trlPbytes fun v s =>
    .next { s with pBytes := v, phase := Phase.trlUnpacked }

/-- TRL_UNPACKED (44_bitstream_decode.md R204). -/
def execTrlUnpacked (s : State) : Host.Outcome State Fault Refusal :=
  (readU32 s).andThen Phase.trlUnpacked fun v s =>
    .next { s with unpacked := v, phase := Phase.payload }

/-- `Op_PAYLOAD()` (44_bitstream_decode.md R205). -/
def execPayload (s : State) : Host.Outcome State Fault Refusal :=
  (readBytes s.pBytes.toNat s).andThen Phase.payload fun base s =>
    let s := { s with payBase := base }
    if s.alpha = 1#32 then
      if s.unpacked = 0#32 then .next { s with phase := Phase.done }
      else .next { s with phase := Phase.decSingle }
    else if 8 * s.pBytes.toNat < s.pBits.toNat then
      .next (s.raise .outOfData Phase.payload)
    else if s.pBits = 0#32 then .next { s with phase := Phase.decEnd }
    else .next { s with phase := Phase.decBit }

end Sys2Proof.Machine
end

