-- ==== Sys2Proof/Machine/Tree.lean ====
section
/-! DEFINITION. The tree builder and the code-table builder (43_code_table.md). -/

namespace Sys2Proof.Machine

/-- `Op_TREE_SEED()` (43_code_table.md R177). -/
def execTreeSeed (s : State) : Host.Outcome State Fault Refusal :=
  (seedFrom 0 s.seedEntries s).andThen Phase.treeSeed fun _ s =>
    let s := { s with nextIdx := s.alpha.toNat }
    if s.heapSize = 1 then
      (heapPeek s).andThen Phase.treeSeed fun r s =>
        .next { s with root := some r, phase := Phase.codeBuild }
    else .next { s with phase := Phase.treeMerge }

/-- `Op_TREE_MERGE()` (43_code_table.md R178). It is the one move that NEXTIDX beyond its bound refuses
(R189, DESIGN CHOICE log 11). -/
def execTreeMerge (s : State) : Host.Outcome State Fault Refusal :=
  if s.heapSize < 2 then .refused .mergeUnderflow
  else
    (heapPopMin s).andThen Phase.treeMerge fun a s =>
      (heapPopMin s).andThen Phase.treeMerge fun b s =>
        if 2 * s.cfg.maxAlphabet - 1 ≤ s.nextIdx then .refused .arenaFull
        else
          (heapPush s.nextIdx { s.arenaPut s.nextIdx (mergedNode s.arena a b) with
              nextIdx := s.nextIdx + 1 }).andThen Phase.treeMerge fun _ s =>
            if s.heapSize = 1 then
              (heapPeek s).andThen Phase.treeMerge fun r s =>
                .next { s with root := some r, phase := Phase.codeBuild }
            else .next s

/-- `Op_CODE_BUILD()` (43_code_table.md R179). -/
def execCodeBuild (s : State) : Host.Outcome State Fault Refusal :=
  .next { s with ct := codeTable s.root s.arena, phase := Phase.trlPbits }

end Sys2Proof.Machine
end

