-- ==== Sys2Proof/Machine/Dispatch.lean ====
section
/-! DEFINITION. One arm per row of spec/opcode_table.json (40_step.md R141, 45_host_commands.md R230–R240). -/

namespace Sys2Proof.Machine

def exec (i : Instr) (s : State) : Host.Outcome State Fault Refusal :=
  match i with
  | .start => Sys2Proof.Machine.execStart s
  | .clear => Sys2Proof.Machine.execClear s
  | .idle => Sys2Proof.Machine.execIdle s
  | .hdrDeclen => Sys2Proof.Machine.execHdrDeclen s
  | .hdrReserved => Sys2Proof.Machine.execHdrReserved s
  | .hdrCount => Sys2Proof.Machine.execHdrCount s
  | .hdrPair => Sys2Proof.Machine.execHdrPair s
  | .treeSeed => Sys2Proof.Machine.execTreeSeed s
  | .treeMerge => Sys2Proof.Machine.execTreeMerge s
  | .codeBuild => Sys2Proof.Machine.execCodeBuild s
  | .trlPbits => Sys2Proof.Machine.execTrlPbits s
  | .trlPbytes => Sys2Proof.Machine.execTrlPbytes s
  | .trlUnpacked => Sys2Proof.Machine.execTrlUnpacked s
  | .payload => Sys2Proof.Machine.execPayload s
  | .decSingle => Sys2Proof.Machine.execDecSingle s
  | .decBit => Sys2Proof.Machine.execDecBit s
  | .decEnd => Sys2Proof.Machine.execDecEnd s
  | .done => Sys2Proof.Machine.execDone s
  | .error => Sys2Proof.Machine.execError s
  | .regRd32 reg => Sys2Proof.Machine.execRegRd32 reg s
  | .regWr32 reg v => Sys2Proof.Machine.execRegWr32 reg v s
  | .inRd8 a => Sys2Proof.Machine.execInRd8 a s
  | .inRd32 a => Sys2Proof.Machine.execInRd32 a s
  | .inWr8 a v => Sys2Proof.Machine.execInWr8 a v s
  | .inWr32 a v => Sys2Proof.Machine.execInWr32 a v s
  | .outRd32 n => Sys2Proof.Machine.execOutRd32 n s

end Sys2Proof.Machine
end

