-- ==== Sys2Proof/Machine/Turns.lean ====
section
/-! DEFINITION. One move (40_step.md R140–R143): whose turn it is, what it fetches, and what surrounds exec. -/

namespace Sys2Proof.Machine

/-- A state the block cannot reach and a model refuses whatever the move: a reserved PHASE code
(30_encoding.md R120) or ERRCODE 7 (60_exceptions.md R250, U24). R189 does not say which moves its
conditions refuse. Its other conditions refuse the operation that meets them, and every other move
runs: with `|CAND| > L_MAX` DEC_BIT alone is refused, with NEXTIDX beyond its bound TREE_MERGE alone
(DESIGN CHOICE log 11). -/
def State.unreachable (s : State) : Option Refusal :=
  if Phase.reserved s.phase then some .reservedPhase
  else if s.errCode = 7#3 then some .reservedErrCode
  else none

/-- The engine's turn: the operation PHASE selects (40_step.md R141), none while RST is asserted
(70_reset_and_hazards.md R280). -/
def engineTurn (s : State) : Host.Outcome State Fault Refusal :=
  if s.rst then .next s
  else
    match decodePhase s.phase with
    | .ok i => exec i s
    | .error _ => .refused .reservedPhase

/-- The host's turn: the operation the access decodes to (20_memory.md R80, R81); any other access
does nothing (DESIGN CHOICE log 9), and so does every access while RST is asserted (70_reset_and_hazards.md R280). -/
def hostTurn (a : BusAccess) (s : State) : Host.Outcome State Fault Refusal :=
  if s.rst then .next (s.noEffect a.dir)
  else
    match decodeAccess a with
    | .ok i => exec i s
    | .error _ => .next (s.noEffect a.dir)

/-- One move by turn `t`. -/
def move (t : Turn) (s : State) : Host.Outcome State Fault Refusal :=
  match t with
  | .engine => engineTurn s
  | .host a => hostTurn a s
  | .rst level => .next (s.setRst level)

/-- The next move: the first of `turns`, which it uses up; the engine's when there is none
(DESIGN CHOICE log 1). -/
def nextMove (s : State) : Host.Outcome State Fault Refusal :=
  match s.unreachable with
  | some r => .refused r
  | none =>
    match s.turns with
    | [] => move .engine s
    | t :: ts => move t { s with turns := ts }

/-- The access that carries a table word of more than 8 bits: a write of a command value to CMD, or
a read at the word as an offset, in the width the decoder took it in (DESIGN CHOICE log 7). -/
def wordAccess (w : Word) : BusAccess :=
  match firstDecoded (bytesOf w) tableFormats with
  | some (.cmd, _) => ⟨.write, 32, regOff cmdOffset, w⟩
  | some (.busRead n, _) => ⟨.read, n, w, 0#32⟩
  | _ => ⟨.read, 32, w, 0#32⟩

/-- The instruction of a table word placed where the next move fetches: in PHASE with the engine's
turn first, or as the host's next access; RST released (DESIGN CHOICE log 7). -/
def State.placeWord (s : State) (nbits w : Nat) : State :=
  if nbits ≤ 8 then
    { s with phase := BitVec.ofNat 5 w, rst := false, turns := .engine :: s.turns }
  else { s with rst := false, turns := .host (wordAccess (BitVec.ofNat 32 w)) :: s.turns }

end Sys2Proof.Machine
end

