-- ==== Sys2Proof/Machine/Step.lean ====
section
/-! DEFINITION. The step (40_step.md R140), and how an instruction is placed for it. -/

namespace Sys2Proof.Machine

/-- One step of the machine: one move (40_step.md R140). -/
def step (s : State) : Host.Outcome State Fault Refusal := nextMove s

/-- `s` with the instruction of a table word as the next move (DESIGN CHOICE log 7). -/
def State.withFetchWord (s : State) (nbits w : Nat) : State := s.placeWord nbits w

end Sys2Proof.Machine
end

