-- ==== Sys2Proof/Machine/System.lean ====
section
/-! DEFINITION. Several instances side by side (60_exceptions.md R268, DESIGN CHOICE log 15): one moves, the others are untouched. -/

namespace Sys2Proof.Machine

/-- A system of `n` instances out of reset, each with its own power-on draws and all in IDLE
(60_exceptions.md R268, 70_reset_and_hazards.md R281). -/
def systemReset (n : Nat) : List State :=
  (List.range n).map fun k => State.resetWith Config.params k 0

/-- Place `k` of the system holds instance `k`, so no two instances hold the same draws
(60_exceptions.md R268). -/
abbrev instancesOwn (sys : List State) : Prop :=
  ∀ (k : Nat) (s : State), sys[k]? = some s → s.inst = k

/-- One move of instance `k` of a system; with no such instance, none (60_exceptions.md R268). -/
def systemStep (k : Nat) (sys : List State) : Host.Outcome (List State) Fault Refusal :=
  match sys[k]? with
  | none => .next sys
  | some s =>
    match step s with
    | .next s' => .next (sys.set k s')
    | .fault f => .fault f
    | .refused r => .refused r

end Sys2Proof.Machine
end

