-- ==== Sys2Proof/Safety.lean ====
section
/-! DEFINITION. The terms the claims use: which accesses are allowed, which states can be reached, the invariants, the tree's paths, what one decode may depend on. -/

namespace Sys2Proof.Machine

/-- The accesses of 20_memory.md R80, R81, written with numbers as the spec's tables are. -/
abbrev allowedAccess (p : Params) (a : BusAccess) : Prop :=
  (a.off.toNat < 0x1000 ∧ a.width = 32 ∧ a.off.toNat % 4 = 0) ∨
  (0x40000000 ≤ a.off.toNat ∧ a.off.toNat < 0x40000000 + p.inSize ∧ a.width = 8) ∨
  (0x40000000 ≤ a.off.toNat ∧ a.off.toNat + 3 < 0x40000000 + p.inSize ∧ a.width = 32 ∧
    a.off.toNat % 4 = 0) ∨
  (0x80000000 ≤ a.off.toNat ∧ a.off.toNat < 0x80000000 + 4 * p.outSize ∧ a.width = 32 ∧
    a.off.toNat % 4 = 0 ∧ a.dir = .read)

/-- No code the block never holds: PHASE is 0x00–0x10 (30_encoding.md R120) and ERRCODE is not 7
(60_exceptions.md R250). -/
abbrev State.legalCodes (s : State) : Prop := s.phase.toNat ≤ 0x10 ∧ s.errCode ≠ 7#3

/-- PHASE and the error record: legal codes, and ERRCODE and ERRPHASE are 0 unless PHASE = ERROR
(10_state.md R27, R32, R33). -/
abbrev State.controlInv (s : State) : Prop :=
  s.legalCodes ∧ (s.phase ≠ Phase.error → s.errCode = 0#3 ∧ s.errPhase = 0#5)

/-- IN and OUT in canonical form, inside their sizes, and OCNT within OUT (10_state.md R50–R52,
DESIGN CHOICE log 6). -/
abbrev State.memoryInv (s : State) : Prop :=
  Memory.wf s.inMem = true ∧ (∀ c ∈ s.inMem, c.1 < s.cfg.inSize) ∧
  Memory.wf s.outMem = true ∧ (∀ c ∈ s.outMem, c.1 < s.cfg.outSize) ∧ s.ocnt ≤ s.cfg.outSize

/-- The parameters in range, IN_LEN within IN, POS 0 in IDLE, and POS within the buffer but in DONE
and ERROR, where R35 lets the host lower IN_LEN (10_state.md R35, R37; 41_cursor.md R150; DEDUCED
log 16). -/
abbrev State.cursorInv (s : State) : Prop :=
  s.cfg.ok ∧ s.inLen.toNat ≤ s.cfg.inSize ∧ (s.phase = Phase.idle → s.pos = 0#32) ∧
    (s.phase ≠ Phase.done → s.phase ≠ Phase.error → s.pos.toNat ≤ s.inLen.toNat)

/-- The next move is a host write that lowers IN_LEN below POS, which R35 allows in DONE and ERROR
(10_state.md R35; DEDUCED log 16). -/
def State.inLenDropsBelowPos (s : State) : Prop :=
  (s.phase = Phase.done ∨ s.phase = Phase.error) ∧ ∃ a ts v, s.turns = .host a :: ts ∧
    decodeAccess a = .ok (.regWr32 0x00C#12 v) ∧ v.toNat < s.pos.toNat

/-- FMAP in canonical form, ALPHA its size, within MAX_ALPHABET (10_state.md R41, R53). -/
abbrev State.alphabetInv (s : State) : Prop :=
  s.cfg.ok ∧ Sorted.wf FreqEntry.key s.fmap = true ∧ s.alpha.toNat = s.fmap.length ∧
    s.fmap.length ≤ s.cfg.maxAlphabet

/-- BITPOS within PBITS, and 0 before the bit loop; nothing emitted before the decoding phases;
HDR_PAIR has pairs left to read and DEC_SINGLE copies left to emit (10_state.md R38, R52;
42_header.md R164; 44_bitstream_decode.md R206). -/
abbrev State.progressInv (s : State) : Prop :=
  s.bitPos.toNat ≤ s.pBits.toNat ∧
  (1 ≤ s.phase.toNat → s.phase.toNat ≤ 0x0C → s.bitPos = 0#32) ∧
  (1 ≤ s.phase.toNat → s.phase.toNat ≤ 0x0B → s.ocnt = 0) ∧
  (s.phase = Phase.hdrPair → s.pairsLeft ≠ 0#32) ∧
  (s.phase = Phase.decSingle → s.ocnt < s.unpacked.toNat)

/-- The operation PHASE selects needs no free value: what its rule takes for granted holds
(42_header.md R164; 10_state.md R41; 43_code_table.md R170, R180, R182, R184; DESIGN CHOICE log 11). -/
def State.needsNoFreeValue (s : State) : Prop :=
  (s.phase = Phase.hdrPair → s.pairsLeft ≠ 0#32 ∧ s.alpha.toNat + 1 < 2 ^ 32) ∧
  (s.phase = Phase.treeSeed → s.alpha.toNat = s.fmap.length) ∧
  (s.phase = Phase.treeMerge →
    (∀ i ∈ s.heap, (arenaGet s.arena i).isSome = true) ∧
    ∀ i ∈ s.heap, ∀ j ∈ s.heap, i ≠ j → freqAt s.arena i + freqAt s.arena j < 2 ^ 40) ∧
  (s.phase = Phase.codeBuild → (codesOf s.root s.arena).isSome = true) ∧
  (s.phase = Phase.decSingle → ∃ y, s.ct = [⟨[], y⟩])

/-- How often the phases that repeat can still repeat (40_step.md R146, 70_reset_and_hazards.md
R290). -/
def State.workLeft (s : State) : Nat :=
  if s.phase = Phase.hdrPair then s.pairsLeft.toNat
  else if s.phase = Phase.treeMerge then s.heap.length
  else if s.phase = Phase.decSingle then s.unpacked.toNat - s.ocnt
  else if s.phase = Phase.decBit then s.pBits.toNat - s.bitPos.toNat
  else 0

/-- The states some host, some interleaving and some RST input lead to from reset, for parameters
in range (40_step.md R140, R143). -/
inductive Reachable : State → Prop where
  | reset (p : Params) (n d : Nat) (ts : List Turn) :
      p.ok → Reachable { State.resetWith p n d with turns := ts }
  | step (s t : State) : Reachable s → Sys2Proof.Machine.step s = .next t → Reachable t

/-- The symbol at the end of a path from node `i`, if a leaf is there: `false` goes left, `true`
right (43_code_table.md R179). -/
def leafAt (arena : List (Nat × Node)) : Nat → List Bool → Option Word
  | i, [] =>
    match arenaGet arena i with
    | some (.leaf y _) => some y
    | _ => none
  | i, b :: p =>
    match arenaGet arena i with
    | some (.internal _ l r) => leafAt arena (if b then r else l) p
    | _ => none

/-- Every internal node's children are filled slots below it, as TREE_SEED and TREE_MERGE make
them (43_code_table.md R178, R180). -/
abbrev childrenBelow (arena : List (Nat × Node)) : Prop :=
  ∀ c ∈ arena, match c.2 with
    | .leaf _ _ => True
    | .internal _ l r => l < c.1 ∧ r < c.1 ∧ (arenaGet arena l).isSome = true ∧
        (arenaGet arena r).isSome = true

/-- The key of 43_code_table.md R171 as a pair, and its order. -/
abbrev keyBelow (arena : List (Nat × Node)) (i j : Nat) : Prop :=
  freqAt arena i < freqAt arena j ∨ (freqAt arena i = freqAt arena j ∧ i < j)

/-- Two states a decode cannot tell apart: they differ at most in CTRL.IE, the bytes of IN at or
above IN_LEN, the OUT words not yet emitted, which instance and draw they are, the last read, the
RST level and the moves to come (40_step.md R145, 20_memory.md R85). -/
def sameDecode (s t : State) : Prop :=
  t = { s with
    ie := t.ie, inMem := t.inMem, outMem := t.outMem, inst := t.inst, draws := t.draws,
    rdData := t.rdData, rst := t.rst, turns := t.turns } ∧
  (∀ a, a < s.inLen.toNat → t.inByte a = s.inByte a) ∧
  ∀ i, i < s.ocnt → t.outWord i = s.outWord i

end Sys2Proof.Machine
end

