-- ==== Sys2Proof/Certificates/Slice0/Obligations.lean ====
section
/-! DEFINITION. The statements for the provers, from the numbered rules of spec/. Nothing is proved here. -/

open Sys2Proof Sys2Proof.Machine

/-! ### Encodings -/

/-- Every operand of every well-formed instruction survives encoding and decoding
(30_encoding.md R117, R118; 20_memory.md R80, R81). The byte layout is the model's (log 7). -/
def Obligations.DecodeEncodeAgree : Prop :=
  ∀ (i : Instr) (rest : List Byte), i.wf = true →
    decode (encode i).1 ((encode i).2 ++ rest) = .ok (i, rest)

/-- What decodes is well-formed: a 32-bit access is aligned (20_memory.md R81), and a command value
written to CMD is the command (log 8). -/
def Obligations.DecodedIsWellFormed : Prop :=
  ∀ (f : Format) (bs rest : List Byte) (i : Instr), decode f bs = .ok (i, rest) → i.wf = true

/-- The CMD values and the PHASE codes, the reserved ones refused (30_encoding.md R117, R118, R119,
R120). -/
def Obligations.CommandAndPhaseCodes : Prop :=
  (decodeCmd 0x00000001#32 = .ok .start ∧ decodeCmd 0x00000002#32 = .ok .clear ∧
    ∀ v : Word, v ≠ 1#32 → v ≠ 2#32 → decodeCmd v = .error .reservedCommand) ∧
  (decodePhase 0x00#5 = .ok .idle ∧ decodePhase 0x01#5 = .ok .hdrDeclen ∧
    decodePhase 0x02#5 = .ok .hdrReserved ∧ decodePhase 0x03#5 = .ok .hdrCount ∧
    decodePhase 0x04#5 = .ok .hdrPair ∧ decodePhase 0x05#5 = .ok .treeSeed ∧
    decodePhase 0x06#5 = .ok .treeMerge ∧ decodePhase 0x07#5 = .ok .codeBuild ∧
    decodePhase 0x08#5 = .ok .trlPbits ∧ decodePhase 0x09#5 = .ok .trlPbytes ∧
    decodePhase 0x0A#5 = .ok .trlUnpacked ∧ decodePhase 0x0B#5 = .ok .payload ∧
    decodePhase 0x0C#5 = .ok .decSingle ∧ decodePhase 0x0D#5 = .ok .decBit ∧
    decodePhase 0x0E#5 = .ok .decEnd ∧ decodePhase 0x0F#5 = .ok .done ∧
    decodePhase 0x10#5 = .ok .error) ∧
  ∀ p : BitVec 5, 0x11 ≤ p.toNat → decodePhase p = .error .reservedPhase

/-- A few words of each format decode to what the spec's tables say they are. A sanity check. -/
def Obligations.SampleWordsDecode : Prop :=
  decode .cmd [0x01#8, 0x00#8, 0x00#8, 0x00#8] = .ok (.start, []) ∧
  decode .phase [0x0D#8] = .ok (.decBit, []) ∧
  decode (.busRead 32) [0x08#8, 0x00#8, 0x00#8, 0x00#8] = .ok (.regRd32 0x008#12, []) ∧
  decode (.busRead 8) [0x03#8, 0x00#8, 0x00#8, 0x40#8] = .ok (.inRd8 3#30, []) ∧
  decode (.busWrite 32) [0x04#8, 0x00#8, 0x00#8, 0x40#8, 0x78#8, 0x56#8, 0x34#8, 0x12#8] =
    .ok (.inWr32 4#30 0x12345678#32, []) ∧
  decode (.busRead 32) [0x14#8, 0x00#8, 0x00#8, 0x80#8] = .ok (.outRd32 5#29, [])

/-! ### The step -/

/-- A step runs what the next move fetches, on the state without that move: for the engine the
operation PHASE selects (40_step.md R141), for the host the operation its access decodes to. With
no move left the engine moves (log 1). A reserved PHASE code, and an ERRCODE of 7, is refused
whatever the move (30_encoding.md R120; U24). -/
def Obligations.StepRunsTheFetchedInstruction : Prop :=
  ∀ (s : State) (i : Instr) (a : BusAccess) (ts : List Turn),
    (s.legalCodes → s.rst = false → s.turns = [] → decodePhase s.phase = .ok i →
      step s = exec i s) ∧
    (s.legalCodes → s.rst = false → s.turns = .engine :: ts → decodePhase s.phase = .ok i →
      step s = exec i { s with turns := ts }) ∧
    (s.legalCodes → s.rst = false → s.turns = .host a :: ts → decodeAccess a = .ok i →
      step s = exec i { s with turns := ts }) ∧
    (0x11 ≤ s.phase.toNat → step s = .refused .reservedPhase) ∧
    (s.phase.toNat ≤ 0x10 → s.errCode = 7#3 → step s = .refused .reservedErrCode)

/-- An access outside the map or of a width, alignment or direction its region does not allow does
nothing: a read returns 0, a write is ignored; every other access decodes (20_memory.md R80,
R81). -/
def Obligations.AccessesNotAllowedDoNothing : Prop :=
  ∀ (s : State) (a : BusAccess) (ts : List Turn), s.legalCodes → s.cfg.ok →
    (s.turns = .host a :: ts → ¬ allowedAccess s.cfg a →
      step s = .next
        { s with turns := ts, rdData := (if a.dir = .read then 0#32 else s.rdData) }) ∧
    (allowedAccess s.cfg a → ∃ i, decodeAccess a = .ok i ∧ i.wf = true)

/-- One instance's move leaves every other instance as it was (60_exceptions.md R268). -/
def Obligations.InstancesShareNothing : Prop :=
  ∀ (k j : Nat) (sys sys' : List State), systemStep k sys = .next sys' → j ≠ k →
    sys'[j]? = sys[j]?

/-- Every instance comes out of reset in IDLE, with IN and OUT holding its own draw, and every move
of any instance keeps place `k` the instance `k` (60_exceptions.md R268). How an instance names its
draws is the model's (log 5, log 15). -/
def Obligations.InstancesHoldTheirOwnMemories : Prop :=
  (∀ n k : Nat, k < n → ∃ s, (systemReset n)[k]? = some s ∧ s.phase = 0x00#5 ∧
    (∀ a, s.inByte a = Config.inDraw k 0 a) ∧ ∀ i, s.outWord i = Config.outDraw k 0 i) ∧
  (∀ n : Nat, (systemReset n).length = n ∧ instancesOwn (systemReset n)) ∧
  ∀ (k : Nat) (sys sys' : List State), instancesOwn sys → systemStep k sys = .next sys' →
    sys'.length = sys.length ∧ instancesOwn sys'

/-! ### Reset -/

/-- Every row of the reset table that gives a value, the CAP registers reading the constants of the
instance (10_state.md R63). The table leaves IN and OUT open, so nothing is said of them here. -/
def Obligations.ResetState : Prop :=
  State.reset.be = false ∧ State.reset.bitord = false ∧ State.reset.ie = false ∧
  State.reset.phase = 0x00#5 ∧ State.reset.busy = false ∧ State.reset.isDone = false ∧
  State.reset.isErr = false ∧ State.reset.irq = false ∧
  State.reset.errCode = 0#3 ∧ State.reset.errPhase = 0#5 ∧ State.reset.inLen = 0#32 ∧
  State.reset.pos = 0#32 ∧ State.reset.bitPos = 0#32 ∧ State.reset.decLen = 0#32 ∧
  State.reset.symCnt = 0#32 ∧ State.reset.alpha = 0#32 ∧ State.reset.pBits = 0#32 ∧
  State.reset.pBytes = 0#32 ∧ State.reset.unpacked = 0#32 ∧ State.reset.payBase = 0#32 ∧
  State.reset.candLenWord = 0#32 ∧ State.reset.outCountWord = 0#32 ∧
  State.reset.regRead .capInSize = BitVec.ofNat 32 State.reset.cfg.inSize ∧
  State.reset.regRead .capOutSize = BitVec.ofNat 32 State.reset.cfg.outSize ∧
  State.reset.regRead .capMaxAlpha = BitVec.ofNat 32 State.reset.cfg.maxAlphabet ∧
  State.reset.ocnt = 0 ∧ State.reset.fmap = [] ∧ State.reset.arena = [] ∧
  State.reset.nextIdx = 0 ∧ State.reset.heap = [] ∧ State.reset.root = none ∧
  State.reset.cand = [] ∧ State.reset.ct = [] ∧ State.reset.pairsLeft = 0#32

/-- What the reset table leaves open is a free value of `Config`: the parameters lie in their ranges
(00_scope.md R7), and IN and OUT hold the draw (10_state.md R50, R51). That `MAX_ALPHABET` is 256,
and the form of the draw, are the model's choices (log 4, log 5, log 15). -/
def Obligations.ResetLeavesTheDrawFree : Prop :=
  State.reset.cfg.ok ∧ State.reset.cfg.maxAlphabet = 256 ∧
  (∀ a, State.reset.inByte a = Config.inDraw 0 0 a) ∧
  (∀ i, State.reset.outWord i = Config.outDraw 0 0 i)

/-- Asserting RST in any phase sets every state element to its reset value; while it is asserted
host accesses have no effect, reads return 0 and the engine takes no step
(70_reset_and_hazards.md R280). The fresh draw and what RST leaves of the model's own fields are
the model's (log 5, log 12). -/
def Obligations.RstSetsEveryElement : Prop :=
  ∀ (s : State) (a : BusAccess) (ts : List Turn), s.legalCodes →
    (s.turns = .rst true :: ts →
      step s = .next
        { State.resetWith s.cfg s.inst (s.draws + 1) with
            rst := true, rdData := s.rdData, turns := ts }) ∧
    (s.turns = .rst false :: ts → step s = .next { s with rst := false, turns := ts }) ∧
    (s.rst = true → s.turns = .engine :: ts → step s = .next { s with turns := ts }) ∧
    (s.rst = true → s.turns = .host a :: ts →
      step s = .next
        { s with turns := ts, rdData := (if a.dir = .read then 0#32 else s.rdData) })

/-! ### Registers -/

/-- A read of STATUS returns its fields, the reserved bits 0, and changes nothing
(10_state.md R27–R34). -/
def Obligations.StatusReadReturnsItsFields : Prop :=
  ∀ s : State, ∃ t, exec (.regRd32 0x008#12) s = .next t ∧ t = { s with rdData := t.rdData } ∧
    t.rdData.toNat =
      s.phase.toNat +
      2 ^ 8 * (decide (s.phase ≠ 0x00#5 ∧ s.phase ≠ 0x0F#5 ∧ s.phase ≠ 0x10#5)).toNat +
      2 ^ 9 * (decide (s.phase = 0x0F#5)).toNat +
      2 ^ 10 * (decide (s.phase = 0x10#5)).toNat +
      2 ^ 11 * (decide (s.ie = true ∧ (s.phase = 0x0F#5 ∨ s.phase = 0x10#5))).toNat +
      2 ^ 12 * s.errCode.toNat + 2 ^ 16 * s.errPhase.toNat

/-- CTRL reads its three fields, the reserved bits 0; a write sets all three when not busy, only IE
while busy (10_state.md R22–R25). -/
def Obligations.CtrlReadAndWrite : Prop :=
  ∀ (s : State) (v : Word),
    (∃ t, exec (.regRd32 0x000#12) s = .next t ∧ t = { s with rdData := t.rdData } ∧
      t.rdData.toNat = s.be.toNat + 2 * s.bitord.toNat + 4 * s.ie.toNat) ∧
    (s.busy = false → exec (.regWr32 0x000#12 v) s =
      .next { s with be := v.getLsbD 0, bitord := v.getLsbD 1, ie := v.getLsbD 2 }) ∧
    (s.busy = true → exec (.regWr32 0x000#12 v) s = .next { s with ie := v.getLsbD 2 })

/-- A read of each other register returns its value and changes nothing; CMD and the offsets that
hold no register read 0 (45_host_commands.md R235, R236; 10_state.md R26, R35–R49, R61). That a number
past 32 bits, which no run reaches, reads in its low bits is the model's (DESIGN CHOICE log 20). -/
def Obligations.RegisterReads : Prop :=
  ∀ (s : State) (r : BitVec 12) (d : Word),
    (r.toNat % 4 = 0 → decodeAccess ⟨.read, 32, regOff r, d⟩ = .ok (.regRd32 r)) ∧
    exec (.regRd32 0x004#12) s = .next { s with rdData := 0#32 } ∧
    exec (.regRd32 0x00C#12) s = .next { s with rdData := s.inLen } ∧
    exec (.regRd32 0x010#12) s =
      .next { s with rdData := (if s.phase = 0x0F#5 then BitVec.ofNat 32 s.ocnt else 0#32) } ∧
    exec (.regRd32 0x014#12) s = .next { s with rdData := s.pos } ∧
    exec (.regRd32 0x018#12) s = .next { s with rdData := s.bitPos } ∧
    exec (.regRd32 0x01C#12) s = .next { s with rdData := s.decLen } ∧
    exec (.regRd32 0x020#12) s = .next { s with rdData := s.symCnt } ∧
    exec (.regRd32 0x024#12) s = .next { s with rdData := s.alpha } ∧
    exec (.regRd32 0x028#12) s = .next { s with rdData := s.pBits } ∧
    exec (.regRd32 0x02C#12) s = .next { s with rdData := s.pBytes } ∧
    exec (.regRd32 0x030#12) s = .next { s with rdData := s.unpacked } ∧
    exec (.regRd32 0x034#12) s = .next { s with rdData := s.payBase } ∧
    exec (.regRd32 0x038#12) s = .next { s with rdData := BitVec.ofNat 32 s.cand.length } ∧
    exec (.regRd32 0x03C#12) s = .next { s with rdData := BitVec.ofNat 32 s.cfg.inSize } ∧
    exec (.regRd32 0x040#12) s = .next { s with rdData := BitVec.ofNat 32 s.cfg.outSize } ∧
    exec (.regRd32 0x044#12) s = .next { s with rdData := BitVec.ofNat 32 s.cfg.maxAlphabet } ∧
    (0x048 ≤ r.toNat → exec (.regRd32 r) s = .next { s with rdData := 0#32 }) ∧
    (r.toNat % 4 ≠ 0 → exec (.regRd32 r) s = .next { s with rdData := 0#32 })

/-- Writes to REG offsets: IN_LEN takes a value within IN when not busy (10_state.md R35); CMD takes 1
as START, 2 as CLEAR and nothing else (10_state.md R26, 45_host_commands.md R232); a write to a
read-only register, a constant, a hole or a misaligned offset is ignored (45_host_commands.md
R234, 10_state.md R61). -/
def Obligations.RegisterWrites : Prop :=
  ∀ (s : State) (r : BitVec 12) (v : Word),
    (s.busy = false → v.toNat ≤ s.cfg.inSize →
      exec (.regWr32 0x00C#12 v) s = .next { s with inLen := v }) ∧
    (s.busy = true ∨ s.cfg.inSize < v.toNat → exec (.regWr32 0x00C#12 v) s = .next s) ∧
    exec (.regWr32 0x004#12 1#32) s = exec .start s ∧
    exec (.regWr32 0x004#12 2#32) s = exec .clear s ∧
    (v ≠ 1#32 → v ≠ 2#32 → exec (.regWr32 0x004#12 v) s = .next s) ∧
    (r ≠ 0x000#12 → r ≠ 0x004#12 → r ≠ 0x00C#12 → exec (.regWr32 r v) s = .next s)

/-- While the phase is not DONE, OUT_COUNT and every OUT word read 0 (60_exceptions.md R261,
70_reset_and_hazards.md R283). -/
def Obligations.NoOutputBeforeDone : Prop :=
  ∀ (s : State) (i : BitVec 29), s.phase ≠ 0x0F#5 →
    exec (.regRd32 0x010#12) s = .next { s with rdData := 0#32 } ∧
    exec (.outRd32 i) s = .next { s with rdData := 0#32 }

/-! ### The input and output memories on the host bus -/

/-- IN reads return the bytes in little-endian lanes, in every phase, and change nothing; outside
IN, and misaligned, they return 0 (45_host_commands.md R238; 20_memory.md R82). -/
def Obligations.InReads : Prop :=
  ∀ (s : State) (a : BitVec 30) (d : Word),
    decodeAccess ⟨.read, 8, inOff a, d⟩ = .ok (.inRd8 a) ∧
    (a.toNat % 4 = 0 → decodeAccess ⟨.read, 32, inOff a, d⟩ = .ok (.inRd32 a)) ∧
    (a.toNat < s.cfg.inSize →
      ∃ t, exec (.inRd8 a) s = .next t ∧ t = { s with rdData := t.rdData } ∧
        t.rdData.toNat = (s.inByte a.toNat).toNat) ∧
    (s.cfg.inSize ≤ a.toNat → exec (.inRd8 a) s = .next { s with rdData := 0#32 }) ∧
    (a.toNat % 4 = 0 → a.toNat + 3 < s.cfg.inSize →
      ∃ t, exec (.inRd32 a) s = .next t ∧ t = { s with rdData := t.rdData } ∧
        t.rdData.toNat = (s.inByte a.toNat).toNat + (s.inByte (a.toNat + 1)).toNat * 2 ^ 8 +
          (s.inByte (a.toNat + 2)).toNat * 2 ^ 16 + (s.inByte (a.toNat + 3)).toNat * 2 ^ 24) ∧
    (a.toNat % 4 ≠ 0 ∨ s.cfg.inSize ≤ a.toNat + 3 →
      exec (.inRd32 a) s = .next { s with rdData := 0#32 })

/-- IN writes when not busy store the byte, or the four lanes, and change no other byte and nothing
else; while busy, outside IN, and misaligned, they do nothing (45_host_commands.md R239;
20_memory.md R82). -/
def Obligations.InWritesStore : Prop :=
  ∀ (s : State) (a : BitVec 30) (v : Word),
    decodeAccess ⟨.write, 8, inOff a, v⟩ = .ok (.inWr8 a (v.extractLsb' 0 8)) ∧
    (a.toNat % 4 = 0 → decodeAccess ⟨.write, 32, inOff a, v⟩ = .ok (.inWr32 a v)) ∧
    (s.busy = false → a.toNat < s.cfg.inSize → ∀ b : Byte,
      ∃ t, exec (.inWr8 a b) s = .next t ∧ t = { s with inMem := t.inMem } ∧
        t.inByte a.toNat = b ∧ ∀ c, c ≠ a.toNat → t.inByte c = s.inByte c) ∧
    (s.busy = true ∨ s.cfg.inSize ≤ a.toNat → ∀ b : Byte, exec (.inWr8 a b) s = .next s) ∧
    (s.busy = false → a.toNat % 4 = 0 → a.toNat + 3 < s.cfg.inSize →
      ∃ t, exec (.inWr32 a v) s = .next t ∧ t = { s with inMem := t.inMem } ∧
        (t.inByte a.toNat).toNat = v.toNat % 2 ^ 8 ∧
        (t.inByte (a.toNat + 1)).toNat = v.toNat / 2 ^ 8 % 2 ^ 8 ∧
        (t.inByte (a.toNat + 2)).toNat = v.toNat / 2 ^ 16 % 2 ^ 8 ∧
        (t.inByte (a.toNat + 3)).toNat = v.toNat / 2 ^ 24 ∧
        ∀ c, (c < a.toNat ∨ a.toNat + 3 < c) → t.inByte c = s.inByte c) ∧
    (s.busy = true ∨ a.toNat % 4 ≠ 0 ∨ s.cfg.inSize ≤ a.toNat + 3 →
      exec (.inWr32 a v) s = .next s)

/-- A byte written alone is read back in its lane of a 32-bit read, and a word written whole is read
back byte by byte (20_memory.md R98). -/
def Obligations.MixedWidthsSeeTheSameBytes : Prop :=
  ∀ (s t : State) (a : BitVec 30) (j : Nat) (b : Byte) (v : Word), s.busy = false →
    a.toNat % 4 = 0 → a.toNat + 3 < s.cfg.inSize → j < 4 →
    (exec (.inWr8 (a + BitVec.ofNat 30 j) b) s = .next t →
      ∃ u, exec (.inRd32 a) t = .next u ∧ u.rdData.toNat / 2 ^ (8 * j) % 2 ^ 8 = b.toNat) ∧
    (exec (.inWr32 a v) s = .next t →
      ∃ u, exec (.inRd8 (a + BitVec.ofNat 30 j)) t = .next u ∧
        u.rdData.toNat = v.toNat / 2 ^ (8 * j) % 2 ^ 8)

/-- OUT_RD32 returns word `i` when DONE and `i < OCNT`, 0 otherwise and outside OUT, and changes
nothing (45_host_commands.md R240). -/
def Obligations.OutReadIsGated : Prop :=
  ∀ (s : State) (i : BitVec 29) (d : Word),
    decodeAccess ⟨.read, 32, outOff i, d⟩ = .ok (.outRd32 i) ∧
    (i.toNat < s.cfg.outSize → s.phase = 0x0F#5 → i.toNat < s.ocnt →
      exec (.outRd32 i) s = .next { s with rdData := s.outWord i.toNat }) ∧
    (s.cfg.outSize ≤ i.toNat ∨ s.phase ≠ 0x0F#5 ∨ s.ocnt ≤ i.toNat →
      exec (.outRd32 i) s = .next { s with rdData := 0#32 })

/-- While busy, no host access but CLEAR changes anything a decode reads: only CTRL.IE and the
value returned can change (20_memory.md R95; 70_reset_and_hazards.md R284, R285). -/
def Obligations.HostCannotDisturbADecode : Prop :=
  ∀ (s t : State) (a : BusAccess) (ts : List Turn), s.busy = true →
    decodeAccess a ≠ .ok .clear → s.turns = .host a :: ts → step s = .next t →
    t = { s with ie := t.ie, rdData := t.rdData, turns := ts }

/-! ### Commands and errors -/

/-- START when not busy re-creates all working state and enters HDR_DECLEN; CTRL, IN_LEN, IN and OUT
keep their values; while busy it changes nothing. On the bus it is the 32-bit write of 1 to CMD
(45_host_commands.md R230, 10_state.md R26). -/
def Obligations.StartBeginsADecode : Prop :=
  decodeCmd 0x00000001#32 = .ok .start ∧
  decodeAccess ⟨.write, 32, regOff 0x004#12, 0x00000001#32⟩ = .ok .start ∧ ∀ s : State,
    (s.busy = false → ∃ t, exec .start s = .next t ∧
      t = { State.resetWith s.cfg s.inst s.draws with
        be := s.be, bitord := s.bitord, ie := s.ie, inLen := s.inLen, inMem := s.inMem,
        outMem := s.outMem, rst := s.rst, rdData := s.rdData, turns := s.turns, phase := 0x01#5 } ∧
      t.busy = true ∧ t.irq = false) ∧
    (s.busy = true → exec .start s = .next s)

/-- CLEAR in every phase aborts to IDLE; CTRL, IN_LEN, IN and OUT keep their values. On the bus it is
the 32-bit write of 2 to CMD (45_host_commands.md R231, 10_state.md R26). -/
def Obligations.ClearAbortsToIdle : Prop :=
  decodeCmd 0x00000002#32 = .ok .clear ∧
  decodeAccess ⟨.write, 32, regOff 0x004#12, 0x00000002#32⟩ = .ok .clear ∧ ∀ s : State, ∃ t, exec .clear s = .next t ∧
    t = { State.resetWith s.cfg s.inst s.draws with
      be := s.be, bitord := s.bitord, ie := s.ie, inLen := s.inLen, inMem := s.inMem,
      outMem := s.outMem, rst := s.rst, rdData := s.rdData, turns := s.turns } ∧
    t.busy = false ∧ t.irq = false

/-- The engine step after an accepted START is HDR_DECLEN. A CLEAR leads to IDLE; there the engine
has no step, and every move but a START stays there: so none follows until the next START
(45_host_commands.md R233). That an engine turn in IDLE is a move at all, one that leaves the state
as it is, is the model's (DEDUCED log 10). -/
def Obligations.StepAfterACommand : Prop :=
  ∀ (s t : State) (ts : List Turn),
    (s.rst = false → s.busy = false → exec .start s = .next t →
      (t.turns = [] → step t = exec .hdrDeclen t) ∧
      (t.turns = .engine :: ts → step t = exec .hdrDeclen { t with turns := ts })) ∧
    (exec .clear s = .next t → t.phase = 0x00#5 ∧ t.errCode = 0#3) ∧
    (s.phase = 0x00#5 → s.errCode ≠ 7#3 →
      (s.turns = [] → step s = .next s) ∧
      (s.turns = .engine :: ts → step s = .next { s with turns := ts })) ∧
    (s.phase = 0x00#5 → step s = .next t →
      (∀ a us, s.turns = .host a :: us → decodeAccess a ≠ .ok .start) →
      t.phase = 0x00#5 ∧ t.errCode ≠ 7#3)

/-- Raising an error records its code and the phase of the raising step, enters ERROR and writes
nothing else; BUSY falls, ERR rises, IRQ follows IE (60_exceptions.md R250, R251). -/
def Obligations.ErrorEntry : Prop :=
  ∀ (s : State) (p : BitVec 5),
    s.raise .malformedHeader p = { s with errCode := 1#3, errPhase := p, phase := 0x10#5 } ∧
    s.raise .emptyAlphabet p = { s with errCode := 2#3, errPhase := p, phase := 0x10#5 } ∧
    s.raise .outOfData p = { s with errCode := 3#3, errPhase := p, phase := 0x10#5 } ∧
    s.raise .truncatedStream p = { s with errCode := 4#3, errPhase := p, phase := 0x10#5 } ∧
    s.raise .alphabetTooLarge p = { s with errCode := 5#3, errPhase := p, phase := 0x10#5 } ∧
    s.raise .outputOverflow p = { s with errCode := 6#3, errPhase := p, phase := 0x10#5 } ∧
    ∀ e, (s.raise e p).busy = false ∧ (s.raise e p).isErr = true ∧ (s.raise e p).irq = s.ie

/-- In IDLE, DONE and ERROR the engine has no step: its turn leaves the state as it is
(40_step.md R142). -/
def Obligations.QuiescentPhasesKeepTheState : Prop :=
  decodePhase 0x00#5 = .ok .idle ∧
  decodePhase 0x0F#5 = .ok .done ∧
  decodePhase 0x10#5 = .ok .error ∧
  ∀ s : State, exec .idle s = .next s ∧ exec .done s = .next s ∧ exec .error s = .next s

/-! ### The cursor and the bit reader -/

/-- Byte order of a wire field (20_memory.md R86). -/
def Obligations.WireByteOrder : Prop :=
  ∀ b0 b1 b2 b3 : Byte,
    (u32 false b0 b1 b2 b3).toNat =
      b0.toNat + b1.toNat * 2 ^ 8 + b2.toNat * 2 ^ 16 + b3.toNat * 2 ^ 24 ∧
    (u32 true b0 b1 b2 b3).toNat =
      b3.toNat + b2.toNat * 2 ^ 8 + b1.toNat * 2 ^ 16 + b0.toNat * 2 ^ 24

/-- Bit order of the payload (20_memory.md R87). -/
def Obligations.PayloadBitOrder : Prop :=
  ∀ (s : State) (k : Nat), k < 8 * s.pBytes.toNat →
    (s.bitord = false →
      s.payloadBit k = (s.inByte (s.payBase.toNat + k / 8)).getLsbD (7 - k % 8)) ∧
    (s.bitord = true → s.payloadBit k = (s.inByte (s.payBase.toNat + k / 8)).getLsbD (k % 8))

/-- ReadU32, ReadBytes and BitRead succeed exactly when the buffer has the bytes, advance POS by what
they took, change nothing on failure, and BitRead moves nothing (41_cursor.md R152, R153, R154).
R153 says that `n = 0` always succeeds. It takes POS at most IN_LEN for granted, as R151 does. In a
state with POS above IN_LEN, which no decode reaches, that ReadBytes(0) fails is the model's choice
(DEDUCED log 14). -/
def Obligations.CursorPrimitives : Prop :=
  ∀ (s : State) (n k : Nat),
    (s.pos.toNat + 4 ≤ s.inLen.toNat → ∃ t,
      readU32 s = .ok (u32 s.be (s.inByte s.pos.toNat) (s.inByte (s.pos.toNat + 1))
        (s.inByte (s.pos.toNat + 2)) (s.inByte (s.pos.toNat + 3))) t ∧
      t = { s with pos := t.pos } ∧ t.pos.toNat = s.pos.toNat + 4) ∧
    (s.inLen.toNat < s.pos.toNat + 4 → readU32 s = .raised .outOfData s) ∧
    (s.pos.toNat + n ≤ s.inLen.toNat → ∃ t,
      readBytes n s = .ok s.pos t ∧ t = { s with pos := t.pos } ∧
      t.pos.toNat = s.pos.toNat + n) ∧
    (s.inLen.toNat < s.pos.toNat + n → readBytes n s = .raised .outOfData s) ∧
    (k < s.pBits.toNat → s.pBits.toNat ≤ 8 * s.pBytes.toNat →
      s.payBase.toNat + s.pBytes.toNat ≤ s.inLen.toNat → bitRead k s = .ok (s.payloadBit k) s) ∧
    (s.pBits.toNat ≤ k ∨ 8 * s.pBytes.toNat < s.pBits.toNat ∨
        s.inLen.toNat < s.payBase.toNat + s.pBytes.toNat →
      bitRead k s = .refused .bitReadOutOfRange)

/-! ### The header parser -/

/-- HDR_DECLEN captures `declaredLength`, whatever it is, or raises OutOfData (42_header.md
R161). -/
def Obligations.HdrDeclenReads : Prop :=
  decodePhase 0x01#5 = .ok .hdrDeclen ∧
  ∀ s : State,
    (s.pos.toNat + 4 ≤ s.inLen.toNat → ∃ t, exec .hdrDeclen s = .next t ∧
      t = { s with pos := t.pos, decLen := s.wireU32 s.pos.toNat, phase := 0x02#5 } ∧
      t.pos.toNat = s.pos.toNat + 4) ∧
    (s.inLen.toNat < s.pos.toNat + 4 → exec .hdrDeclen s =
      .next { s with errCode := 3#3, errPhase := 0x01#5, phase := 0x10#5 })

/-- HDR_RESERVED goes on when the field is 0, and otherwise raises MalformedHeader with POS past
the field (42_header.md R162). -/
def Obligations.HdrReservedChecks : Prop :=
  decodePhase 0x02#5 = .ok .hdrReserved ∧
  ∀ s : State,
    (s.pos.toNat + 4 ≤ s.inLen.toNat → s.wireU32 s.pos.toNat = 0#32 →
      ∃ t, exec .hdrReserved s = .next t ∧ t = { s with pos := t.pos, phase := 0x03#5 } ∧
        t.pos.toNat = s.pos.toNat + 4) ∧
    (s.pos.toNat + 4 ≤ s.inLen.toNat → s.wireU32 s.pos.toNat ≠ 0#32 →
      ∃ t, exec .hdrReserved s = .next t ∧
        t = { s with pos := t.pos, errCode := 1#3, errPhase := 0x02#5, phase := 0x10#5 } ∧
        t.pos.toNat = s.pos.toNat + 4) ∧
    (s.inLen.toNat < s.pos.toNat + 4 → exec .hdrReserved s =
      .next { s with errCode := 3#3, errPhase := 0x02#5, phase := 0x10#5 })

/-- HDR_COUNT captures `symbolCount` and sets PAIRS_LEFT, or raises EmptyAlphabet on 0
(42_header.md R163). -/
def Obligations.HdrCountReads : Prop :=
  decodePhase 0x03#5 = .ok .hdrCount ∧
  ∀ s : State,
    (s.pos.toNat + 4 ≤ s.inLen.toNat → s.wireU32 s.pos.toNat ≠ 0#32 →
      ∃ t, exec .hdrCount s = .next t ∧
        t = { s with pos := t.pos, symCnt := s.wireU32 s.pos.toNat,
                     pairsLeft := s.wireU32 s.pos.toNat, phase := 0x04#5 } ∧
        t.pos.toNat = s.pos.toNat + 4) ∧
    (s.pos.toNat + 4 ≤ s.inLen.toNat → s.wireU32 s.pos.toNat = 0#32 →
      ∃ t, exec .hdrCount s = .next t ∧
        t = { s with pos := t.pos, symCnt := 0#32, errCode := 2#3, errPhase := 0x03#5,
                     phase := 0x10#5 } ∧
        t.pos.toNat = s.pos.toNat + 4) ∧
    (s.inLen.toNat < s.pos.toNat + 4 → exec .hdrCount s =
      .next { s with errCode := 3#3, errPhase := 0x03#5, phase := 0x10#5 })

/-- HDR_PAIR reads count then symbol, enters the pair with the last count winning, counts a new
symbol in ALPHA, decrements PAIRS_LEFT, and moves on after the last pair. Its errors: OutOfData at
the count, OutOfData at the symbol with the count already read, AlphabetTooLarge with both read and
FMAP and ALPHA unchanged (42_header.md R160, R164). -/
def Obligations.HdrPairEntersThePair : Prop :=
  decodePhase 0x04#5 = .ok .hdrPair ∧
  ∀ (s : State) (c y : Word), c = s.wireU32 s.pos.toNat → y = s.wireU32 (s.pos.toNat + 4) →
    (s.pos.toNat + 8 ≤ s.inLen.toNat → s.pairsLeft ≠ 0#32 →
      (s.count? y).isSome = true ∨ s.alpha.toNat ≠ s.cfg.maxAlphabet →
      ∃ t, exec .hdrPair s = .next t ∧
        t = { s with pos := t.pos, fmap := t.fmap, alpha := t.alpha, pairsLeft := t.pairsLeft,
                     phase := t.phase } ∧
        t.pos.toNat = s.pos.toNat + 8 ∧
        (∀ z, t.count? z = if z = y then some c else s.count? z) ∧
        ((s.count? y).isSome = true → t.alpha = s.alpha) ∧
        (s.count? y = none → s.alpha.toNat + 1 < 2 ^ 32 →
          t.alpha.toNat = s.alpha.toNat + 1) ∧
        t.pairsLeft.toNat + 1 = s.pairsLeft.toNat ∧
        t.phase = (if t.pairsLeft = 0#32 then 0x05#5 else s.phase)) ∧
    (s.inLen.toNat < s.pos.toNat + 4 → exec .hdrPair s =
      .next { s with errCode := 3#3, errPhase := 0x04#5, phase := 0x10#5 }) ∧
    (s.pos.toNat + 4 ≤ s.inLen.toNat → s.inLen.toNat < s.pos.toNat + 8 →
      ∃ t, exec .hdrPair s = .next t ∧
        t = { s with pos := t.pos, errCode := 3#3, errPhase := 0x04#5, phase := 0x10#5 } ∧
        t.pos.toNat = s.pos.toNat + 4) ∧
    (s.pos.toNat + 8 ≤ s.inLen.toNat → s.count? y = none → s.alpha.toNat = s.cfg.maxAlphabet →
      ∃ t, exec .hdrPair s = .next t ∧
        t = { s with pos := t.pos, errCode := 5#3, errPhase := 0x04#5, phase := 0x10#5 } ∧
        t.pos.toNat = s.pos.toNat + 8)

/-! ### The heap, the tree and the code table -/

/-- HeapPopMin returns the index with the least key `(freq, index)` and removes it alone; HeapPeek
returns it and removes nothing; both are refused on an empty heap (43_code_table.md R171, R173,
R174). -/
def Obligations.HeapGivesTheLeastKey : Prop :=
  ∀ s : State,
    (s.heap ≠ [] → (∀ i ∈ s.heap, (arenaGet s.arena i).isSome = true) →
      ∃ m t, heapPopMin s = .ok m t ∧ heapPeek s = .ok m s ∧ m ∈ s.heap ∧
        (∀ i ∈ s.heap, i ≠ m → keyBelow s.arena m i) ∧
        t = { s with heap := t.heap } ∧ ∀ i, i ∈ t.heap ↔ i ∈ s.heap ∧ i ≠ m) ∧
    (s.heap = [] → heapPopMin s = .refused .heapEmpty ∧ heapPeek s = .refused .heapEmpty)

/-- TREE_SEED makes one leaf per symbol, by ascending symbol, pushes them all, and goes to
CODE_BUILD with the root for one symbol, to TREE_MERGE for more (43_code_table.md R177). -/
def Obligations.TreeSeedMakesTheLeaves : Prop :=
  decodePhase 0x05#5 = .ok .treeSeed ∧
  ∀ s : State, Sorted.wf FreqEntry.key s.fmap = true → s.alpha.toNat = s.fmap.length →
    1 ≤ s.fmap.length → s.fmap.length ≤ s.cfg.maxAlphabet → s.arena = [] → s.heap = [] →
    ∃ t, exec .treeSeed s = .next t ∧
      t = { s with arena := t.arena, nextIdx := s.fmap.length, heap := t.heap, root := t.root,
                   phase := t.phase } ∧
      (∀ i, arenaGet t.arena i =
        (s.fmap[i]?).map fun e => Node.leaf e.symbol (e.count.setWidth 40)) ∧
      t.heap = List.range s.fmap.length ∧
      (s.fmap.length = 1 → t.root = some 0 ∧ t.phase = 0x07#5) ∧
      (2 ≤ s.fmap.length → t.root = s.root ∧ t.phase = 0x06#5)

/-- TREE_MERGE pops the two least keys, makes their parent at NEXTIDX with the exact sum and the
first popped on the left, pushes it, and goes to CODE_BUILD with the root when one is left
(43_code_table.md R178). -/
def Obligations.TreeMergeMergesTheTwoLeast : Prop :=
  decodePhase 0x06#5 = .ok .treeMerge ∧
  ∀ s : State, Sorted.wf id s.heap = true → 2 ≤ s.heap.length →
    s.heap.length ≤ s.cfg.maxAlphabet →
    (∀ i ∈ s.heap, (arenaGet s.arena i).isSome = true) → s.nextIdx ∉ s.heap →
    (∀ i ∈ s.heap, ∀ j ∈ s.heap, i ≠ j → freqAt s.arena i + freqAt s.arena j < 2 ^ 40) →
    s.nextIdx < 2 * s.cfg.maxAlphabet - 1 →
    ∃ a b t, exec .treeMerge s = .next t ∧ a ∈ s.heap ∧ b ∈ s.heap ∧ a ≠ b ∧
      (∀ i ∈ s.heap, i ≠ a → keyBelow s.arena a i) ∧
      (∀ i ∈ s.heap, i ≠ a → i ≠ b → keyBelow s.arena b i) ∧
      t = { s with arena := t.arena, nextIdx := s.nextIdx + 1, heap := t.heap, root := t.root,
                   phase := t.phase } ∧
      arenaGet t.arena s.nextIdx =
        some (.internal (BitVec.ofNat 40 (freqAt s.arena a + freqAt s.arena b)) a b) ∧
      freqAt t.arena s.nextIdx = freqAt s.arena a + freqAt s.arena b ∧
      (∀ i, i ≠ s.nextIdx → arenaGet t.arena i = arenaGet s.arena i) ∧
      (∀ i, i ∈ t.heap ↔ i = s.nextIdx ∨ (i ∈ s.heap ∧ i ≠ a ∧ i ≠ b)) ∧
      t.heap.length + 1 = s.heap.length ∧
      (s.heap.length = 2 → t.root = some s.nextIdx ∧ t.phase = 0x07#5) ∧
      (2 < s.heap.length → t.root = s.root ∧ t.phase = s.phase)

/-- CODE_BUILD writes exactly the root-to-leaf paths with their symbols, in any tree whose children
stand below their parents, and moves to TRL_PBITS (43_code_table.md R179, R188). -/
def Obligations.CodeBuildRecordsTheLeafPaths : Prop :=
  decodePhase 0x07#5 = .ok .codeBuild ∧
  ∀ (s : State) (r : Nat), Sorted.wf Prod.fst s.arena = true → childrenBelow s.arena →
    s.root = some r → (arenaGet s.arena r).isSome = true →
    ∃ t, exec .codeBuild s = .next t ∧ t = { s with ct := t.ct, phase := 0x08#5 } ∧
      ∀ c y, ⟨c, y⟩ ∈ t.ct ↔ leafAt s.arena r c = some y

/-- A tree of one leaf gives the one entry with the empty code (43_code_table.md R184). -/
def Obligations.SingleSymbolTable : Prop :=
  ∀ (s : State) (r : Nat) (y : Word) (f : BitVec 40), Sorted.wf Prod.fst s.arena = true →
    s.root = some r → arenaGet s.arena r = some (.leaf y f) →
    exec .codeBuild s = .next { s with ct := [⟨[], y⟩], phase := 0x08#5 }

/-- Every code table the walk gives, from any arena and root, is prefix-free: of two entries at
different places, neither code is a prefix of the other (43_code_table.md R183). -/
def Obligations.CodesArePrefixFree : Prop :=
  ∀ (root : Option Nat) (arena : List (Nat × Node)) (ct : List CodeEntry),
    codesOf root arena = some ct →
    ct.Pairwise fun e e' => ¬ e.code <+: e'.code ∧ ¬ e'.code <+: e.code

/-- Every code table the walk gives is complete: of any bit-string either exactly one code is a
prefix, or it is itself a proper prefix of two codes (43_code_table.md R185). -/
def Obligations.CodesAreComplete : Prop :=
  ∀ (root : Option Nat) (arena : List (Nat × Node)) (ct : List CodeEntry),
    codesOf root arena = some ct → ∀ b : List Bool,
      (∃ e ∈ ct, e.code <+: b ∧ ∀ e' ∈ ct, e'.code <+: b → e' = e) ∨
      (∃ e ∈ ct, ∃ e' ∈ ct, e.code ≠ e'.code ∧ b <+: e.code ∧ b <+: e'.code ∧ b ≠ e.code ∧
        b ≠ e'.code)

/-- A bit-string is determined by its stored form `(|s|, val(s))`, appending a bit is
`(len + 1, 2*code + b)`, and the first bit is bit `len - 1` (30_encoding.md R116). -/
def Obligations.StoredCodeIsFaithful : Prop :=
  (∀ c d : List Bool, storedCode c = storedCode d ↔ c = d) ∧
  ∀ (c : List Bool) (b : Bool),
    storedCode (c ++ [b]) = ((storedCode c).1 + 1, 2 * (storedCode c).2 + b.toNat) ∧
    (storedCode (b :: c)).2 / 2 ^ ((storedCode (b :: c)).1 - 1) = b.toNat

/-! ### The trailer and the payload -/

/-- TRL_PBITS, TRL_PBYTES and TRL_UNPACKED each capture their field, whatever it is, or raise
OutOfData (44_bitstream_decode.md R202, R203, R204). -/
def Obligations.TrailerReads : Prop :=
  decodePhase 0x08#5 = .ok .trlPbits ∧
  decodePhase 0x09#5 = .ok .trlPbytes ∧
  decodePhase 0x0A#5 = .ok .trlUnpacked ∧
  ∀ s : State,
    (s.pos.toNat + 4 ≤ s.inLen.toNat →
      (∃ t, exec .trlPbits s = .next t ∧
        t = { s with pos := t.pos, pBits := s.wireU32 s.pos.toNat, phase := 0x09#5 } ∧
        t.pos.toNat = s.pos.toNat + 4) ∧
      (∃ t, exec .trlPbytes s = .next t ∧
        t = { s with pos := t.pos, pBytes := s.wireU32 s.pos.toNat, phase := 0x0A#5 } ∧
        t.pos.toNat = s.pos.toNat + 4) ∧
      (∃ t, exec .trlUnpacked s = .next t ∧
        t = { s with pos := t.pos, unpacked := s.wireU32 s.pos.toNat, phase := 0x0B#5 } ∧
        t.pos.toNat = s.pos.toNat + 4)) ∧
    (s.inLen.toNat < s.pos.toNat + 4 →
      exec .trlPbits s = .next { s with errCode := 3#3, errPhase := 0x08#5, phase := 0x10#5 } ∧
      exec .trlPbytes s = .next { s with errCode := 3#3, errPhase := 0x09#5, phase := 0x10#5 } ∧
      exec .trlUnpacked s = .next { s with errCode := 3#3, errPhase := 0x0A#5, phase := 0x10#5 })

/-- PAYLOAD binds the payload, or raises OutOfData with POS and PAYBASE unchanged; it chooses the
mode by ALPHA, and in multi-symbol mode raises OutOfData past the payload when PBITS > 8*PBYTES
(44_bitstream_decode.md R205). In a state with POS above IN_LEN, which no decode reaches, that it
raises OutOfData for PBYTES = 0 is the model's choice: R153 says that ReadBytes(0) always succeeds
(DEDUCED log 14). -/
def Obligations.PayloadChoosesTheMode : Prop :=
  decodePhase 0x0B#5 = .ok .payload ∧
  ∀ s : State,
    (s.inLen.toNat < s.pos.toNat + s.pBytes.toNat → exec .payload s =
      .next { s with errCode := 3#3, errPhase := 0x0B#5, phase := 0x10#5 }) ∧
    (s.pos.toNat + s.pBytes.toNat ≤ s.inLen.toNat → ∃ t, exec .payload s = .next t ∧
      t.pos.toNat = s.pos.toNat + s.pBytes.toNat ∧
      (s.alpha = 1#32 →
        t = { s with pos := t.pos, payBase := s.pos,
                     phase := (if s.unpacked = 0#32 then 0x0F#5 else 0x0C#5) }) ∧
      (s.alpha ≠ 1#32 → 8 * s.pBytes.toNat < s.pBits.toNat →
        t = { s with pos := t.pos, payBase := s.pos, errCode := 3#3, errPhase := 0x0B#5,
                     phase := 0x10#5 }) ∧
      (s.alpha ≠ 1#32 → s.pBits.toNat ≤ 8 * s.pBytes.toNat →
        t = { s with pos := t.pos, payBase := s.pos,
                     phase := (if s.pBits = 0#32 then 0x0E#5 else 0x0D#5) }))

/-! ### Decoding -/

/-- CtLookup answers the symbol of the entry with exactly that code, and none when no entry has it
(44_bitstream_decode.md R200). -/
def Obligations.CtLookupMatchesExactly : Prop :=
  ∀ (s : State) (c : List Bool) (y : Word),
    ((∀ e ∈ s.ct, e.code ≠ c) → ctLookup c s = .ok none s) ∧
    (⟨c, y⟩ ∈ s.ct → (∀ e ∈ s.ct, e.code = c → e.symbol = y) → ctLookup c s = .ok (some y) s) ∧
    (∀ z, ⟨c, y⟩ ∈ s.ct → ⟨c, z⟩ ∈ s.ct → y ≠ z → ctLookup c s = .refused .ambiguousMatch)

/-- DEC_SINGLE emits one copy of the sole symbol at OUT[OCNT], goes to DONE at the last, and raises
OutputOverflow, emitting nothing, when OUT is full (44_bitstream_decode.md R201, R206). -/
def Obligations.DecSingleEmitsACopy : Prop :=
  decodePhase 0x0C#5 = .ok .decSingle ∧
  ∀ (s : State) (y : Word), s.ct = [⟨[], y⟩] →
    (s.ocnt ≠ s.cfg.outSize → ∃ t, exec .decSingle s = .next t ∧
      t = { s with outMem := t.outMem, ocnt := s.ocnt + 1,
                   phase := (if s.ocnt + 1 = s.unpacked.toNat then 0x0F#5 else s.phase) } ∧
      t.outWord s.ocnt = y ∧ ∀ i, i ≠ s.ocnt → t.outWord i = s.outWord i) ∧
    (s.ocnt = s.cfg.outSize → exec .decSingle s =
      .next { s with errCode := 6#3, errPhase := 0x0C#5, phase := 0x10#5 })

/-- DEC_BIT consumes a bit. On a candidate that is no code it grows the candidate. On one that is a
code it emits the symbol and empties the candidate, or with OUT full raises OutputOverflow with the
bit consumed and the code still in the candidate (44_bitstream_decode.md R201, R207). -/
def Obligations.DecBitConsumesABit : Prop :=
  decodePhase 0x0D#5 = .ok .decBit ∧
  ∀ (s : State) (c : List Bool) (y : Word), s.bitReadable s.bitPos.toNat →
    s.cand.length < s.cfg.lMax → c = s.cand ++ [s.payloadBit s.bitPos.toNat] →
    ((∀ e ∈ s.ct, e.code ≠ c) → exec .decBit s = .next
      { s with bitPos := s.bitPos + 1#32, cand := c,
               phase := (if s.bitPos + 1#32 = s.pBits then 0x0E#5 else s.phase) }) ∧
    (⟨c, y⟩ ∈ s.ct → (∀ e ∈ s.ct, e.code = c → e.symbol = y) → s.ocnt ≠ s.cfg.outSize →
      ∃ t, exec .decBit s = .next t ∧
        t = { s with bitPos := s.bitPos + 1#32, cand := [], outMem := t.outMem,
                     ocnt := s.ocnt + 1,
                     phase := (if s.bitPos + 1#32 = s.pBits then 0x0E#5 else s.phase) } ∧
        t.outWord s.ocnt = y ∧ ∀ i, i ≠ s.ocnt → t.outWord i = s.outWord i) ∧
    (⟨c, y⟩ ∈ s.ct → (∀ e ∈ s.ct, e.code = c → e.symbol = y) → s.ocnt = s.cfg.outSize →
      exec .decBit s = .next
        { s with bitPos := s.bitPos + 1#32, cand := c, errCode := 6#3, errPhase := 0x0D#5,
                 phase := 0x10#5 })

/-- DEC_END goes to DONE on an empty candidate and raises TruncatedStream otherwise
(44_bitstream_decode.md R208). -/
def Obligations.DecEndChecksTheCandidate : Prop :=
  decodePhase 0x0E#5 = .ok .decEnd ∧
  ∀ s : State,
    (s.cand = [] → exec .decEnd s = .next { s with phase := 0x0F#5 }) ∧
    (s.cand ≠ [] → exec .decEnd s =
      .next { s with errCode := 4#3, errPhase := 0x0E#5, phase := 0x10#5 })

/-! ### The whole machine -/

/-- No engine operation writes IN, IN_LEN, CTRL, the parameters, the RST line, the last read or the
moves to come, and an OUT word below OCNT is never written again (20_memory.md R92, R95). -/
def Obligations.EngineLeavesItsInputs : Prop :=
  ∀ (p : BitVec 5) (i : Instr) (s t : State), decodePhase p = .ok i → exec i s = .next t →
    (t.cfg = s.cfg ∧ t.be = s.be ∧ t.bitord = s.bitord ∧ t.ie = s.ie ∧ t.inLen = s.inLen ∧
      t.inMem = s.inMem ∧ t.inst = s.inst ∧ t.draws = s.draws ∧ t.rst = s.rst ∧ t.rdData = s.rdData ∧
      t.turns = s.turns) ∧
    (∀ a, t.inByte a = s.inByte a) ∧ s.ocnt ≤ t.ocnt ∧
    ∀ j, j ≠ s.ocnt → t.outWord j = s.outWord j

/-- During a decode POS and BITPOS never decrease (41_cursor.md R155). -/
def Obligations.CursorsNeverGoBack : Prop :=
  ∀ (p : BitVec 5) (i : Instr) (s t : State), decodePhase p = .ok i → exec i s = .next t →
    s.pos.toNat ≤ t.pos.toNat ∧ s.bitPos.toNat ≤ t.bitPos.toNat

/-- The arrows of the phase graph: where each operation can go, and on which condition of the state
it leaves (40_step.md R146). -/
def Obligations.PhaseGraph : Prop :=
  ∀ s t : State,
    (s.busy = false → exec .start s = .next t → t.phase = 0x01#5) ∧
    (exec .clear s = .next t → t.phase = 0x00#5) ∧ (s.setRst true).phase = 0x00#5 ∧
    (exec .hdrDeclen s = .next t → t.phase = 0x02#5 ∨ (t.phase = 0x10#5 ∧ t.errCode = 3#3)) ∧
    (exec .hdrReserved s = .next t →
      t.phase = 0x03#5 ∨ (t.phase = 0x10#5 ∧ (t.errCode = 3#3 ∨ t.errCode = 1#3))) ∧
    (exec .hdrCount s = .next t →
      t.phase = 0x04#5 ∨ (t.phase = 0x10#5 ∧ (t.errCode = 3#3 ∨ t.errCode = 2#3))) ∧
    (s.phase = 0x04#5 → exec .hdrPair s = .next t →
      (t.phase = 0x04#5 ∧ 0 < t.pairsLeft.toNat) ∨ (t.phase = 0x05#5 ∧ t.pairsLeft = 0#32) ∨
      (t.phase = 0x10#5 ∧ (t.errCode = 3#3 ∨ t.errCode = 5#3))) ∧
    (s.heap = [] → 1 ≤ s.alpha.toNat → exec .treeSeed s = .next t →
      (t.phase = 0x07#5 ∧ t.alpha = 1#32) ∨ (t.phase = 0x06#5 ∧ 2 ≤ t.alpha.toNat)) ∧
    (s.phase = 0x06#5 → exec .treeMerge s = .next t →
      (t.phase = 0x06#5 ∧ 1 < t.heap.length) ∨ (t.phase = 0x07#5 ∧ t.heap.length = 1)) ∧
    (exec .codeBuild s = .next t → t.phase = 0x08#5) ∧
    (exec .trlPbits s = .next t → t.phase = 0x09#5 ∨ (t.phase = 0x10#5 ∧ t.errCode = 3#3)) ∧
    (exec .trlPbytes s = .next t → t.phase = 0x0A#5 ∨ (t.phase = 0x10#5 ∧ t.errCode = 3#3)) ∧
    (exec .trlUnpacked s = .next t → t.phase = 0x0B#5 ∨ (t.phase = 0x10#5 ∧ t.errCode = 3#3)) ∧
    (1 ≤ s.alpha.toNat → exec .payload s = .next t →
      (t.phase = 0x0F#5 ∧ t.alpha = 1#32 ∧ t.unpacked = 0#32) ∨
      (t.phase = 0x0C#5 ∧ t.alpha = 1#32 ∧ 0 < t.unpacked.toNat) ∨
      (t.phase = 0x0E#5 ∧ 2 ≤ t.alpha.toNat ∧ t.pBits = 0#32) ∨
      (t.phase = 0x0D#5 ∧ 2 ≤ t.alpha.toNat ∧ 0 < t.pBits.toNat) ∨
      (t.phase = 0x10#5 ∧ t.errCode = 3#3)) ∧
    (s.phase = 0x0C#5 → s.ocnt < s.unpacked.toNat → exec .decSingle s = .next t →
      (t.phase = 0x0C#5 ∧ t.ocnt < t.unpacked.toNat) ∨
      (t.phase = 0x0F#5 ∧ t.ocnt = t.unpacked.toNat) ∨ (t.phase = 0x10#5 ∧ t.errCode = 6#3)) ∧
    (s.phase = 0x0D#5 → exec .decBit s = .next t →
      (t.phase = 0x0D#5 ∧ t.bitPos.toNat < t.pBits.toNat) ∨
      (t.phase = 0x0E#5 ∧ t.bitPos = t.pBits) ∨ (t.phase = 0x10#5 ∧ t.errCode = 6#3)) ∧
    (exec .decEnd s = .next t →
      (t.phase = 0x0F#5 ∧ t.cand = []) ∨ (t.phase = 0x10#5 ∧ t.errCode = 4#3))

/-- The reset state meets every invariant, for the parameters `Config` leaves open. -/
def Obligations.ResetMeetsTheInvariants : Prop :=
  State.reset.controlInv ∧ State.reset.memoryInv ∧ State.reset.cursorInv ∧
    State.reset.alphabetInv ∧ State.reset.progressInv

/-- Every step keeps the codes legal and the error record 0 outside ERROR (10_state.md R27, R32,
R33). -/
def Obligations.StepsKeepTheControlInvariant : Prop :=
  ∀ s t : State, s.controlInv → step s = .next t → t.controlInv

/-- Every step keeps IN and OUT canonical and within their sizes, and OCNT within OUT
(10_state.md R50, R51, R52; log 6). -/
def Obligations.StepsKeepTheMemoryInvariant : Prop :=
  ∀ s t : State, s.memoryInv → step s = .next t → t.memoryInv

/-- Every step keeps IN_LEN within IN, POS 0 in IDLE, and POS within the buffer but in DONE and
ERROR; and there too, unless the step is a host write that lowers IN_LEN below POS (41_cursor.md
R150, 10_state.md R35, R37; DEDUCED log 16 says why that write is left out). -/
def Obligations.StepsKeepTheCursorInvariant : Prop :=
  ∀ s t : State, s.cursorInv → step s = .next t →
    t.cursorInv ∧
    (s.pos.toNat ≤ s.inLen.toNat → t.pos.toNat ≤ t.inLen.toNat ∨ s.inLenDropsBelowPos)

/-- Every step keeps ALPHA the number of FMAP's symbols, within MAX_ALPHABET (10_state.md R41,
R53). -/
def Obligations.StepsKeepTheAlphabetInvariant : Prop :=
  ∀ s t : State, s.alphabetInv → step s = .next t → t.alphabetInv

/-- Every step keeps BITPOS within PBITS, and 0 until DEC_BIT, OCNT 0 until a decoding phase, a pair
to read in HDR_PAIR and a copy to emit in DEC_SINGLE (10_state.md R38; 42_header.md R163, R164;
44_bitstream_decode.md R205, R206). -/
def Obligations.StepsKeepTheProgressInvariant : Prop :=
  ∀ s t : State, s.progressInv → step s = .next t → t.progressInv

/-- Every engine step of a decode makes progress: it ends the decode, or goes to a later phase, or
stays and has less left to do. So a decode ends (70_reset_and_hazards.md R290). -/
def Obligations.EngineStepsMakeProgress : Prop :=
  ∀ (s t : State) (ts : List Turn), s.legalCodes → s.progressInv → s.busy = true → s.rst = false →
    s.turns = .engine :: ts → step s = .next t →
    t.busy = false ∨ s.phase.toNat < t.phase.toNat ∨
      (t.phase = s.phase ∧ t.workLeft < s.workLeft)

/-- No state that a host, an interleaving and the RST input can lead to is refused: the conditions
of 43_code_table.md R189 are unreachable. Nor does its operation meet a free value of log 11. -/
def Obligations.ReachableStatesAreNeverRefused : Prop :=
  ∀ (s : State), Reachable s → (∀ r, step s ≠ .refused r) ∧ s.needsNoFreeValue

/-- A decode depends on the bytes of IN below IN_LEN, IN_LEN, BE and BITORD alone, on one instance or
two with the same parameters, before and after RST: START makes two such states the same to a
decode, and every engine operation keeps them so, the emitted words included (40_step.md R145,
10_state.md R64). -/
def Obligations.DecodeDependsOnItsInputsOnly : Prop :=
  (∀ s t s' t' : State, s.busy = false → t.busy = false → s.cfg = t.cfg → s.be = t.be →
    s.bitord = t.bitord → s.inLen = t.inLen →
    (∀ a, a < s.inLen.toNat → t.inByte a = s.inByte a) →
    exec .start s = .next s' → exec .start t = .next t' → sameDecode s' t') ∧
  ∀ (p : BitVec 5) (i : Instr) (s t s' : State), decodePhase p = .ok i → sameDecode s t →
    exec i s = .next s' → ∃ t', exec i t = .next t' ∧ sameDecode s' t'

/-- Bytes of IN at or above IN_LEN play no part: changing them changes nothing else an engine
operation leaves (20_memory.md R85). -/
def Obligations.BytesBeyondInLenPlayNoPart : Prop :=
  ∀ (p : BitVec 5) (i : Instr) (s t : State) (m : List Host.Cell), decodePhase p = .ok i →
    (∀ a, a < s.inLen.toNat → ({ s with inMem := m } : State).inByte a = s.inByte a) →
    exec i s = .next t → exec i { s with inMem := m } = .next { t with inMem := m }
end

