-- ==== Sys2Proof/Laws/Sorted.lean ====
section
/-! SUPPORT. The ordered collections: reading after entering, the canonical form, and that it is canonical. -/

namespace Sys2Proof.Machine

variable {α : Type} (key : α → Nat)

theorem Sorted.find_put (x : α) (k : Nat) (l : List α) :
    Sorted.find key k (Sorted.put key x l) = if k = key x then some x else Sorted.find key k l := by
  induction l with
  | nil => simp [Sorted.put, Sorted.find, eq_comm]
  | cons e l ih => grind [Sorted.put, Sorted.find]

theorem Sorted.mem_put {x y : α} {l : List α} (h : y ∈ Sorted.put key x l) : y = x ∨ y ∈ l := by
  induction l with
  | nil => simpa [Sorted.put] using h
  | cons e l ih => grind [Sorted.put]

theorem Sorted.wf_cons {e : α} {l : List α} :
    Sorted.wf key (e :: l) = true ↔ (∀ e' ∈ l, key e < key e') ∧ Sorted.wf key l = true := by
  simp [Sorted.wf]

theorem Sorted.wf_iff_pairwise {l : List α} :
    Sorted.wf key l = true ↔ l.Pairwise (fun a b => key a < key b) := by
  induction l with
  | nil => simp [Sorted.wf]
  | cons e l ih => rw [Sorted.wf_cons, List.pairwise_cons, ih]

theorem Sorted.put_wf {x : α} {l : List α} (h : Sorted.wf key l = true) :
    Sorted.wf key (Sorted.put key x l) = true := by
  induction l with
  | nil => simp [Sorted.put, Sorted.wf]
  | cons e l ih =>
    obtain ⟨he, hl⟩ := (Sorted.wf_cons key).1 h
    unfold Sorted.put
    split
    · next hlt =>
      refine (Sorted.wf_cons key).2 ⟨?_, h⟩
      rintro e' (_ | ⟨_, he'⟩)
      · exact hlt
      · exact hlt.trans (he _ he')
    · split
      · next heq => exact (Sorted.wf_cons key).2 ⟨fun e' he' => heq ▸ he _ he', hl⟩
      · refine (Sorted.wf_cons key).2 ⟨fun e' he' => ?_, ih hl⟩
        rcases Sorted.mem_put key he' with rfl | h'
        · omega
        · exact he _ h'

theorem Sorted.find_some {k : Nat} {e : α} {l : List α} (h : Sorted.find key k l = some e) :
    e ∈ l ∧ key e = k := by
  induction l with
  | nil => simp [Sorted.find] at h
  | cons e' l ih => grind [Sorted.find]

theorem Sorted.find_of_mem {e : α} {l : List α} (hwf : Sorted.wf key l = true) (h : e ∈ l) :
    Sorted.find key (key e) l = some e := by
  induction l with
  | nil => cases h
  | cons e' l ih =>
    obtain ⟨he, hl⟩ := (Sorted.wf_cons key).1 hwf
    unfold Sorted.find
    rcases List.mem_cons.1 h with rfl | h'
    · simp
    · rw [if_neg (he _ h').ne]
      exact ih hl h'

theorem Sorted.find_none_below {k : Nat} {l : List α} (h : ∀ e ∈ l, k < key e) :
    Sorted.find key k l = none := by
  cases hf : Sorted.find key k l with
  | none => rfl
  | some e =>
    obtain ⟨hm, hk⟩ := Sorted.find_some key hf
    exact absurd (h _ hm) (by omega)

/-- The canonical form is canonical: collections that answer every key alike are equal. -/
theorem Sorted.ext {l l' : List α} (h : Sorted.wf key l = true) (h' : Sorted.wf key l' = true)
    (hf : ∀ k, Sorted.find key k l = Sorted.find key k l') : l = l' := by
  induction l generalizing l' with
  | nil =>
    cases l' with
    | nil => rfl
    | cons e' t' => simpa [Sorted.find] using hf (key e')
  | cons e t ih =>
    cases l' with
    | nil => simpa [Sorted.find] using hf (key e)
    | cons e' t' =>
      obtain ⟨he, ht⟩ := (Sorted.wf_cons key).1 h
      obtain ⟨he', ht'⟩ := (Sorted.wf_cons key).1 h'
      have h1 := hf (key e)
      have h2 := hf (key e')
      have hee : e = e' := by
        by_cases hk : key e' = key e
        · simpa [Sorted.find, hk] using h1
        · rcases Nat.lt_or_gt_of_ne hk with hlt | hgt
          · have hn : Sorted.find key (key e') t = none :=
              Sorted.find_none_below key fun x hx => hlt.trans (he x hx)
            simp [Sorted.find, Ne.symm hk, hn] at h2
          · have hn : Sorted.find key (key e) t' = none :=
              Sorted.find_none_below key fun x hx => hgt.trans (he' x hx)
            simp [Sorted.find, hk, hn] at h1
      subst hee
      congr 1
      refine ih ht ht' fun k => ?_
      by_cases hk : key e = k
      · rw [Sorted.find_none_below key fun x hx => hk ▸ he x hx,
          Sorted.find_none_below key fun x hx => hk ▸ he' x hx]
      · simpa [Sorted.find, hk] using hf k

theorem Sorted.length_put {x : α} {l : List α} (hwf : Sorted.wf key l = true) :
    (Sorted.put key x l).length =
      if (Sorted.find key (key x) l).isSome then l.length else l.length + 1 := by
  induction l with
  | nil => simp [Sorted.put, Sorted.find]
  | cons e l ih =>
    obtain ⟨he, hl⟩ := (Sorted.wf_cons key).1 hwf
    have ih := ih hl
    unfold Sorted.put Sorted.find
    split
    · next hlt =>
      rw [if_neg hlt.ne', Sorted.find_none_below key fun y hy => hlt.trans (he y hy)]
      simp
    · split
      · next heq => simp [heq]
      · next hne =>
        rw [if_neg (Ne.symm hne)]
        simp only [List.length_cons, ih]
        split <;> simp_all

/-! ### Memories -/

variable {w : Nat}

theorem Memory.read_write (power : Nat → BitVec w) (m : List (Nat × BitVec w)) (a b : Nat)
    (v : BitVec w) :
    Memory.read power (Memory.write m a v) b = if b = a then v else Memory.read power m b := by
  unfold Memory.read Memory.write
  rw [Sorted.find_put]
  by_cases h : b = a <;> simp [h]

theorem Memory.write_wf {m : List (Nat × BitVec w)} (a : Nat) (v : BitVec w)
    (h : Memory.wf m = true) : Memory.wf (Memory.write m a v) = true :=
  Sorted.put_wf _ h

theorem Memory.mem_write {m : List (Nat × BitVec w)} {a : Nat} {v : BitVec w}
    {c : Nat × BitVec w} (h : c ∈ Memory.write m a v) : c = (a, v) ∨ c ∈ m :=
  Sorted.mem_put _ h

/-- Memories in canonical form that read alike whatever the power-on values are, are equal data. -/
theorem Memory.ext {m m' : List (Nat × BitVec (w + 1))} (h : Memory.wf m = true)
    (h' : Memory.wf m' = true)
    (hr : ∀ power : Nat → BitVec (w + 1), ∀ a, Memory.read power m a = Memory.read power m' a) :
    m = m' := by
  refine Sorted.ext _ h h' fun a => ?_
  have h0 := hr (fun _ => 0#(w + 1)) a
  have h1 := hr (fun _ => 1#(w + 1)) a
  have h01 : (0#(w + 1)) ≠ 1#(w + 1) := by
    intro hc
    have := congrArg (fun v => BitVec.getLsbD v 0) hc
    simp at this
  unfold Memory.read at h0 h1
  cases hf : Sorted.find Prod.fst a m with
  | none =>
    cases hf' : Sorted.find Prod.fst a m' with
    | none => rfl
    | some c => simp only [hf, hf'] at h0 h1; exact absurd (h0.trans h1.symm) h01
  | some c =>
    cases hf' : Sorted.find Prod.fst a m' with
    | none => simp only [hf, hf'] at h0 h1; exact absurd (h0.symm.trans h1) h01
    | some c' =>
      simp only [hf, hf'] at h0
      have k1 := (Sorted.find_some _ hf).2
      have k2 := (Sorted.find_some _ hf').2
      rw [Prod.ext (k1.trans k2.symm) h0]

/-! ### IN and OUT -/

@[simp] theorem State.inByte_putInByte (s : State) (a b : Nat) (v : Byte) :
    (s.putInByte a v).inByte b = if b = a then v else s.inByte b :=
  Memory.read_write _ _ _ _ _

@[simp] theorem State.outWord_memWriteOut (s : State) (i j : Nat) (v : Word) :
    (s.memWriteOut i v).outWord j = if j = i then v else s.outWord j :=
  Memory.read_write _ _ _ _ _

/-- The whole effect of a 32-bit write on IN, byte by byte (20_memory.md R82). -/
theorem State.inByte_putInWord (s : State) (a b : Nat) (v : Word) :
    (s.putInWord a v).inByte b =
      if b = a + 3 then lane v 3 else if b = a + 2 then lane v 2
      else if b = a + 1 then lane v 1 else if b = a then lane v 0 else s.inByte b := by
  simp [State.putInWord]

theorem State.putInWord_eq (s : State) (a : Nat) (v : Word) :
    s.putInWord a v = { s with inMem := (s.putInWord a v).inMem } := rfl

theorem State.resetWith_memory_wf (p : Params) (n d : Nat) :
    Memory.wf (State.resetWith p n d).inMem = true ∧ Memory.wf (State.resetWith p n d).outMem = true :=
  ⟨rfl, rfl⟩

end Sys2Proof.Machine
end

