-- ==== Sys2Proof/Laws/State.lean ====
section
/-! SUPPORT. One lemma per field per named update of State, so that no proof unfolds an update. -/

namespace Sys2Proof.Machine

section resetWith

variable (p : Params) (n d : Nat)

@[simp] theorem State.resetWith_cfg : (State.resetWith p n d).cfg = p := rfl
@[simp] theorem State.resetWith_be : (State.resetWith p n d).be = false := rfl
@[simp] theorem State.resetWith_bitord : (State.resetWith p n d).bitord = false := rfl
@[simp] theorem State.resetWith_ie : (State.resetWith p n d).ie = false := rfl
@[simp] theorem State.resetWith_phase : (State.resetWith p n d).phase = Phase.idle := rfl
@[simp] theorem State.resetWith_errCode : (State.resetWith p n d).errCode = 0#3 := rfl
@[simp] theorem State.resetWith_errPhase : (State.resetWith p n d).errPhase = 0#5 := rfl
@[simp] theorem State.resetWith_inLen : (State.resetWith p n d).inLen = 0#32 := rfl
@[simp] theorem State.resetWith_pos : (State.resetWith p n d).pos = 0#32 := rfl
@[simp] theorem State.resetWith_bitPos : (State.resetWith p n d).bitPos = 0#32 := rfl
@[simp] theorem State.resetWith_decLen : (State.resetWith p n d).decLen = 0#32 := rfl
@[simp] theorem State.resetWith_symCnt : (State.resetWith p n d).symCnt = 0#32 := rfl
@[simp] theorem State.resetWith_alpha : (State.resetWith p n d).alpha = 0#32 := rfl
@[simp] theorem State.resetWith_pBits : (State.resetWith p n d).pBits = 0#32 := rfl
@[simp] theorem State.resetWith_pBytes : (State.resetWith p n d).pBytes = 0#32 := rfl
@[simp] theorem State.resetWith_unpacked : (State.resetWith p n d).unpacked = 0#32 := rfl
@[simp] theorem State.resetWith_payBase : (State.resetWith p n d).payBase = 0#32 := rfl
@[simp] theorem State.resetWith_inMem : (State.resetWith p n d).inMem = [] := rfl
@[simp] theorem State.resetWith_outMem : (State.resetWith p n d).outMem = [] := rfl
@[simp] theorem State.resetWith_ocnt : (State.resetWith p n d).ocnt = 0 := rfl
@[simp] theorem State.resetWith_fmap : (State.resetWith p n d).fmap = [] := rfl
@[simp] theorem State.resetWith_arena : (State.resetWith p n d).arena = [] := rfl
@[simp] theorem State.resetWith_nextIdx : (State.resetWith p n d).nextIdx = 0 := rfl
@[simp] theorem State.resetWith_heap : (State.resetWith p n d).heap = [] := rfl
@[simp] theorem State.resetWith_root : (State.resetWith p n d).root = none := rfl
@[simp] theorem State.resetWith_cand : (State.resetWith p n d).cand = [] := rfl
@[simp] theorem State.resetWith_ct : (State.resetWith p n d).ct = [] := rfl
@[simp] theorem State.resetWith_pairsLeft : (State.resetWith p n d).pairsLeft = 0#32 := rfl
@[simp] theorem State.resetWith_rst : (State.resetWith p n d).rst = false := rfl
@[simp] theorem State.resetWith_inst : (State.resetWith p n d).inst = n := rfl
@[simp] theorem State.resetWith_draws : (State.resetWith p n d).draws = d := rfl
@[simp] theorem State.resetWith_rdData : (State.resetWith p n d).rdData = 0#32 := rfl
@[simp] theorem State.resetWith_turns : (State.resetWith p n d).turns = [] := rfl

end resetWith

section respond

variable (s : State) (v : Word)

@[simp] theorem State.respond_cfg : (s.respond v).cfg = s.cfg := rfl
@[simp] theorem State.respond_be : (s.respond v).be = s.be := rfl
@[simp] theorem State.respond_bitord : (s.respond v).bitord = s.bitord := rfl
@[simp] theorem State.respond_ie : (s.respond v).ie = s.ie := rfl
@[simp] theorem State.respond_phase : (s.respond v).phase = s.phase := rfl
@[simp] theorem State.respond_errCode : (s.respond v).errCode = s.errCode := rfl
@[simp] theorem State.respond_errPhase : (s.respond v).errPhase = s.errPhase := rfl
@[simp] theorem State.respond_inLen : (s.respond v).inLen = s.inLen := rfl
@[simp] theorem State.respond_pos : (s.respond v).pos = s.pos := rfl
@[simp] theorem State.respond_bitPos : (s.respond v).bitPos = s.bitPos := rfl
@[simp] theorem State.respond_decLen : (s.respond v).decLen = s.decLen := rfl
@[simp] theorem State.respond_symCnt : (s.respond v).symCnt = s.symCnt := rfl
@[simp] theorem State.respond_alpha : (s.respond v).alpha = s.alpha := rfl
@[simp] theorem State.respond_pBits : (s.respond v).pBits = s.pBits := rfl
@[simp] theorem State.respond_pBytes : (s.respond v).pBytes = s.pBytes := rfl
@[simp] theorem State.respond_unpacked : (s.respond v).unpacked = s.unpacked := rfl
@[simp] theorem State.respond_payBase : (s.respond v).payBase = s.payBase := rfl
@[simp] theorem State.respond_inMem : (s.respond v).inMem = s.inMem := rfl
@[simp] theorem State.respond_outMem : (s.respond v).outMem = s.outMem := rfl
@[simp] theorem State.respond_ocnt : (s.respond v).ocnt = s.ocnt := rfl
@[simp] theorem State.respond_fmap : (s.respond v).fmap = s.fmap := rfl
@[simp] theorem State.respond_arena : (s.respond v).arena = s.arena := rfl
@[simp] theorem State.respond_nextIdx : (s.respond v).nextIdx = s.nextIdx := rfl
@[simp] theorem State.respond_heap : (s.respond v).heap = s.heap := rfl
@[simp] theorem State.respond_root : (s.respond v).root = s.root := rfl
@[simp] theorem State.respond_cand : (s.respond v).cand = s.cand := rfl
@[simp] theorem State.respond_ct : (s.respond v).ct = s.ct := rfl
@[simp] theorem State.respond_pairsLeft : (s.respond v).pairsLeft = s.pairsLeft := rfl
@[simp] theorem State.respond_rst : (s.respond v).rst = s.rst := rfl
@[simp] theorem State.respond_inst : (s.respond v).inst = s.inst := rfl
@[simp] theorem State.respond_draws : (s.respond v).draws = s.draws := rfl
@[simp] theorem State.respond_rdData : (s.respond v).rdData = v := rfl
@[simp] theorem State.respond_turns : (s.respond v).turns = s.turns := rfl

end respond

section raise

variable (s : State) (e : HbdError) (p : BitVec 5)

@[simp] theorem State.raise_cfg : (s.raise e p).cfg = s.cfg := rfl
@[simp] theorem State.raise_be : (s.raise e p).be = s.be := rfl
@[simp] theorem State.raise_bitord : (s.raise e p).bitord = s.bitord := rfl
@[simp] theorem State.raise_ie : (s.raise e p).ie = s.ie := rfl
@[simp] theorem State.raise_phase : (s.raise e p).phase = Phase.error := rfl
@[simp] theorem State.raise_errCode : (s.raise e p).errCode = e.code := rfl
@[simp] theorem State.raise_errPhase : (s.raise e p).errPhase = p := rfl
@[simp] theorem State.raise_inLen : (s.raise e p).inLen = s.inLen := rfl
@[simp] theorem State.raise_pos : (s.raise e p).pos = s.pos := rfl
@[simp] theorem State.raise_bitPos : (s.raise e p).bitPos = s.bitPos := rfl
@[simp] theorem State.raise_decLen : (s.raise e p).decLen = s.decLen := rfl
@[simp] theorem State.raise_symCnt : (s.raise e p).symCnt = s.symCnt := rfl
@[simp] theorem State.raise_alpha : (s.raise e p).alpha = s.alpha := rfl
@[simp] theorem State.raise_pBits : (s.raise e p).pBits = s.pBits := rfl
@[simp] theorem State.raise_pBytes : (s.raise e p).pBytes = s.pBytes := rfl
@[simp] theorem State.raise_unpacked : (s.raise e p).unpacked = s.unpacked := rfl
@[simp] theorem State.raise_payBase : (s.raise e p).payBase = s.payBase := rfl
@[simp] theorem State.raise_inMem : (s.raise e p).inMem = s.inMem := rfl
@[simp] theorem State.raise_outMem : (s.raise e p).outMem = s.outMem := rfl
@[simp] theorem State.raise_ocnt : (s.raise e p).ocnt = s.ocnt := rfl
@[simp] theorem State.raise_fmap : (s.raise e p).fmap = s.fmap := rfl
@[simp] theorem State.raise_arena : (s.raise e p).arena = s.arena := rfl
@[simp] theorem State.raise_nextIdx : (s.raise e p).nextIdx = s.nextIdx := rfl
@[simp] theorem State.raise_heap : (s.raise e p).heap = s.heap := rfl
@[simp] theorem State.raise_root : (s.raise e p).root = s.root := rfl
@[simp] theorem State.raise_cand : (s.raise e p).cand = s.cand := rfl
@[simp] theorem State.raise_ct : (s.raise e p).ct = s.ct := rfl
@[simp] theorem State.raise_pairsLeft : (s.raise e p).pairsLeft = s.pairsLeft := rfl
@[simp] theorem State.raise_rst : (s.raise e p).rst = s.rst := rfl
@[simp] theorem State.raise_inst : (s.raise e p).inst = s.inst := rfl
@[simp] theorem State.raise_draws : (s.raise e p).draws = s.draws := rfl
@[simp] theorem State.raise_rdData : (s.raise e p).rdData = s.rdData := rfl
@[simp] theorem State.raise_turns : (s.raise e p).turns = s.turns := rfl

end raise

section restart

variable (s : State) (p : BitVec 5)

@[simp] theorem State.restart_cfg : (s.restart p).cfg = s.cfg := rfl
@[simp] theorem State.restart_be : (s.restart p).be = s.be := rfl
@[simp] theorem State.restart_bitord : (s.restart p).bitord = s.bitord := rfl
@[simp] theorem State.restart_ie : (s.restart p).ie = s.ie := rfl
@[simp] theorem State.restart_phase : (s.restart p).phase = p := rfl
@[simp] theorem State.restart_errCode : (s.restart p).errCode = 0#3 := rfl
@[simp] theorem State.restart_errPhase : (s.restart p).errPhase = 0#5 := rfl
@[simp] theorem State.restart_inLen : (s.restart p).inLen = s.inLen := rfl
@[simp] theorem State.restart_pos : (s.restart p).pos = 0#32 := rfl
@[simp] theorem State.restart_bitPos : (s.restart p).bitPos = 0#32 := rfl
@[simp] theorem State.restart_decLen : (s.restart p).decLen = 0#32 := rfl
@[simp] theorem State.restart_symCnt : (s.restart p).symCnt = 0#32 := rfl
@[simp] theorem State.restart_alpha : (s.restart p).alpha = 0#32 := rfl
@[simp] theorem State.restart_pBits : (s.restart p).pBits = 0#32 := rfl
@[simp] theorem State.restart_pBytes : (s.restart p).pBytes = 0#32 := rfl
@[simp] theorem State.restart_unpacked : (s.restart p).unpacked = 0#32 := rfl
@[simp] theorem State.restart_payBase : (s.restart p).payBase = 0#32 := rfl
@[simp] theorem State.restart_inMem : (s.restart p).inMem = s.inMem := rfl
@[simp] theorem State.restart_outMem : (s.restart p).outMem = s.outMem := rfl
@[simp] theorem State.restart_ocnt : (s.restart p).ocnt = 0 := rfl
@[simp] theorem State.restart_fmap : (s.restart p).fmap = [] := rfl
@[simp] theorem State.restart_arena : (s.restart p).arena = [] := rfl
@[simp] theorem State.restart_nextIdx : (s.restart p).nextIdx = 0 := rfl
@[simp] theorem State.restart_heap : (s.restart p).heap = [] := rfl
@[simp] theorem State.restart_root : (s.restart p).root = none := rfl
@[simp] theorem State.restart_cand : (s.restart p).cand = [] := rfl
@[simp] theorem State.restart_ct : (s.restart p).ct = [] := rfl
@[simp] theorem State.restart_pairsLeft : (s.restart p).pairsLeft = 0#32 := rfl
@[simp] theorem State.restart_rst : (s.restart p).rst = s.rst := rfl
@[simp] theorem State.restart_inst : (s.restart p).inst = s.inst := rfl
@[simp] theorem State.restart_draws : (s.restart p).draws = s.draws := rfl
@[simp] theorem State.restart_rdData : (s.restart p).rdData = s.rdData := rfl
@[simp] theorem State.restart_turns : (s.restart p).turns = s.turns := rfl

end restart

section putInByte

variable (s : State) (a : Nat) (v : Byte)

@[simp] theorem State.putInByte_cfg : (s.putInByte a v).cfg = s.cfg := rfl
@[simp] theorem State.putInByte_be : (s.putInByte a v).be = s.be := rfl
@[simp] theorem State.putInByte_bitord : (s.putInByte a v).bitord = s.bitord := rfl
@[simp] theorem State.putInByte_ie : (s.putInByte a v).ie = s.ie := rfl
@[simp] theorem State.putInByte_phase : (s.putInByte a v).phase = s.phase := rfl
@[simp] theorem State.putInByte_errCode : (s.putInByte a v).errCode = s.errCode := rfl
@[simp] theorem State.putInByte_errPhase : (s.putInByte a v).errPhase = s.errPhase := rfl
@[simp] theorem State.putInByte_inLen : (s.putInByte a v).inLen = s.inLen := rfl
@[simp] theorem State.putInByte_pos : (s.putInByte a v).pos = s.pos := rfl
@[simp] theorem State.putInByte_bitPos : (s.putInByte a v).bitPos = s.bitPos := rfl
@[simp] theorem State.putInByte_decLen : (s.putInByte a v).decLen = s.decLen := rfl
@[simp] theorem State.putInByte_symCnt : (s.putInByte a v).symCnt = s.symCnt := rfl
@[simp] theorem State.putInByte_alpha : (s.putInByte a v).alpha = s.alpha := rfl
@[simp] theorem State.putInByte_pBits : (s.putInByte a v).pBits = s.pBits := rfl
@[simp] theorem State.putInByte_pBytes : (s.putInByte a v).pBytes = s.pBytes := rfl
@[simp] theorem State.putInByte_unpacked : (s.putInByte a v).unpacked = s.unpacked := rfl
@[simp] theorem State.putInByte_payBase : (s.putInByte a v).payBase = s.payBase := rfl
@[simp] theorem State.putInByte_inMem : (s.putInByte a v).inMem = Memory.write s.inMem a v := rfl
@[simp] theorem State.putInByte_outMem : (s.putInByte a v).outMem = s.outMem := rfl
@[simp] theorem State.putInByte_ocnt : (s.putInByte a v).ocnt = s.ocnt := rfl
@[simp] theorem State.putInByte_fmap : (s.putInByte a v).fmap = s.fmap := rfl
@[simp] theorem State.putInByte_arena : (s.putInByte a v).arena = s.arena := rfl
@[simp] theorem State.putInByte_nextIdx : (s.putInByte a v).nextIdx = s.nextIdx := rfl
@[simp] theorem State.putInByte_heap : (s.putInByte a v).heap = s.heap := rfl
@[simp] theorem State.putInByte_root : (s.putInByte a v).root = s.root := rfl
@[simp] theorem State.putInByte_cand : (s.putInByte a v).cand = s.cand := rfl
@[simp] theorem State.putInByte_ct : (s.putInByte a v).ct = s.ct := rfl
@[simp] theorem State.putInByte_pairsLeft : (s.putInByte a v).pairsLeft = s.pairsLeft := rfl
@[simp] theorem State.putInByte_rst : (s.putInByte a v).rst = s.rst := rfl
@[simp] theorem State.putInByte_inst : (s.putInByte a v).inst = s.inst := rfl
@[simp] theorem State.putInByte_draws : (s.putInByte a v).draws = s.draws := rfl
@[simp] theorem State.putInByte_rdData : (s.putInByte a v).rdData = s.rdData := rfl
@[simp] theorem State.putInByte_turns : (s.putInByte a v).turns = s.turns := rfl

end putInByte

section memWriteOut

variable (s : State) (i : Nat) (v : Word)

@[simp] theorem State.memWriteOut_cfg : (s.memWriteOut i v).cfg = s.cfg := rfl
@[simp] theorem State.memWriteOut_be : (s.memWriteOut i v).be = s.be := rfl
@[simp] theorem State.memWriteOut_bitord : (s.memWriteOut i v).bitord = s.bitord := rfl
@[simp] theorem State.memWriteOut_ie : (s.memWriteOut i v).ie = s.ie := rfl
@[simp] theorem State.memWriteOut_phase : (s.memWriteOut i v).phase = s.phase := rfl
@[simp] theorem State.memWriteOut_errCode : (s.memWriteOut i v).errCode = s.errCode := rfl
@[simp] theorem State.memWriteOut_errPhase : (s.memWriteOut i v).errPhase = s.errPhase := rfl
@[simp] theorem State.memWriteOut_inLen : (s.memWriteOut i v).inLen = s.inLen := rfl
@[simp] theorem State.memWriteOut_pos : (s.memWriteOut i v).pos = s.pos := rfl
@[simp] theorem State.memWriteOut_bitPos : (s.memWriteOut i v).bitPos = s.bitPos := rfl
@[simp] theorem State.memWriteOut_decLen : (s.memWriteOut i v).decLen = s.decLen := rfl
@[simp] theorem State.memWriteOut_symCnt : (s.memWriteOut i v).symCnt = s.symCnt := rfl
@[simp] theorem State.memWriteOut_alpha : (s.memWriteOut i v).alpha = s.alpha := rfl
@[simp] theorem State.memWriteOut_pBits : (s.memWriteOut i v).pBits = s.pBits := rfl
@[simp] theorem State.memWriteOut_pBytes : (s.memWriteOut i v).pBytes = s.pBytes := rfl
@[simp] theorem State.memWriteOut_unpacked : (s.memWriteOut i v).unpacked = s.unpacked := rfl
@[simp] theorem State.memWriteOut_payBase : (s.memWriteOut i v).payBase = s.payBase := rfl
@[simp] theorem State.memWriteOut_inMem : (s.memWriteOut i v).inMem = s.inMem := rfl
@[simp] theorem State.memWriteOut_outMem : (s.memWriteOut i v).outMem = Memory.write s.outMem i v := rfl
@[simp] theorem State.memWriteOut_ocnt : (s.memWriteOut i v).ocnt = s.ocnt := rfl
@[simp] theorem State.memWriteOut_fmap : (s.memWriteOut i v).fmap = s.fmap := rfl
@[simp] theorem State.memWriteOut_arena : (s.memWriteOut i v).arena = s.arena := rfl
@[simp] theorem State.memWriteOut_nextIdx : (s.memWriteOut i v).nextIdx = s.nextIdx := rfl
@[simp] theorem State.memWriteOut_heap : (s.memWriteOut i v).heap = s.heap := rfl
@[simp] theorem State.memWriteOut_root : (s.memWriteOut i v).root = s.root := rfl
@[simp] theorem State.memWriteOut_cand : (s.memWriteOut i v).cand = s.cand := rfl
@[simp] theorem State.memWriteOut_ct : (s.memWriteOut i v).ct = s.ct := rfl
@[simp] theorem State.memWriteOut_pairsLeft : (s.memWriteOut i v).pairsLeft = s.pairsLeft := rfl
@[simp] theorem State.memWriteOut_rst : (s.memWriteOut i v).rst = s.rst := rfl
@[simp] theorem State.memWriteOut_inst : (s.memWriteOut i v).inst = s.inst := rfl
@[simp] theorem State.memWriteOut_draws : (s.memWriteOut i v).draws = s.draws := rfl
@[simp] theorem State.memWriteOut_rdData : (s.memWriteOut i v).rdData = s.rdData := rfl
@[simp] theorem State.memWriteOut_turns : (s.memWriteOut i v).turns = s.turns := rfl

end memWriteOut

section arenaPut

variable (s : State) (i : Nat) (n : Node)

@[simp] theorem State.arenaPut_cfg : (s.arenaPut i n).cfg = s.cfg := rfl
@[simp] theorem State.arenaPut_be : (s.arenaPut i n).be = s.be := rfl
@[simp] theorem State.arenaPut_bitord : (s.arenaPut i n).bitord = s.bitord := rfl
@[simp] theorem State.arenaPut_ie : (s.arenaPut i n).ie = s.ie := rfl
@[simp] theorem State.arenaPut_phase : (s.arenaPut i n).phase = s.phase := rfl
@[simp] theorem State.arenaPut_errCode : (s.arenaPut i n).errCode = s.errCode := rfl
@[simp] theorem State.arenaPut_errPhase : (s.arenaPut i n).errPhase = s.errPhase := rfl
@[simp] theorem State.arenaPut_inLen : (s.arenaPut i n).inLen = s.inLen := rfl
@[simp] theorem State.arenaPut_pos : (s.arenaPut i n).pos = s.pos := rfl
@[simp] theorem State.arenaPut_bitPos : (s.arenaPut i n).bitPos = s.bitPos := rfl
@[simp] theorem State.arenaPut_decLen : (s.arenaPut i n).decLen = s.decLen := rfl
@[simp] theorem State.arenaPut_symCnt : (s.arenaPut i n).symCnt = s.symCnt := rfl
@[simp] theorem State.arenaPut_alpha : (s.arenaPut i n).alpha = s.alpha := rfl
@[simp] theorem State.arenaPut_pBits : (s.arenaPut i n).pBits = s.pBits := rfl
@[simp] theorem State.arenaPut_pBytes : (s.arenaPut i n).pBytes = s.pBytes := rfl
@[simp] theorem State.arenaPut_unpacked : (s.arenaPut i n).unpacked = s.unpacked := rfl
@[simp] theorem State.arenaPut_payBase : (s.arenaPut i n).payBase = s.payBase := rfl
@[simp] theorem State.arenaPut_inMem : (s.arenaPut i n).inMem = s.inMem := rfl
@[simp] theorem State.arenaPut_outMem : (s.arenaPut i n).outMem = s.outMem := rfl
@[simp] theorem State.arenaPut_ocnt : (s.arenaPut i n).ocnt = s.ocnt := rfl
@[simp] theorem State.arenaPut_fmap : (s.arenaPut i n).fmap = s.fmap := rfl
@[simp] theorem State.arenaPut_arena : (s.arenaPut i n).arena = Sorted.put Prod.fst (i, n) s.arena := rfl
@[simp] theorem State.arenaPut_nextIdx : (s.arenaPut i n).nextIdx = s.nextIdx := rfl
@[simp] theorem State.arenaPut_heap : (s.arenaPut i n).heap = s.heap := rfl
@[simp] theorem State.arenaPut_root : (s.arenaPut i n).root = s.root := rfl
@[simp] theorem State.arenaPut_cand : (s.arenaPut i n).cand = s.cand := rfl
@[simp] theorem State.arenaPut_ct : (s.arenaPut i n).ct = s.ct := rfl
@[simp] theorem State.arenaPut_pairsLeft : (s.arenaPut i n).pairsLeft = s.pairsLeft := rfl
@[simp] theorem State.arenaPut_rst : (s.arenaPut i n).rst = s.rst := rfl
@[simp] theorem State.arenaPut_inst : (s.arenaPut i n).inst = s.inst := rfl
@[simp] theorem State.arenaPut_draws : (s.arenaPut i n).draws = s.draws := rfl
@[simp] theorem State.arenaPut_rdData : (s.arenaPut i n).rdData = s.rdData := rfl
@[simp] theorem State.arenaPut_turns : (s.arenaPut i n).turns = s.turns := rfl

end arenaPut

end Sys2Proof.Machine
end

