-- ==== Sys2Proof/Laws/Prims.lean ====
section
/-! SUPPORT. What each shared operation does, said once: when it succeeds, raises or is refused, and with what. -/

namespace Sys2Proof.Machine

/-! ### Sequencing -/

theorem Act.andThen_next {α : Type} {m : Act α} {p : BitVec 5}
    {k : α → State → Host.Outcome State Fault Refusal} {t : State} (h : m.andThen p k = .next t) :
    (∃ a s, m = .ok a s ∧ k a s = .next t) ∨ (∃ e s, m = .raised e s ∧ t = s.raise e p) := by
  cases m with
  | ok a s => exact .inl ⟨a, s, rfl, h⟩
  | raised e s => exact .inr ⟨e, s, rfl, by injection h with h; exact h.symm⟩
  | refused r => cases h

theorem Act.andThen_refused {α : Type} {m : Act α} {p : BitVec 5}
    {k : α → State → Host.Outcome State Fault Refusal} {r : Refusal} (h : m.andThen p k = .refused r) :
    (∃ a s, m = .ok a s ∧ k a s = .refused r) ∨ m = .refused r := by
  cases m with
  | ok a s => exact .inl ⟨a, s, rfl, h⟩
  | raised e s => cases h
  | refused r' => exact .inr (by injection h with h; rw [h])

@[simp] theorem Act.andThen_ok {α : Type} (a : α) (s : State) (p : BitVec 5)
    (k : α → State → Host.Outcome State Fault Refusal) : (Act.ok a s).andThen p k = k a s := rfl

@[simp] theorem Act.andThen_raised {α : Type} (e : HbdError) (s : State) (p : BitVec 5)
    (k : α → State → Host.Outcome State Fault Refusal) :
    (Act.raised e s).andThen p k = .next (s.raise e p) := rfl

@[simp] theorem Act.bind_ok {α β : Type} (a : α) (s : State) (k : α → State → Act β) :
    (Act.ok a s).bind k = k a s := rfl

/-! ### The cursor and the bit reader -/

theorem readU32_ok {s : State} (h : s.pos.toNat + 4 ≤ s.inLen.toNat) :
    readU32 s = .ok (s.wireU32 s.pos.toNat) { s with pos := BitVec.ofNat 32 (s.pos.toNat + 4) } := by
  unfold readU32 State.remaining
  rw [if_neg (by omega)]

theorem readU32_short {s : State} (h : s.inLen.toNat < s.pos.toNat + 4) :
    readU32 s = .raised .outOfData s := by
  unfold readU32 State.remaining
  rw [if_pos (by omega)]

theorem readU32_cases (s : State) :
    (s.pos.toNat + 4 ≤ s.inLen.toNat ∧
      readU32 s = .ok (s.wireU32 s.pos.toNat) { s with pos := BitVec.ofNat 32 (s.pos.toNat + 4) }) ∨
    (s.inLen.toNat < s.pos.toNat + 4 ∧ readU32 s = .raised .outOfData s) := by
  rcases Nat.lt_or_ge s.inLen.toNat (s.pos.toNat + 4) with h | h
  · exact .inr ⟨h, readU32_short h⟩
  · exact .inl ⟨h, readU32_ok h⟩

theorem readBytes_ok {s : State} {n : Nat} (h : s.pos.toNat + n ≤ s.inLen.toNat) :
    readBytes n s = .ok s.pos { s with pos := BitVec.ofNat 32 (s.pos.toNat + n) } := by
  unfold readBytes State.remaining
  rw [if_neg (by omega)]

theorem readBytes_short {s : State} {n : Nat} (h : s.inLen.toNat < s.pos.toNat + n) :
    readBytes n s = .raised .outOfData s := by
  unfold readBytes State.remaining
  rw [if_pos (by omega)]

theorem readBytes_cases (n : Nat) (s : State) :
    (s.pos.toNat + n ≤ s.inLen.toNat ∧
      readBytes n s = .ok s.pos { s with pos := BitVec.ofNat 32 (s.pos.toNat + n) }) ∨
    (s.inLen.toNat < s.pos.toNat + n ∧ readBytes n s = .raised .outOfData s) := by
  rcases Nat.lt_or_ge s.inLen.toNat (s.pos.toNat + n) with h | h
  · exact .inr ⟨h, readBytes_short h⟩
  · exact .inl ⟨h, readBytes_ok h⟩

/-- The cursor never leaves 32 bits: an advance the buffer allows does not wrap (R152, R153). -/
theorem toNat_advance {s : State} {n : Nat} (h : s.pos.toNat + n ≤ s.inLen.toNat) :
    (BitVec.ofNat 32 (s.pos.toNat + n)).toNat = s.pos.toNat + n := by
  have := s.inLen.isLt
  simp only [BitVec.toNat_ofNat]
  omega

theorem bitRead_cases (k : Nat) (s : State) :
    (s.bitReadable k ∧ bitRead k s = .ok (s.payloadBit k) s) ∨
    (¬ s.bitReadable k ∧ bitRead k s = .refused .bitReadOutOfRange) := by
  unfold bitRead
  split
  · next h => exact .inl ⟨h, rfl⟩
  · next h => exact .inr ⟨h, rfl⟩

/-! ### FMAP -/

theorem count?_put (s : State) (y c z : Word) :
    ({ s with fmap := Sorted.put FreqEntry.key ⟨y, c⟩ s.fmap } : State).count? z =
      if z = y then some c else s.count? z := by
  unfold State.count?
  simp only [Sorted.find_put]
  by_cases h : z = y
  · simp [h, FreqEntry.key]
  · rw [if_neg h, if_neg]
    exact fun hc => h (BitVec.eq_of_toNat_eq hc)

/-- Below the top of 32 bits ALPHA counts on (42_header.md R160). -/
theorem State.toNat_alphaAfter {s : State} (h : s.alpha.toNat + 1 < 2 ^ 32) :
    s.alphaAfter.toNat = s.alpha.toNat + 1 := by
  unfold State.alphaAfter
  rw [if_neg (fun hc => by simp [hc] at h), BitVec.toNat_add, BitVec.toNat_ofNat]
  omega

theorem fmapInsert_cases (y c : Word) (s : State) :
    ((s.count? y).isSome = true ∧
      fmapInsert y c s = .ok () { s with fmap := Sorted.put FreqEntry.key ⟨y, c⟩ s.fmap }) ∨
    (s.count? y = none ∧ s.alpha.toNat = s.cfg.maxAlphabet ∧
      fmapInsert y c s = .raised .alphabetTooLarge s) ∨
    (s.count? y = none ∧ s.alpha.toNat ≠ s.cfg.maxAlphabet ∧
      fmapInsert y c s =
        .ok () { s with fmap := Sorted.put FreqEntry.key ⟨y, c⟩ s.fmap, alpha := s.alphaAfter }) := by
  unfold fmapInsert
  split
  · next h => exact .inl ⟨h, rfl⟩
  · next h =>
    have h : s.count? y = none := by simpa using h
    split
    · next h' => exact .inr (.inl ⟨h, h', rfl⟩)
    · next h' => exact .inr (.inr ⟨h, h', rfl⟩)

/-- FmapInsert writes FMAP and ALPHA alone, and its one error leaves everything as it was. -/
theorem fmapInsert_frame {y c : Word} {s t : State} (h : fmapInsert y c s = .ok () t) :
    t = { s with fmap := t.fmap, alpha := t.alpha } := by
  rcases fmapInsert_cases y c s with ⟨_, he⟩ | ⟨_, _, he⟩ | ⟨_, _, he⟩ <;> rw [he] at h <;> cases h <;>
    rfl

/-! ### HEAP -/

theorem keyLt_iff (arena : List (Nat × Node)) (i j : Nat) :
    keyLt arena i j = true ↔
      freqAt arena i < freqAt arena j ∨ (freqAt arena i = freqAt arena j ∧ i < j) := by
  simp [keyLt]

theorem minKey_none {arena : List (Nat × Node)} {l : List Nat} (h : minKey arena l = none) : l = [] := by
  cases l with
  | nil => rfl
  | cons i l =>
    unfold minKey at h
    split at h
    · cases h
    · split at h <;> cases h

/-- The least key (43_code_table.md R171): it is in the list, and every other index has a greater
key. -/
theorem minKey_least {arena : List (Nat × Node)} {l : List Nat} {m : Nat} (h : minKey arena l = some m) :
    m ∈ l ∧ ∀ i ∈ l, i ≠ m → keyLt arena m i = true := by
  induction l generalizing m with
  | nil => cases h
  | cons i l ih =>
    unfold minKey at h
    split at h
    · next hn =>
      cases minKey_none hn
      injection h with h
      subst h
      simp
    · next j hj =>
      obtain ⟨hm, hl⟩ := ih hj
      simp only [keyLt_iff] at hl h ⊢
      split at h <;> injection h with h <;> subst h
      · next hlt =>
        refine ⟨List.mem_cons_of_mem _ hm, fun k hk hne => ?_⟩
        rcases List.mem_cons.1 hk with rfl | hk
        · exact hlt
        · exact hl k hk hne
      · next hge =>
        refine ⟨List.mem_cons_self, fun k hk hne => ?_⟩
        rcases List.mem_cons.1 hk with rfl | hk
        · exact absurd rfl hne
        · by_cases hkj : k = j
          · subst hkj; omega
          · have := hl k hk hkj
            omega

theorem heapPeek_ok {s t : State} {m : Nat} (h : heapPeek s = .ok m t) :
    t = s ∧ m ∈ s.heap ∧ ∀ i ∈ s.heap, i ≠ m → keyLt s.arena m i = true := by
  unfold heapPeek at h
  split at h
  · cases h
  · next m' hm =>
    injection h with h1 h2
    subst h1 h2
    exact ⟨rfl, minKey_least hm⟩

theorem heapPeek_total {s : State} (hne : s.heap ≠ []) : ∃ m, heapPeek s = .ok m s := by
  unfold heapPeek
  cases hm : minKey s.arena s.heap with
  | none => exact absurd (minKey_none hm) hne
  | some m => exact ⟨m, rfl⟩

theorem heapPeek_never_raises (s t : State) (e : HbdError) : heapPeek s ≠ .raised e t := by
  unfold heapPeek
  split <;> exact fun h => by cases h

theorem heapPopMin_ok {s t : State} {m : Nat} (h : heapPopMin s = .ok m t) :
    t = { s with heap := s.heap.filter (fun i => i != m) } ∧ m ∈ s.heap ∧
      ∀ i ∈ s.heap, i ≠ m → keyLt s.arena m i = true := by
  unfold heapPopMin Act.bind at h
  split at h
  · next a s' hp =>
    obtain ⟨rfl, hm⟩ := heapPeek_ok hp
    injection h with h1 h2
    subst h1
    exact ⟨h2.symm, hm⟩
  · cases h
  · cases h

theorem heapPopMin_total {s : State} (hne : s.heap ≠ []) :
    ∃ m, heapPopMin s = .ok m { s with heap := s.heap.filter (fun i => i != m) } := by
  obtain ⟨m, hm⟩ := heapPeek_total hne
  exact ⟨m, by simp [heapPopMin, hm]⟩

theorem heapPopMin_never_raises (s t : State) (e : HbdError) : heapPopMin s ≠ .raised e t := by
  unfold heapPopMin Act.bind
  split
  · exact fun h => by cases h
  · next hp => exact absurd hp (heapPeek_never_raises _ _ _)
  · exact fun h => by cases h

theorem heapPush_cases (i : Nat) (s : State) :
    (s.heap.length < s.cfg.maxAlphabet ∧ i ∉ s.heap ∧
      heapPush i s = .ok () { s with heap := Sorted.put id i s.heap }) ∨
    (s.heap.length < s.cfg.maxAlphabet ∧ i ∈ s.heap ∧ heapPush i s = .refused .heapDuplicate) ∨
    (s.cfg.maxAlphabet ≤ s.heap.length ∧ heapPush i s = .refused .heapFull) := by
  unfold heapPush
  split
  · next h =>
    split
    · next h' => exact .inr (.inl ⟨h, by simpa using h', rfl⟩)
    · next h' => exact .inl ⟨h, by simpa using h', rfl⟩
  · next h => exact .inr (.inr ⟨by omega, rfl⟩)

/-! ### ARENA -/

/-- The frequency of a filled slot (43_code_table.md R170). -/
theorem freqAt_of_filled {arena : List (Nat × Node)} {i : Nat} {n : Node}
    (h : arenaGet arena i = some n) : freqAt arena i = n.freq.toNat := by
  unfold freqAt
  rw [h]

/-- The sum is exact while it fits (43_code_table.md R182). -/
theorem toNat_freqSum {f g : Nat} (h : f + g < 2 ^ 40) : (freqSum f g).toNat = f + g := by
  unfold freqSum
  rw [if_pos h, BitVec.toNat_ofNat, Nat.mod_eq_of_lt h]

/-- With ALPHA the number of keys, TREE_SEED takes all of FMAP (10_state.md R41). -/
theorem State.seedEntries_eq {s : State} (h : s.alpha.toNat = s.fmap.length) :
    s.seedEntries = s.fmap := by
  simp [State.seedEntries, h]

/-- TREE_SEED takes ALPHA entries (43_code_table.md R177). -/
@[simp] theorem State.seedEntries_length (s : State) : s.seedEntries.length = s.alpha.toNat := by
  simp only [State.seedEntries, List.length_append, List.length_take, List.length_map,
    List.length_range]
  omega

/-- Where the walk gives a table, CODE_BUILD writes it (43_code_table.md R179). -/
theorem codeTable_of_codesOf {root : Option Nat} {arena : List (Nat × Node)} {ct : List CodeEntry}
    (h : codesOf root arena = some ct) : codeTable root arena = ct := by
  unfold codeTable
  rw [h]

theorem arenaGet_put (arena : List (Nat × Node)) (i j : Nat) (n : Node) :
    arenaGet (Sorted.put Prod.fst (i, n) arena) j = if j = i then some n else arenaGet arena j := by
  unfold arenaGet
  rw [Sorted.find_put]
  by_cases h : j = i <;> simp [h]

/-! ### CT and the output -/

theorem ctLookup_none {c : List Bool} {s : State} (h : ∀ e ∈ s.ct, e.code ≠ c) :
    ctLookup c s = .ok none s := by
  unfold ctLookup
  rw [List.filter_eq_nil_iff.2 (by simpa using h)]

theorem ctLookup_some {c : List Bool} {y : Word} {s : State} (h : ⟨c, y⟩ ∈ s.ct)
    (huniq : ∀ e ∈ s.ct, e.code = c → e.symbol = y) : ctLookup c s = .ok (some y) s := by
  unfold ctLookup
  have hall : ∀ e ∈ s.ct.filter (fun e => e.code == c), e.symbol = y := by
    intro e he
    obtain ⟨h1, h2⟩ := List.mem_filter.1 he
    exact huniq e h1 (by simpa using h2)
  cases hf : s.ct.filter (fun e => e.code == c) with
  | nil =>
    have : (⟨c, y⟩ : CodeEntry) ∈ s.ct.filter (fun e => e.code == c) := List.mem_filter.2 ⟨h, by simp⟩
    rw [hf] at this
    cases this
  | cons e l =>
    rw [hf] at hall
    have he := hall e List.mem_cons_self
    simp only [he]
    rw [if_pos]
    simpa using fun x hx => hall x (List.mem_cons_of_mem _ hx)

theorem ctLookup_cases (c : List Bool) (s : State) :
    ((∀ e ∈ s.ct, e.code ≠ c) ∧ ctLookup c s = .ok none s) ∨
    (∃ y, ⟨c, y⟩ ∈ s.ct ∧ (∀ e ∈ s.ct, e.code = c → e.symbol = y) ∧ ctLookup c s = .ok (some y) s) ∨
    ((∃ e ∈ s.ct, ∃ e' ∈ s.ct, e.code = c ∧ e'.code = c ∧ e.symbol ≠ e'.symbol) ∧
      ctLookup c s = .refused .ambiguousMatch) := by
  by_cases h : ∀ e ∈ s.ct, e.code ≠ c
  · exact .inl ⟨h, ctLookup_none h⟩
  · push Not at h
    obtain ⟨e0, he0, hc0⟩ := h
    by_cases h2 : ∀ e ∈ s.ct, e.code = c → e.symbol = e0.symbol
    · subst hc0
      exact .inr (.inl ⟨e0.symbol, he0, h2, ctLookup_some he0 h2⟩)
    · push Not at h2
      obtain ⟨e1, he1, hc1, hne⟩ := h2
      refine .inr (.inr ⟨⟨e1, he1, e0, he0, hc1, hc0, hne⟩, ?_⟩)
      unfold ctLookup
      have m0 : e0 ∈ s.ct.filter (fun e => e.code == c) := List.mem_filter.2 ⟨he0, by simpa using hc0⟩
      have m1 : e1 ∈ s.ct.filter (fun e => e.code == c) := List.mem_filter.2 ⟨he1, by simpa using hc1⟩
      cases hf : s.ct.filter (fun e => e.code == c) with
      | nil => rw [hf] at m0; cases m0
      | cons e l =>
        rw [hf] at m0 m1
        dsimp only
        rw [if_neg]
        intro hall
        simp only [List.all_eq_true, beq_iff_eq] at hall
        have k (x : CodeEntry) (hx : x ∈ e :: l) : x.symbol = e.symbol := by
          rcases List.mem_cons.1 hx with rfl | hx
          · rfl
          · exact hall x hx
        exact hne ((k _ m1).trans (k _ m0).symm)

theorem emit_cases (y : Word) (s : State) :
    (s.ocnt = s.cfg.outSize ∧ emit y s = .raised .outputOverflow s) ∨
    (s.ocnt ≠ s.cfg.outSize ∧
      emit y s = .ok () { s.memWriteOut s.ocnt y with ocnt := s.ocnt + 1 }) := by
  unfold emit
  split
  · next h => exact .inl ⟨h, rfl⟩
  · next h => exact .inr ⟨h, rfl⟩

end Sys2Proof.Machine
end

