-- ==== Sys2Proof/Laws/Exec.lean ====
section
/-! SUPPORT. What each engine operation can leave when it answers a next state, and what a step can be: said once, so that no proof about steps unfolds them again. -/

namespace Sys2Proof.Machine

variable {s t : State}

/-- One wire field read: both ways the read can go. -/
theorem readU32_andThen_next {p : BitVec 5} {k : Word → State → Host.Outcome State Fault Refusal}
    (h : (readU32 s).andThen p k = .next t) :
    (s.pos.toNat + 4 ≤ s.inLen.toNat ∧
      k (s.wireU32 s.pos.toNat) { s with pos := BitVec.ofNat 32 (s.pos.toNat + 4) } = .next t) ∨
    (s.inLen.toNat < s.pos.toNat + 4 ∧ t = s.raise .outOfData p) := by
  rcases readU32_cases s with ⟨hle, he⟩ | ⟨hlt, he⟩
  · exact .inl ⟨hle, by simpa [he] using h⟩
  · rw [he, Act.andThen_raised] at h
    exact .inr ⟨hlt, by injection h with h; exact h.symm⟩

theorem exec_hdrDeclen_next (h : exec .hdrDeclen s = .next t) :
    (s.pos.toNat + 4 ≤ s.inLen.toNat ∧
      t = { s with pos := BitVec.ofNat 32 (s.pos.toNat + 4), decLen := s.wireU32 s.pos.toNat,
                   phase := Phase.hdrReserved }) ∨
    (s.inLen.toNat < s.pos.toNat + 4 ∧ t = s.raise .outOfData Phase.hdrDeclen) := by
  rcases readU32_andThen_next h with ⟨hle, hk⟩ | hr
  · exact .inl ⟨hle, by injection hk with hk; exact hk.symm⟩
  · exact .inr hr

theorem exec_hdrReserved_next (h : exec .hdrReserved s = .next t) :
    (s.pos.toNat + 4 ≤ s.inLen.toNat ∧ s.wireU32 s.pos.toNat = 0#32 ∧
      t = { s with pos := BitVec.ofNat 32 (s.pos.toNat + 4), phase := Phase.hdrCount }) ∨
    (s.pos.toNat + 4 ≤ s.inLen.toNat ∧ s.wireU32 s.pos.toNat ≠ 0#32 ∧
      t = { s with pos := BitVec.ofNat 32 (s.pos.toNat + 4) }.raise .malformedHeader
        Phase.hdrReserved) ∨
    (s.inLen.toNat < s.pos.toNat + 4 ∧ t = s.raise .outOfData Phase.hdrReserved) := by
  rcases readU32_andThen_next h with ⟨hle, hk⟩ | hr
  · split at hk <;> injection hk with hk
    · next hv => exact .inr (.inl ⟨hle, hv, hk.symm⟩)
    · next hv => exact .inl ⟨hle, not_not.1 hv, hk.symm⟩
  · exact .inr (.inr hr)

theorem exec_hdrCount_next (h : exec .hdrCount s = .next t) :
    (s.pos.toNat + 4 ≤ s.inLen.toNat ∧ s.wireU32 s.pos.toNat ≠ 0#32 ∧
      t = { s with pos := BitVec.ofNat 32 (s.pos.toNat + 4), symCnt := s.wireU32 s.pos.toNat,
                   pairsLeft := s.wireU32 s.pos.toNat, phase := Phase.hdrPair }) ∨
    (s.pos.toNat + 4 ≤ s.inLen.toNat ∧ s.wireU32 s.pos.toNat = 0#32 ∧
      t = { s with pos := BitVec.ofNat 32 (s.pos.toNat + 4), symCnt := s.wireU32 s.pos.toNat }.raise
        .emptyAlphabet Phase.hdrCount) ∨
    (s.inLen.toNat < s.pos.toNat + 4 ∧ t = s.raise .outOfData Phase.hdrCount) := by
  rcases readU32_andThen_next h with ⟨hle, hk⟩ | hr
  · split at hk <;> injection hk with hk
    · next hv => exact .inr (.inl ⟨hle, hv, hk.symm⟩)
    · next hv => exact .inl ⟨hle, hv, hk.symm⟩
  · exact .inr (.inr hr)

theorem exec_hdrPair_next (h : exec .hdrPair s = .next t) :
    (s.inLen.toNat < s.pos.toNat + 4 ∧ t = s.raise .outOfData Phase.hdrPair) ∨
    (s.pos.toNat + 4 ≤ s.inLen.toNat ∧ s.inLen.toNat < s.pos.toNat + 8 ∧
      t = { s with pos := BitVec.ofNat 32 (s.pos.toNat + 4) }.raise .outOfData Phase.hdrPair) ∨
    (s.pos.toNat + 8 ≤ s.inLen.toNat ∧ ∃ u : State,
      u = { s with pos := BitVec.ofNat 32 (s.pos.toNat + 8) } ∧
      ((∃ v, fmapInsert (s.wireU32 (s.pos.toNat + 4)) (s.wireU32 s.pos.toNat) u = .ok () v ∧
          t = afterPair v) ∨
        (fmapInsert (s.wireU32 (s.pos.toNat + 4)) (s.wireU32 s.pos.toNat) u =
            .raised .alphabetTooLarge u ∧ t = u.raise .alphabetTooLarge Phase.hdrPair))) := by
  rcases readU32_andThen_next h with ⟨hle, hk⟩ | hr
  · have hp := toNat_advance hle
    rcases readU32_andThen_next hk with ⟨hle', hk'⟩ | ⟨hlt, ht⟩
    · simp only [hp] at hle' hk'
      refine .inr (.inr ⟨by omega, _, rfl, ?_⟩)
      simp only [Nat.add_assoc, Nat.reduceAdd] at hk'
      rcases fmapInsert_cases (s.wireU32 (s.pos.toNat + 4)) (s.wireU32 s.pos.toNat)
          { s with pos := BitVec.ofNat 32 (s.pos.toNat + 8) } with
        ⟨_, he⟩ | ⟨_, _, he⟩ | ⟨_, _, he⟩
      all_goals
        rcases Act.andThen_next hk' with ⟨a, v, hv, hk2⟩ | ⟨e, v, hv, ht⟩
        all_goals
          have hv' := he.symm.trans hv
          first
          | (cases hv'
             injection hk2 with hk2
             exact .inl ⟨_, he, hk2.symm⟩)
          | (cases hv'
             exact .inr ⟨he, ht⟩)
          | cases hv'
    · simp only [hp] at hlt
      exact .inr (.inl ⟨hle, by omega, ht⟩)
  · exact .inl hr

theorem exec_trlPbits_next (h : exec .trlPbits s = .next t) :
    (s.pos.toNat + 4 ≤ s.inLen.toNat ∧
      t = { s with pos := BitVec.ofNat 32 (s.pos.toNat + 4), pBits := s.wireU32 s.pos.toNat,
                   phase := Phase.trlPbytes }) ∨
    (s.inLen.toNat < s.pos.toNat + 4 ∧ t = s.raise .outOfData Phase.trlPbits) := by
  rcases readU32_andThen_next h with ⟨hle, hk⟩ | hr
  · exact .inl ⟨hle, by injection hk with hk; exact hk.symm⟩
  · exact .inr hr

theorem exec_trlPbytes_next (h : exec .trlPbytes s = .next t) :
    (s.pos.toNat + 4 ≤ s.inLen.toNat ∧
      t = { s with pos := BitVec.ofNat 32 (s.pos.toNat + 4), pBytes := s.wireU32 s.pos.toNat,
                   phase := Phase.trlUnpacked }) ∨
    (s.inLen.toNat < s.pos.toNat + 4 ∧ t = s.raise .outOfData Phase.trlPbytes) := by
  rcases readU32_andThen_next h with ⟨hle, hk⟩ | hr
  · exact .inl ⟨hle, by injection hk with hk; exact hk.symm⟩
  · exact .inr hr

theorem exec_trlUnpacked_next (h : exec .trlUnpacked s = .next t) :
    (s.pos.toNat + 4 ≤ s.inLen.toNat ∧
      t = { s with pos := BitVec.ofNat 32 (s.pos.toNat + 4), unpacked := s.wireU32 s.pos.toNat,
                   phase := Phase.payload }) ∨
    (s.inLen.toNat < s.pos.toNat + 4 ∧ t = s.raise .outOfData Phase.trlUnpacked) := by
  rcases readU32_andThen_next h with ⟨hle, hk⟩ | hr
  · exact .inl ⟨hle, by injection hk with hk; exact hk.symm⟩
  · exact .inr hr

/-- Where PAYLOAD goes once the payload is bound (44_bitstream_decode.md R205). -/
def payloadNext (s : State) : State :=
  if s.alpha = 1#32 then
    if s.unpacked = 0#32 then { s with phase := Phase.done }
    else { s with phase := Phase.decSingle }
  else if 8 * s.pBytes.toNat < s.pBits.toNat then s.raise .outOfData Phase.payload
  else if s.pBits = 0#32 then { s with phase := Phase.decEnd }
  else { s with phase := Phase.decBit }

theorem exec_payload_next (h : exec .payload s = .next t) :
    (s.pos.toNat + s.pBytes.toNat ≤ s.inLen.toNat ∧
      t = payloadNext { s with pos := BitVec.ofNat 32 (s.pos.toNat + s.pBytes.toNat),
                               payBase := s.pos }) ∨
    (s.inLen.toNat < s.pos.toNat + s.pBytes.toNat ∧ t = s.raise .outOfData Phase.payload) := by
  have h : execPayload s = .next t := h
  unfold execPayload at h
  rcases readBytes_cases s.pBytes.toNat s with ⟨hle, he⟩ | ⟨hlt, he⟩
  · refine .inl ⟨hle, ?_⟩
    simp only [he, Act.andThen_ok] at h
    unfold payloadNext
    split at h
    · next h1 =>
      rw [if_pos h1]
      split at h <;> injection h with h
      · next h2 => rw [if_pos h2, h]
      · next h2 => rw [if_neg h2, h]
    · next h1 =>
      rw [if_neg h1]
      split at h
      · next h2 => injection h with h; rw [if_pos h2, h]
      · next h2 =>
        rw [if_neg h2]
        split at h <;> injection h with h
        · next h3 => rw [if_pos h3, h]
        · next h3 => rw [if_neg h3, h]
  · rw [he, Act.andThen_raised] at h
    exact .inr ⟨hlt, by injection h with h; exact h.symm⟩

theorem exec_decEnd_next (h : exec .decEnd s = .next t) :
    (s.cand = [] ∧ t = { s with phase := Phase.done }) ∨
    (s.cand ≠ [] ∧ t = s.raise .truncatedStream Phase.decEnd) := by
  have h : execDecEnd s = .next t := h
  unfold execDecEnd at h
  split at h <;> injection h with h
  · next hc => exact .inr ⟨by simpa using hc, h.symm⟩
  · next hc => exact .inl ⟨by simpa using hc, h.symm⟩

@[simp] theorem soleSymbol_sole (y : Word) : soleSymbol [⟨[], y⟩] = y := rfl

theorem exec_decSingle_next (h : exec .decSingle s = .next t) :
    (s.ocnt ≠ s.cfg.outSize ∧
      t = { s.memWriteOut s.ocnt (soleSymbol s.ct) with
        ocnt := s.ocnt + 1
        phase := if s.ocnt + 1 = s.unpacked.toNat then Phase.done else s.phase }) ∨
    (s.ocnt = s.cfg.outSize ∧ t = s.raise .outputOverflow Phase.decSingle) := by
  have h : execDecSingle s = .next t := h
  unfold execDecSingle at h
  rcases emit_cases (soleSymbol s.ct) s with ⟨ho, he⟩ | ⟨ho, he⟩
  · rw [he, Act.andThen_raised] at h
    exact .inr ⟨ho, by injection h with h; exact h.symm⟩
  · refine .inl ⟨ho, ?_⟩
    simp only [he, Act.andThen_ok] at h
    split at h <;> injection h with h <;> subst h <;> simp_all

theorem exec_decBit_next (h : exec .decBit s = .next t) :
    s.bitReadable s.bitPos.toNat ∧ s.cand.length < s.cfg.lMax ∧ ∃ u : State,
      u = { s with bitPos := s.bitPos + 1#32, cand := s.cand ++ [s.payloadBit s.bitPos.toNat] } ∧
      (((∀ e ∈ s.ct, e.code ≠ u.cand) ∧
          t = { u with phase := if u.bitPos = s.pBits then Phase.decEnd else s.phase }) ∨
        (∃ y, ⟨u.cand, y⟩ ∈ s.ct ∧ s.ocnt ≠ s.cfg.outSize ∧
          t = { u.memWriteOut s.ocnt y with
            ocnt := s.ocnt + 1
            cand := []
            phase := if u.bitPos = s.pBits then Phase.decEnd else s.phase }) ∨
        ((∃ y, ⟨u.cand, y⟩ ∈ s.ct) ∧ s.ocnt = s.cfg.outSize ∧
          t = u.raise .outputOverflow Phase.decBit)) := by
  have h : execDecBit s = .next t := h
  unfold execDecBit at h
  rcases bitRead_cases s.bitPos.toNat s with ⟨hb, he⟩ | ⟨hb, he⟩
  · simp only [he, Act.andThen_ok] at h
    split at h
    · cases h
    · next hlen =>
      refine ⟨hb, by simpa using hlen, _, rfl, ?_⟩
      rcases ctLookup_cases (s.cand ++ [s.payloadBit s.bitPos.toNat])
          { s with bitPos := s.bitPos + 1#32, cand := s.cand ++ [s.payloadBit s.bitPos.toNat] } with
        ⟨hn, hl⟩ | ⟨y, hy, _, hl⟩ | ⟨_, hl⟩
      · refine .inl ⟨hn, ?_⟩
        simp only [hl, Act.andThen_ok, emitMatch] at h
        split at h <;> injection h with h <;> subst h <;> simp_all
      · simp only [hl, Act.andThen_ok, emitMatch] at h
        rcases emit_cases y
            { s with bitPos := s.bitPos + 1#32, cand := s.cand ++ [s.payloadBit s.bitPos.toNat] } with
          ⟨ho, hm⟩ | ⟨ho, hm⟩
        · refine .inr (.inr ⟨⟨y, hy⟩, ho, ?_⟩)
          simp only [hm, Act.bind, Act.andThen_raised] at h
          injection h with h
          exact h.symm
        · refine .inr (.inl ⟨y, hy, ho, ?_⟩)
          simp only [hm, Act.bind_ok, Act.andThen_ok] at h
          split at h <;> injection h with h <;> subst h <;> simp_all
      · simp [hl, Act.andThen] at h
  · simp [he, Act.andThen] at h

theorem exec_codeBuild_next (h : exec .codeBuild s = .next t) :
    t = { s with ct := codeTable s.root s.arena, phase := Phase.trlPbits } := by
  injection h with h
  exact h.symm

/-! ### The tree builder -/

theorem seedFrom_frame {i : Nat} {l : List FreqEntry} {s t : State} (h : seedFrom i l s = .ok () t) :
    t = { s with arena := t.arena, heap := t.heap } ∧ t.heap.length = s.heap.length + l.length := by
  induction l generalizing i s with
  | nil => cases h; exact ⟨rfl, by simp⟩
  | cons e l ih =>
    unfold seedFrom at h
    rcases heapPush_cases i (s.arenaPut i (.leaf e.symbol (e.count.setWidth 40))) with
      ⟨_, hni, he⟩ | ⟨_, _, he⟩ | ⟨_, he⟩
    · simp only [he, Act.bind_ok] at h
      obtain ⟨h1, h2⟩ := ih h
      refine ⟨h1.trans (by simp [State.arenaPut]), ?_⟩
      rw [h2]
      simp only [List.length_cons]
      have hlen (l : List Nat) (hl : i ∉ l) : (Sorted.put id i l).length = l.length + 1 := by
        induction l with
        | nil => rfl
        | cons a l ih =>
          simp only [List.mem_cons, not_or] at hl
          unfold Sorted.put
          simp only [id]
          split
          · simp
          · rw [if_neg hl.1]; simp [ih hl.2]
      rw [hlen _ hni]
      simp
      omega
    · simp [he, Act.bind] at h
    · simp [he, Act.bind] at h

theorem seedFrom_never_raises (i : Nat) (l : List FreqEntry) (s t : State) (e : HbdError) :
    seedFrom i l s ≠ .raised e t := by
  induction l generalizing i s with
  | nil => exact fun h => by cases h
  | cons x l ih =>
    unfold seedFrom
    rcases heapPush_cases i (s.arenaPut i (.leaf x.symbol (x.count.setWidth 40))) with
      ⟨_, _, he⟩ | ⟨_, _, he⟩ | ⟨_, he⟩
    · rw [he]; exact ih _ _
    · rw [he]; exact fun h => by cases h
    · rw [he]; exact fun h => by cases h

theorem exec_treeSeed_next (h : exec .treeSeed s = .next t) :
    ∃ u, seedFrom 0 s.seedEntries s = .ok () u ∧
      ((u.heap.length = 1 ∧ ∃ r ∈ u.heap,
          t = { u with nextIdx := s.alpha.toNat, root := some r, phase := Phase.codeBuild }) ∨
        (u.heap.length ≠ 1 ∧
          t = { u with nextIdx := s.alpha.toNat, phase := Phase.treeMerge })) := by
  have h : execTreeSeed s = .next t := h
  unfold execTreeSeed at h
  rcases Act.andThen_next h with ⟨_, u, hu, hk⟩ | ⟨e, u, hu, _⟩
  · refine ⟨u, hu, ?_⟩
    obtain ⟨hf, _⟩ := seedFrom_frame hu
    have halpha : u.alpha = s.alpha := by rw [hf]
    dsimp only at hk
    split at hk
    · next h1 =>
      refine .inl ⟨h1, ?_⟩
      rcases Act.andThen_next hk with ⟨r, v, hv, hk'⟩ | ⟨e, v, hv, _⟩
      · obtain ⟨rfl, hr, _⟩ := heapPeek_ok hv
        exact ⟨r, hr, by injection hk' with hk'; rw [← hk', halpha]⟩
      · exact absurd hv (heapPeek_never_raises _ _ _)
    · next h1 =>
      exact .inr ⟨h1, by injection hk with hk; rw [← hk, halpha]⟩
  · exact absurd hu (seedFrom_never_raises _ _ _ _ _)

theorem exec_treeMerge_next (h : exec .treeMerge s = .next t) :
    2 ≤ s.heap.length ∧ s.nextIdx < 2 * s.cfg.maxAlphabet - 1 ∧
    ∃ a b heap root phase, a ∈ s.heap ∧ b ∈ s.heap ∧ a ≠ b ∧
      (∀ i ∈ s.heap, i ≠ a → keyLt s.arena a i = true) ∧
      (∀ i ∈ s.heap, i ≠ a → i ≠ b → keyLt s.arena b i = true) ∧
      s.nextIdx ∉ (s.heap.filter (fun i => i != a)).filter (fun i => i != b) ∧
      heap = Sorted.put id s.nextIdx ((s.heap.filter (fun i => i != a)).filter (fun i => i != b)) ∧
      t = { s with
        arena := Sorted.put Prod.fst (s.nextIdx, mergedNode s.arena a b) s.arena
        nextIdx := s.nextIdx + 1
        heap := heap
        root := root
        phase := phase } ∧
      ((heap.length = 1 ∧ (∃ r ∈ heap, root = some r) ∧ phase = Phase.codeBuild) ∨
        (heap.length ≠ 1 ∧ root = s.root ∧ phase = s.phase)) := by
  have h : execTreeMerge s = .next t := h
  unfold execTreeMerge at h
  split at h
  · cases h
  · next h2 =>
    have h2 : 2 ≤ s.heap.length := not_lt.1 h2
    rcases Act.andThen_next h with ⟨a, sa, hpa, hk⟩ | ⟨e, u, hu, _⟩
    · obtain ⟨hsa, ha, hla⟩ := heapPopMin_ok hpa
      rcases Act.andThen_next hk with ⟨b, sb, hpb, hk2⟩ | ⟨e, u, hu, _⟩
      · obtain ⟨hsb, hb, hlb⟩ := heapPopMin_ok hpb
        subst hsa
        subst hsb
        split at hk2
        · cases hk2
        · next hidx =>
          refine ⟨h2, not_le.1 hidx, a, b, ?_⟩
          have hb' := List.mem_filter.1 hb
          have hab : a ≠ b := fun hab => by simp [hab] at hb'
          rcases heapPush_cases s.nextIdx
              { ({ ({ s with heap := s.heap.filter (fun i => i != a) } : State) with
                  heap := (s.heap.filter (fun i => i != a)).filter (fun i => i != b) } :
                  State).arenaPut s.nextIdx (mergedNode s.arena a b) with
                nextIdx := s.nextIdx + 1 } with ⟨_, hni, he⟩ | ⟨_, _, he⟩ | ⟨_, he⟩
          all_goals
            rcases Act.andThen_next hk2 with ⟨_, sc, hc, hk3⟩ | ⟨e, u, hu, _⟩
          · cases he.symm.trans hc
            have hlb' : ∀ i ∈ s.heap, i ≠ a → i ≠ b → keyLt s.arena b i = true :=
              fun i hi hia hib => hlb i (List.mem_filter.2 ⟨hi, by simpa using hia⟩) hib
            split at hk3
            · next h1 =>
              rcases Act.andThen_next hk3 with ⟨r, v, hv, hk4⟩ | ⟨e, u, hu, _⟩
              · obtain ⟨rfl, hr, _⟩ := heapPeek_ok hv
                injection hk4 with hk4
                exact ⟨_, some r, Phase.codeBuild, ha, hb'.1, hab, hla, hlb', hni, rfl, hk4.symm,
                  .inl ⟨h1, ⟨r, hr, rfl⟩, rfl⟩⟩
              · exact absurd hu (heapPeek_never_raises _ _ _)
            · next h1 =>
              injection hk3 with hk3
              exact ⟨_, s.root, s.phase, ha, hb'.1, hab, hla, hlb', hni, rfl, hk3.symm,
                .inr ⟨h1, rfl, rfl⟩⟩
          · cases he.symm.trans hu
          · cases he.symm.trans hc
          · cases he.symm.trans hu
          · cases he.symm.trans hc
          · cases he.symm.trans hu
      · exact absurd hu (heapPopMin_never_raises _ _ _)
    · exact absurd hu (heapPopMin_never_raises _ _ _)

/-! ### The step -/

theorem unreachable_none_iff :
    s.unreachable = none ↔ s.phase.toNat ≤ 0x10 ∧ s.errCode ≠ 7#3 := by
  unfold State.unreachable Phase.reserved
  have hp : (Phase.error.ult s.phase = true) ↔ 0x10 < s.phase.toNat := by
    simp [BitVec.ult]
  split
  · next h => rw [hp] at h; simp; omega
  · next h =>
    rw [hp] at h
    split <;> simp_all

/-- The ways a step answers a next state, each with the move it takes: the engine's operation or,
under RST, none; a host operation; an access without effect; a change of RST. -/
theorem step_next (h : step s = .next t) :
    (s.phase.toNat ≤ 0x10 ∧ s.errCode ≠ 7#3) ∧ ∃ ts, ∃ u : State, u = { s with turns := ts } ∧
      (((s.turns = [] ∨ s.turns = .engine :: ts) ∧ s.rst = true ∧ t = u) ∨
        ((s.turns = [] ∨ s.turns = .engine :: ts) ∧ s.rst = false ∧
          ∃ i, decodePhase s.phase = .ok i ∧ exec i u = .next t) ∨
        (s.rst = false ∧ ∃ a i, s.turns = .host a :: ts ∧ decodeAccess a = .ok i ∧
          exec i u = .next t) ∨
        (∃ a, s.turns = .host a :: ts ∧ t = u.noEffect a.dir) ∨
        (∃ level, s.turns = .rst level :: ts ∧ t = u.setRst level)) := by
  have h : nextMove s = .next t := h
  unfold nextMove at h
  split at h
  · cases h
  · next hu =>
    refine ⟨unreachable_none_iff.1 hu, ?_⟩
    have engine (u : State) (hru : u.rst = s.rst) (hpu : u.phase = s.phase)
        (he : engineTurn u = .next t) :
        (s.rst = true ∧ t = u) ∨
          (s.rst = false ∧ ∃ i, decodePhase s.phase = .ok i ∧ exec i u = .next t) := by
      unfold engineTurn at he
      rw [hru, hpu] at he
      split at he
      · next hr => exact .inl ⟨hr, by injection he with he; exact he.symm⟩
      · next hr =>
        split at he
        · next i hi => exact .inr ⟨by simpa using hr, i, hi, he⟩
        · cases he
    split at h
    · next hts =>
      refine ⟨s.turns, s, rfl, ?_⟩
      rcases engine s rfl rfl h with h | h
      · exact .inl ⟨.inl hts, h⟩
      · exact .inr (.inl ⟨.inl hts, h⟩)
    · next tn ts hts =>
      refine ⟨ts, _, rfl, ?_⟩
      unfold move at h
      split at h
      · rcases engine { s with turns := ts } rfl rfl h with h | h
        · exact .inl ⟨.inr hts, h⟩
        · exact .inr (.inl ⟨.inr hts, h⟩)
      · next a =>
        unfold hostTurn at h
        split at h
        · injection h with h
          exact .inr (.inr (.inr (.inl ⟨a, hts, h.symm⟩)))
        · next hr =>
          split at h
          · next i hi => exact .inr (.inr (.inl ⟨by simpa using hr, a, i, hts, hi, h⟩))
          · injection h with h
            exact .inr (.inr (.inr (.inl ⟨a, hts, h.symm⟩)))
      · next level =>
        injection h with h
        exact .inr (.inr (.inr (.inr ⟨level, hts, h.symm⟩)))

end Sys2Proof.Machine
end

