-- ==== Sys2Proof/Laws/PerInstr.lean ====
section
/-! SUPPORT. What is said of every instruction as syntax, one lemma per constructor. -/

/-- The encoder gives as many bytes as the instruction's format takes (log 7). -/
def Sys2Proof.Laws.EncodeLength.Statement (i : Sys2Proof.Instr) : Prop :=
  (Sys2Proof.encode i).2.length = (Sys2Proof.encode i).1.length

namespace Sys2Proof.Laws.EncodeLength

theorem start : Statement .start := rfl

theorem clear : Statement .clear := rfl

theorem idle : Statement .idle := rfl

theorem hdrDeclen : Statement .hdrDeclen := rfl

theorem hdrReserved : Statement .hdrReserved := rfl

theorem hdrCount : Statement .hdrCount := rfl

theorem hdrPair : Statement .hdrPair := rfl

theorem treeSeed : Statement .treeSeed := rfl

theorem treeMerge : Statement .treeMerge := rfl

theorem codeBuild : Statement .codeBuild := rfl

theorem trlPbits : Statement .trlPbits := rfl

theorem trlPbytes : Statement .trlPbytes := rfl

theorem trlUnpacked : Statement .trlUnpacked := rfl

theorem payload : Statement .payload := rfl

theorem decSingle : Statement .decSingle := rfl

theorem decBit : Statement .decBit := rfl

theorem decEnd : Statement .decEnd := rfl

theorem done : Statement .done := rfl

theorem error : Statement .error := rfl

theorem regRd32 (r : BitVec 12) : Statement (.regRd32 r) := rfl

theorem regWr32 (r : BitVec 12) (v : Word) : Statement (.regWr32 r v) := rfl

theorem inRd8 (a : BitVec 30) : Statement (.inRd8 a) := rfl

theorem inRd32 (a : BitVec 30) : Statement (.inRd32 a) := rfl

theorem inWr8 (a : BitVec 30) (v : Byte) : Statement (.inWr8 a v) := rfl

theorem inWr32 (a : BitVec 30) (v : Word) : Statement (.inWr32 a v) := rfl

theorem outRd32 (i : BitVec 29) : Statement (.outRd32 i) := rfl

end Sys2Proof.Laws.EncodeLength
end

