-- ==== Sys2Proof/Machine/Script.lean ====
section
/-! DEFINITION. The host-script notation (30_encoding.md R124–R128): statements and their expansion into turns. -/

namespace Sys2Proof.Machine

/-- The turns of a 32-bit host write, an 8-bit host write, a 32-bit host read, an 8-bit host read
(30_encoding.md R124). What a read returned stands in `rdData`. -/
def wr32 (off v : Word) : Turn := .host ⟨.write, 32, off, v⟩

def wr8 (off : Word) (v : Byte) : Turn := .host ⟨.write, 8, off, v.setWidth 32⟩

def rd32 (off : Word) : Turn := .host ⟨.read, 32, off, 0#32⟩

def rd8 (off : Word) : Turn := .host ⟨.read, 8, off, 0#32⟩

/-- `IN+a` (30_encoding.md R124), for `a` inside the IN region; past 32 bits the offset keeps its low
bits (DESIGN CHOICE log 20). -/
def inAt (a : Nat) : Word := BitVec.ofNat 32 (0x40000000 + a)

/-- `OUT+4i` (30_encoding.md R124), for `i` inside the OUT region; past 32 bits the offset keeps its low
bits (DESIGN CHOICE log 20). -/
def outAt (i : Nat) : Word := BitVec.ofNat 32 (0x80000000 + 4 * i)

/-- `WRIN a, bytes` (30_encoding.md R125): a 32-bit write for every aligned group of four bytes, an
8-bit write for every other byte. R125 gives no order among these writes when `a` is not a multiple
of 4; the model takes them by rising address (DESIGN CHOICE log 19). -/
def wrin (a : Nat) : List Byte → List Turn
  | [] => []
  | b0 :: b1 :: b2 :: b3 :: rest =>
    if a % 4 = 0 then wr32 (inAt a) (wordOf b0 b1 b2 b3) :: wrin (a + 4) rest
    else wr8 (inAt a) b0 :: wrin (a + 1) (b1 :: b2 :: b3 :: rest)
  | b :: rest => wr8 (inAt a) b :: wrin (a + 1) rest

/-- Go on with the answer of a run; a stop stays a stop. -/
def runThen {α β : Type} (o : Host.Outcome α Fault Refusal)
    (k : α → Host.Outcome β Fault Refusal) : Host.Outcome β Fault Refusal :=
  match o with
  | .next a => k a
  | .fault f => .fault f
  | .refused r => .refused r

/-- A script's turns taken one after another (30_encoding.md R128): the end state is the state after
the last one. Turns of `s` still to come wait behind them. -/
def runTurns : List Turn → State → Host.Outcome State Fault Refusal
  | [], s => .next s
  | t :: ts, s => runThen (step { s with turns := t :: s.turns }) (runTurns ts)

/-- How far a POLL has come (30_encoding.md R126). -/
structure Poll where
  /-- The turns taken: the expansion so far, and the engine's turns between its reads. -/
  turns : List Turn
  /-- The result, the last value read; none while every read so far returned bit 8 = 1, or none has
  been made, so that the POLL goes on. -/
  result : Option Word
  /-- The state after the turns taken. -/
  state : State
  deriving DecidableEq, Repr

/-- One `RD32 STATUS` of a POLL, after `g` turns of the engine. -/
def pollRead (g : Nat) : List Turn := List.replicate g .engine ++ [rd32 (regOff 0x008#12)]

/-- `POLL` (30_encoding.md R126): `RD32 STATUS` again and again, until a read returns bit 8 (BUSY)
equal to 0; the value of that read is the result. The interleaving is open (40_step.md R143), so it
is an argument: the engine takes `g` turns before the next read, for each `g` of `gaps`. Entries
after the read that ends the POLL are not used; with no entry left it has not ended. -/
def poll : List Nat → State → Host.Outcome Poll Fault Refusal
  | [], s => .next ⟨[], none, s⟩
  | g :: gs, s =>
    runThen (runTurns (pollRead g) s) fun t =>
      if t.rdData.getLsbD 8 then
        runThen (poll gs t) fun p => .next { p with turns := pollRead g ++ p.turns }
      else .next ⟨pollRead g, some t.rdData, t⟩

/-- The turns of `DECODE buf, ctrl` before its POLL (30_encoding.md R127). A `|buf|` past 32 bits, which
no IN holds, is written in its low bits (DESIGN CHOICE log 20). -/
def decodeStart (buf : List Byte) (ctrl : Word) : List Turn :=
  wr32 (regOff 0x000#12) ctrl :: wrin 0 buf ++
    [wr32 (regOff 0x00C#12) (BitVec.ofNat 32 buf.length), wr32 (regOff cmdOffset) 1#32]

/-- `DECODE buf, ctrl` (30_encoding.md R127) from a state that is not busy, as R127 requires, its
POLL under `gaps`. -/
def decodeScript (buf : List Byte) (ctrl : Word) (gaps : List Nat) (s : State) :
    Host.Outcome Poll Fault Refusal :=
  runThen (runTurns (decodeStart buf ctrl) s) fun t =>
    runThen (poll gaps t) fun p => .next { p with turns := decodeStart buf ctrl ++ p.turns }

/-! ### Scripts (30_encoding.md R124, R128) -/

/-- The statements of a host script (30_encoding.md R124–R127). `rd32 off v` is `RD32 off -> v`, and
`rd8 off v` is `RD8 off -> v`: the script asserts that the read returns `v`. -/
inductive Statement where
  | wr32 (off v : Word)
  | wr8 (off : Word) (v : Byte)
  | rd32 (off v : Word)
  | rd8 (off : Word) (v : Byte)
  | wrin (a : Nat) (bytes : List Byte)
  | poll
  | decode (buf : List Byte) (ctrl : Word)
  deriving DecidableEq, Repr

/-- What a statement expands to: an access, with the value the script asserts that it returns if it
is an asserting read, or a POLL, whose length depends on what it reads. -/
inductive Item where
  | access (t : Turn) (expect : Option Word)
  | poll
  deriving DecidableEq, Repr

/-- The expansion of a statement (30_encoding.md R124–R127). -/
def Statement.items : Statement → List Item
  | .wr32 off v => [.access (Machine.wr32 off v) none]
  | .wr8 off v => [.access (Machine.wr8 off v) none]
  | .rd32 off v => [.access (Machine.rd32 off) (some v)]
  | .rd8 off v => [.access (Machine.rd8 off) (some (v.setWidth 32))]
  | .wrin a bytes => (Machine.wrin a bytes).map fun t => .access t none
  | .poll => [.poll]
  | .decode buf ctrl => (decodeStart buf ctrl).map (fun t => Item.access t none) ++ [.poll]

/-- How far a script has come. -/
structure ScriptRun where
  /-- The turns taken. -/
  turns : List Turn
  /-- Every read so far returned what the script asserts (30_encoding.md R124). -/
  holds : Bool
  /-- The last item ended; a POLL that has not ended holds the script up. -/
  ended : Bool
  /-- The state after the turns taken. -/
  state : State
  deriving DecidableEq, Repr

/-- The value a read returned is the one asserted; without an assertion, any is. -/
def asserted (expect : Option Word) (v : Word) : Bool :=
  match expect with
  | none => true
  | some w => v == w

/-- One item under an interleaving: the engine takes the first of `gaps` turns before an access (none
if there is none), and a POLL reads under `gaps`. -/
def runItem (gaps : List Nat) (i : Item) (s : State) : Host.Outcome ScriptRun Fault Refusal :=
  match i with
  | .access t expect =>
    let ts := List.replicate (gaps.headD 0) .engine ++ [t]
    runThen (runTurns ts s) fun u => .next ⟨ts, asserted expect u.rdData, true, u⟩
  | .poll => runThen (poll gaps s) fun p => .next ⟨p.turns, true, p.result.isSome, p.state⟩

/-- The items one after another, each under its own interleaving, up to a POLL that has not ended. -/
def runItems : List (List Nat) → List Item → State → Host.Outcome ScriptRun Fault Refusal
  | _, [], s => .next ⟨[], true, true, s⟩
  | gaps, i :: is, s =>
    runThen (runItem (gaps.headD []) i s) fun p =>
      if p.ended then
        runThen (runItems gaps.tail is p.state) fun q =>
          .next ⟨p.turns ++ q.turns, p.holds && q.holds, q.ended, q.state⟩
      else .next p

/-- A host script run from its start state under an interleaving, one list for each item
(30_encoding.md R124, R128; 40_step.md R143). -/
def runScript (gaps : List (List Nat)) (script : List Statement) (s : State) :
    Host.Outcome ScriptRun Fault Refusal :=
  runItems gaps (script.flatMap Statement.items) s

/-- The encoding of a script's run: its bus transactions (30_encoding.md R128). -/
def transactions (ts : List Turn) : List BusAccess :=
  ts.filterMap fun t =>
    match t with
    | .host a => some a
    | .engine => none
    | .rst _ => none

end Sys2Proof.Machine
end

