-- ==== Sys2Proof/Laws/Script.lean ====
section
/-! SUPPORT. What a run of turns is, and what a POLL that ends has done. -/

namespace Sys2Proof.Machine

/-- A run that goes on answered, and what followed answered. -/
theorem runThen_next {α β : Type} {o : Host.Outcome α Fault Refusal}
    {k : α → Host.Outcome β Fault Refusal} {b : β} (h : runThen o k = .next b) :
    ∃ a, o = .next a ∧ k a = .next b := by
  cases o with
  | next a => exact ⟨a, rfl, h⟩
  | fault f => cases h
  | refused r => cases h

@[simp] theorem runThen_of_next {α β : Type} (a : α) (k : α → Host.Outcome β Fault Refusal) :
    runThen (.next a) k = k a := rfl

theorem runTurns_append (ts us : List Turn) (s : State) :
    runTurns (ts ++ us) s = runThen (runTurns ts s) (runTurns us) := by
  induction ts generalizing s with
  | nil => rfl
  | cons t ts ih =>
    simp only [List.cons_append, runTurns]
    cases step { s with turns := t :: s.turns } <;> simp [runThen, ih]

/-- A read with bit 8 = 0 ends the POLL (30_encoding.md R126). -/
theorem poll_cons_of_ready {g : Nat} {gs : List Nat} {s t : State}
    (h : runTurns (pollRead g) s = .next t) (hb : t.rdData.getLsbD 8 = false) :
    poll (g :: gs) s = .next ⟨pollRead g, some t.rdData, t⟩ := by
  rw [poll, h, runThen_of_next, if_neg (Bool.not_eq_true _ ▸ hb)]

/-- After a read with bit 8 = 1 the POLL goes on (30_encoding.md R126). -/
theorem poll_cons_of_busy {g : Nat} {gs : List Nat} {s t : State}
    (h : runTurns (pollRead g) s = .next t) (hb : t.rdData.getLsbD 8 = true) :
    poll (g :: gs) s =
      runThen (poll gs t) fun p => .next { p with turns := pollRead g ++ p.turns } := by
  rw [poll, h, runThen_of_next, if_pos hb]

/-- A POLL's turns lead from its start to its state. If it has a result, that is the value of its
last read, with bit 8 = 0; if it has none, it took every entry and its last read had bit 8 = 1. -/
theorem poll_next {gaps : List Nat} {s : State} {p : Poll} (h : poll gaps s = .next p) :
    runTurns p.turns s = .next p.state ∧
    (∀ v, p.result = some v → v = p.state.rdData ∧ v.getLsbD 8 = false) ∧
    (p.result = none → p.turns = gaps.flatMap pollRead ∧
      (gaps ≠ [] → p.state.rdData.getLsbD 8 = true)) := by
  induction gaps generalizing s p with
  | nil => cases h; simp [runTurns]
  | cons g gs ih =>
    obtain ⟨t, ht, h⟩ := runThen_next h
    split at h
    · next hb =>
      obtain ⟨q, hq, h⟩ := runThen_next h
      cases h
      obtain ⟨hr, hv, hn⟩ := ih hq
      refine ⟨by simp [runTurns_append, ht, hr], hv, fun hnone => ?_⟩
      obtain ⟨hts, hlast⟩ := hn hnone
      refine ⟨by simp [hts], fun _ => ?_⟩
      cases gs with
      | nil => cases hq; exact hb
      | cons g' gs' => exact hlast (by simp)
    · next hb => cases h; simp_all

/-- A POLL that has ended is the same whatever would have followed. -/
theorem poll_ended_append {gaps more : List Nat} {s : State} {p : Poll}
    (h : poll gaps s = .next p) (hp : p.result ≠ none) : poll (gaps ++ more) s = .next p := by
  induction gaps generalizing s p with
  | nil => cases h; exact absurd rfl hp
  | cons g gs ih =>
    simp only [List.cons_append, poll] at h ⊢
    obtain ⟨t, ht, h⟩ := runThen_next h
    rw [ht, runThen_of_next]
    split at h
    · next hb =>
      obtain ⟨q, hq, h⟩ := runThen_next h
      cases h
      simp [hb, ih hq hp]
    · next hb => rw [if_neg hb, h]

/-! ### Scripts -/

/-- An item's turns lead from its start to its state. -/
theorem runItem_next {gaps : List Nat} {i : Item} {s : State} {p : ScriptRun}
    (h : runItem gaps i s = .next p) : runTurns p.turns s = .next p.state := by
  cases i with
  | access t expect =>
    obtain ⟨u, hu, h⟩ := runThen_next h
    cases h
    exact hu
  | poll =>
    obtain ⟨q, hq, h⟩ := runThen_next h
    cases h
    exact (poll_next hq).1

/-- A read holds exactly when it returned what the script asserts (30_encoding.md R124). -/
theorem runItem_read_holds {gaps : List Nat} {t : Turn} {v : Word} {s : State} {p : ScriptRun}
    (h : runItem gaps (.access t (some v)) s = .next p) : p.holds = true ↔ p.state.rdData = v := by
  obtain ⟨u, _, h⟩ := runThen_next h
  cases h
  simp [asserted]

/-- A script's turns lead from its start state to its end state (30_encoding.md R128). -/
theorem runItems_next {gaps : List (List Nat)} {is : List Item} {s : State} {p : ScriptRun}
    (h : runItems gaps is s = .next p) : runTurns p.turns s = .next p.state := by
  induction is generalizing gaps s p with
  | nil => cases h; rfl
  | cons i is ih =>
    obtain ⟨q, hq, h⟩ := runThen_next h
    split at h
    · obtain ⟨r, hr, h⟩ := runThen_next h
      cases h
      simp [runTurns_append, runItem_next hq, ih hr]
    · cases h; exact runItem_next hq

end Sys2Proof.Machine
end

