-- ==== Sys2Proof/Laws/Steps.lean ====
section
/-! SUPPORT. What a step can be, operation by operation: the phase table, what a host operation can leave, and the one induction every invariant goes through. -/

namespace Sys2Proof.Machine

variable {s t : State}

/-! ### What decodes -/

/-- The phase table of 30_encoding.md R118. -/
def phaseTable : List (BitVec 5 × Instr) :=
  [(0x00, .idle), (0x01, .hdrDeclen), (0x02, .hdrReserved), (0x03, .hdrCount), (0x04, .hdrPair),
    (0x05, .treeSeed), (0x06, .treeMerge), (0x07, .codeBuild), (0x08, .trlPbits),
    (0x09, .trlPbytes), (0x0A, .trlUnpacked), (0x0B, .payload), (0x0C, .decSingle),
    (0x0D, .decBit), (0x0E, .decEnd), (0x0F, .done), (0x10, .error)]

/-- A PHASE code and its operation are a row of the table. -/
theorem decodePhase_mem {p : BitVec 5} {i : Instr} (h : decodePhase p = .ok i) :
    (p, i) ∈ phaseTable := by
  have hall : ∀ q : BitVec 5, (match decodePhase q with
      | .ok i => decide ((q, i) ∈ phaseTable)
      | .error _ => true) = true := by decide
  have := hall p
  rw [h] at this
  exact of_decide_eq_true this

/-- What an access can decode to: a write to CMD of a command value is never a register write. -/
theorem decodeAccess_ok {a : BusAccess} {i : Instr} (h : decodeAccess a = .ok i) :
    i = .start ∨ i = .clear ∨ (∃ r, i = .regRd32 r) ∨
    (∃ r v, i = .regWr32 r v ∧ (r = cmdOffset → v ≠ 1#32 ∧ v ≠ 2#32)) ∨
    (∃ a, i = .inRd8 a) ∨ (∃ a, i = .inRd32 a) ∨ (∃ a v, i = .inWr8 a v) ∨
    (∃ a v, i = .inWr32 a v) ∨ ∃ j, i = .outRd32 j := by
  have cmd (v : Word) : decodeCmd v = .ok .start ∨ decodeCmd v = .ok .clear ∨
      (v ≠ 1#32 ∧ v ≠ 2#32 ∧ decodeCmd v = .error .reservedCommand) := by
    unfold decodeCmd
    repeat' split
    all_goals simp_all
  unfold decodeAccess at h
  split at h
  · unfold decodeReg at h
    dsimp only at h
    split at h
    · cases h
    · split at h
      · cases h
      · split at h
        · cases h; simp
        · split at h
          · rcases cmd a.data with hc | hc | ⟨h1, h2, hc⟩ <;> rw [hc] at h <;> cases h <;> simp_all
          · next hc => cases h; simp [hc]
  · split at h
    · unfold decodeIn at h
      dsimp only at h
      repeat' split at h
      all_goals cases h; try simp
    · split at h
      · unfold decodeOut at h
        repeat' split at h
        all_goals cases h; try simp
      · cases h

/-! ### The operations without a case distinction -/

theorem exec_idle_next (h : exec .idle s = .next t) : t = s := by injection h with h; exact h.symm

theorem exec_done_next (h : exec .done s = .next t) : t = s := by injection h with h; exact h.symm

theorem exec_error_next (h : exec .error s = .next t) : t = s := by injection h with h; exact h.symm

theorem afterPair_cases (h : s.pairsLeft ≠ 0#32) :
    (s.pairsLeft = 1#32 ∧ afterPair s = { s with pairsLeft := 0#32, phase := Phase.treeSeed }) ∨
    (1 < s.pairsLeft.toNat ∧ afterPair s = { s with pairsLeft := s.pairsLeft - 1#32 }) := by
  unfold afterPair State.pairsLeftAfter
  rw [if_neg h]
  have hone : s.pairsLeft - 1#32 = 0#32 ↔ s.pairsLeft = 1#32 := by
    rw [BitVec.sub_eq_iff_eq_add]; simp
  simp only [hone]
  split
  · next h1 => exact .inl ⟨h1, rfl⟩
  · next h1 =>
    have h0 : s.pairsLeft.toNat ≠ 0 := fun hc => h (BitVec.eq_of_toNat_eq hc)
    have h2 : s.pairsLeft.toNat ≠ 1 := fun hc => h1 (BitVec.eq_of_toNat_eq hc)
    exact .inr ⟨by omega, rfl⟩

theorem payloadNext_cases (s : State) :
    (s.alpha = 1#32 ∧ s.unpacked = 0#32 ∧ payloadNext s = { s with phase := Phase.done }) ∨
    (s.alpha = 1#32 ∧ s.unpacked ≠ 0#32 ∧ payloadNext s = { s with phase := Phase.decSingle }) ∨
    (s.alpha ≠ 1#32 ∧ 8 * s.pBytes.toNat < s.pBits.toNat ∧
      payloadNext s = s.raise .outOfData Phase.payload) ∨
    (s.alpha ≠ 1#32 ∧ s.pBits.toNat ≤ 8 * s.pBytes.toNat ∧ s.pBits = 0#32 ∧
      payloadNext s = { s with phase := Phase.decEnd }) ∨
    (s.alpha ≠ 1#32 ∧ s.pBits.toNat ≤ 8 * s.pBytes.toNat ∧ s.pBits ≠ 0#32 ∧
      payloadNext s = { s with phase := Phase.decBit }) := by
  unfold payloadNext
  repeat' split
  all_goals simp_all

/-- An allowed bit read moves BITPOS without wrapping. -/
theorem toNat_bitPos_succ (h : s.bitReadable s.bitPos.toNat) :
    (s.bitPos + 1#32).toNat = s.bitPos.toNat + 1 := by
  have := h.1
  have := s.pBits.isLt
  simp only [BitVec.toNat_add, BitVec.toNat_ofNat]
  omega

/-! ### Host operations -/

theorem ite_ne {α : Type} {z : α} (p : Prop) [Decidable p] {x y : α} (hx : x ≠ z) (hy : y ≠ z) :
    (if p then x else y) ≠ z := by
  split
  · exact hx
  · exact hy

theorem regAt_inLen {r : BitVec 12} (h : regAt r = some .inLen) : r = 0x00C#12 := by
  by_contra hc
  refine absurd h ?_
  unfold regAt
  repeat first | rw [if_neg hc] | refine ite_ne _ (by decide) ?_
  decide

theorem regAt_cmd {r : BitVec 12} (h : regAt r = some .cmd) : r = cmdOffset := by
  by_contra hc
  refine absurd h ?_
  unfold regAt
  rw [if_neg (show ¬ r = 0x004#12 from hc)]
  repeat refine ite_ne _ (by decide) ?_
  decide

/-- What a host operation can leave. -/
theorem host_next {a : BusAccess} {i : Instr} (hd : decodeAccess a = .ok i)
    (h : exec i s = .next t) :
    (∃ v, t = s.respond v) ∨ t = s ∨
    (i = .start ∧ s.busy = false ∧ t = s.restart Phase.hdrDeclen) ∨
    (i = .clear ∧ t = s.restart Phase.idle) ∨ (∃ v, t = s.writeCtrl v) ∨
    (∃ v, i = .regWr32 0x00C#12 v ∧ t = s.writeInLen v) ∨
    (s.busy = false ∧ ∃ a v, a < s.cfg.inSize ∧ t = s.putInByte a v) ∨
    (s.busy = false ∧ ∃ a v, a + 3 < s.cfg.inSize ∧ t = s.putInWord a v) := by
  have start {t} (h : t = s.cmdStart) : t = s ∨ (s.busy = false ∧ t = s.restart Phase.hdrDeclen) := by
    unfold State.cmdStart at h
    split at h <;> simp_all
  rcases decodeAccess_ok hd with rfl | rfl | ⟨r, rfl⟩ | ⟨r, v, rfl, hcmd⟩ | ⟨b, rfl⟩ | ⟨b, rfl⟩ |
    ⟨b, v, rfl⟩ | ⟨b, v, rfl⟩ | ⟨j, rfl⟩
  all_goals injection h with h
  · rcases start h.symm with h | h <;> simp [h]
  · simp [← h, State.cmdClear]
  · exact .inl ⟨_, h.symm⟩
  · unfold State.regWrite at h
    split at h
    · exact .inr (.inr (.inr (.inr (.inl ⟨_, h.symm⟩))))
    · next hr =>
      have hr : r = cmdOffset := regAt_cmd hr
      simp [State.writeCmd, hcmd hr] at h
      simp [h]
    · next hr => exact .inr (.inr (.inr (.inr (.inr (.inl ⟨v, by rw [regAt_inLen hr], h.symm⟩)))))
    · simp [h]
    · simp [h]
  · exact .inl ⟨_, h.symm⟩
  · exact .inl ⟨_, h.symm⟩
  · split at h
    · next hc => exact .inr (.inr (.inr (.inr (.inr (.inr (.inl ⟨hc.1, _, _, hc.2, h.symm⟩))))))
    · simp [h]
  · split at h
    · next hc =>
      exact .inr (.inr (.inr (.inr (.inr (.inr (.inr ⟨hc.1, _, _, hc.2.2, h.symm⟩))))))
    · simp [h]
  · exact .inl ⟨_, h.symm⟩

/-! ### Invariants -/

/-- The induction every invariant goes through: what each kind of update must keep for a step to
keep it. -/
theorem step_keeps {Inv : State → Prop}
    (turns : ∀ s ts, Inv s → Inv { s with turns := ts })
    (engine : ∀ s t i, Inv s → s.phase.toNat ≤ 0x10 ∧ s.errCode ≠ 7#3 → decodePhase s.phase = .ok i →
      exec i s = .next t → Inv t)
    (respond : ∀ s v, Inv s → Inv (s.respond v))
    (start : ∀ s, Inv s → s.busy = false → Inv (s.restart Phase.hdrDeclen))
    (clear : ∀ s, Inv s → Inv (s.restart Phase.idle))
    (ctrl : ∀ s v, Inv s → Inv (s.writeCtrl v))
    (inLen : ∀ s v, Inv s → Inv (s.writeInLen v))
    (inByte : ∀ s a v, Inv s → s.busy = false → a < s.cfg.inSize → Inv (s.putInByte a v))
    (rst : ∀ s l, Inv s → Inv (s.setRst l)) (hi : Inv s) (h : step s = .next t) : Inv t := by
  obtain ⟨hl, ts, u, hu, hc⟩ := step_next h
  have hiu : Inv u := hu ▸ turns s ts hi
  rcases hc with ⟨_, _, rfl⟩ | ⟨_, _, i, hd, he⟩ | ⟨_, a, i, _, hd, he⟩ | ⟨a, _, rfl⟩ |
    ⟨l, _, rfl⟩
  · exact hiu
  · exact engine u t i hiu (by rw [hu]; exact hl) (by rw [hu]; exact hd) he
  · rcases host_next hd he with ⟨v, rfl⟩ | rfl | ⟨_, hb, rfl⟩ | ⟨_, rfl⟩ | ⟨v, rfl⟩ | ⟨v, _, rfl⟩ |
      ⟨hb, b, v, hlt, rfl⟩ | ⟨hb, b, v, hlt, rfl⟩
    · exact respond _ _ hiu
    · exact hiu
    · exact start _ hiu hb
    · exact clear _ hiu
    · exact ctrl _ _ hiu
    · exact inLen _ _ hiu
    · exact inByte _ _ _ hiu hb hlt
    · unfold State.putInWord
      refine inByte _ _ _ (inByte _ _ _ (inByte _ _ _ (inByte _ _ _ hiu hb ?_) hb ?_) hb ?_) hb ?_
      all_goals try simp only [State.putInByte_cfg]
      all_goals omega
  · cases a.dir
    · exact respond _ _ hiu
    · exact hiu
  · exact rst _ _ hiu

end Sys2Proof.Machine
end

