-- ==== Sys2Proof/Laws/System.lean ====
section
/-! SUPPORT. What a system of instances is out of reset, and what one move of it can be. -/

namespace Sys2Proof.Machine

@[simp] theorem systemReset_length (n : Nat) : (systemReset n).length = n := by simp [systemReset]

/-- Place `k` of a system out of reset. -/
theorem systemReset_getElem?_eq_some {n k : Nat} {s : State} :
    (systemReset n)[k]? = some s ↔ k < n ∧ s = State.resetWith Config.params k 0 := by
  by_cases h : k < n
  · simp [systemReset, h, eq_comm]
  · simp [systemReset, h]

/-- A move of a system is none, where it names no instance, or a step of the instance it names. -/
theorem systemStep_next {k : Nat} {sys sys' : List State} (h : systemStep k sys = .next sys') :
    (sys[k]? = none ∧ sys' = sys) ∨
    ∃ s t, sys[k]? = some s ∧ step s = .next t ∧ sys' = sys.set k t := by
  unfold systemStep at h
  split at h
  · next hk => injection h with h; exact .inl ⟨hk, h.symm⟩
  · next s hk =>
    split at h
    · next t ht => injection h with h; exact .inr ⟨s, t, hk, ht, h.symm⟩
    · cases h
    · cases h

end Sys2Proof.Machine
end

