-- ==== Sys2Proof/Laws/Words.lean ====
section
/-! SUPPORT. Words and their bytes, alignment, and the offsets of the three regions: each law said once. -/

namespace Sys2Proof

/-- A word as the number its bytes give, the first byte least significant. -/
theorem toNat_wordOf (b0 b1 b2 b3 : Byte) :
    (wordOf b0 b1 b2 b3).toNat =
      b0.toNat + b1.toNat * 2 ^ 8 + b2.toNat * 2 ^ 16 + b3.toNat * 2 ^ 24 := by
  have h0 := b0.isLt
  have h1 := b1.isLt
  have h2 := b2.isLt
  have h3 := b3.isLt
  simp only [wordOf, BitVec.toNat_append]
  rw [← Nat.shiftLeft_add_eq_or_of_lt h0, ← Nat.shiftLeft_add_eq_or_of_lt h1,
    ← Nat.shiftLeft_add_eq_or_of_lt h2]
  simp only [Nat.shiftLeft_eq]
  omega

/-- Byte `j` of a word, as a number. -/
theorem toNat_byte (w : Word) (j : Nat) : (w.extractLsb' (8 * j) 8).toNat = w.toNat / 2 ^ (8 * j) % 2 ^ 8 := by
  simp [BitVec.extractLsb'_toNat, Nat.shiftRight_eq_div_pow]

/-- A word is its four bytes. -/
theorem wordOf_bytes (w : Word) :
    wordOf (w.extractLsb' 0 8) (w.extractLsb' 8 8) (w.extractLsb' 16 8) (w.extractLsb' 24 8) = w := by
  apply BitVec.eq_of_toNat_eq
  have h0 := toNat_byte w 0
  have h1 := toNat_byte w 1
  have h2 := toNat_byte w 2
  have h3 := toNat_byte w 3
  have hw := w.isLt
  simp only [Nat.reduceMul] at h0 h1 h2 h3
  rw [toNat_wordOf, h0, h1, h2, h3]
  omega

/-- Alignment as the spec's tables say it (20_memory.md R81). -/
theorem aligned_iff {n : Nat} (off : BitVec n) : aligned off = true ↔ off.toNat % 4 = 0 := by
  simp only [aligned, beq_iff_eq]
  constructor
  · intro h
    have := congrArg BitVec.toNat h
    simpa [BitVec.extractLsb'_toNat] using this
  · intro h
    apply BitVec.eq_of_toNat_eq
    simpa [BitVec.extractLsb'_toNat] using h

/-- The offsets of 20_memory.md R80 as numbers. -/
theorem toNat_regOff (r : BitVec 12) : (regOff r).toNat = r.toNat := by
  have := r.isLt
  simp only [regOff, BitVec.toNat_append]
  rw [← Nat.shiftLeft_add_eq_or_of_lt this]
  simp

theorem toNat_inOff (a : BitVec 30) : (inOff a).toNat = 0x40000000 + a.toNat := by
  have := a.isLt
  simp only [inOff, BitVec.toNat_append]
  rw [← Nat.shiftLeft_add_eq_or_of_lt this]
  rfl

theorem toNat_outOff (i : BitVec 29) : (outOff i).toNat = 0x80000000 + 4 * i.toNat := by
  have := i.isLt
  simp only [outOff, BitVec.toNat_append]
  rw [← Nat.shiftLeft_add_eq_or_of_lt this, ← Nat.shiftLeft_add_eq_or_of_lt (by simp)]
  simp [Nat.shiftLeft_eq]
  omega

end Sys2Proof
end

