-- ==== Sys2Proof/Tests/Slice0.lean ====
section
/-! SUPPORT. Tests by the spec's own vectors (95_test_vectors.md), one step each, and for every obligation with hypotheses a state that meets them. -/

namespace Sys2Proof.Tests

open Sys2Proof.Machine

/-! ### Helpers -/

/-- The bytes of a buffer as cells of IN from address `a`. -/
def cells (a : Nat) : List Byte → List Host.Cell
  | [] => []
  | b :: bs => (a, b) :: cells (a + 1) bs

/-- An instance of 64 bytes of IN and 16 words of OUT, just after reset. -/
def s0 : State := State.resetWith ⟨64, 16, 256⟩ 0 0

/-- `s0` in phase `p` with a buffer in IN. -/
def withBuffer (p : BitVec 5) (bs : List Byte) : State :=
  { s0 with phase := p, inMem := cells 0 bs, inLen := BitVec.ofNat 32 bs.length }

/-- One field after one operation. -/
def after {α : Type} (i : Instr) (s : State) (f : State → α) : Option α :=
  match exec i s with
  | .next t => some (f t)
  | _ => none

/-- One field after one step. -/
def afterStep {α : Type} (s : State) (f : State → α) : Option α :=
  match step s with
  | .next t => some (f t)
  | _ => none

/-- The value a primitive gives and one field after it. -/
def given {α β : Type} (m : Act α) (f : State → β) : Option (α × β) :=
  match m with
  | .ok a t => some (a, f t)
  | _ => none

/-! ### Well-formedness (20_memory.md R81) -/

theorem test_wf_refuses_misaligned_reg_read : (Instr.regRd32 0x002#12).wf = false := by decide
theorem test_wf_refuses_misaligned_reg_write : (Instr.regWr32 0x00D#12 5#32).wf = false := by decide
theorem test_wf_refuses_start_as_reg_write : (Instr.regWr32 0x004#12 1#32).wf = false := by decide
theorem test_wf_refuses_clear_as_reg_write : (Instr.regWr32 0x004#12 2#32).wf = false := by decide
theorem test_wf_refuses_misaligned_in_read : (Instr.inRd32 1#30).wf = false := by decide
theorem test_wf_refuses_misaligned_in_write : (Instr.inWr32 6#30 0#32).wf = false := by decide
theorem test_wf_takes_the_rest :
    (Instr.regWr32 0x004#12 3#32).wf = true ∧ (Instr.regWr32 0x00C#12 1#32).wf = true ∧
    (Instr.inRd8 3#30).wf = true ∧ (Instr.inWr8 3#30 0#8).wf = true ∧
    (Instr.inRd32 0x3FFFFFFC#30).wf = true := by decide

/-! ### Decoding: every constructor from a word written out of the spec's tables -/

theorem test_decode_commands :
    decode .cmd [0x01#8, 0#8, 0#8, 0#8] = .ok (.start, []) ∧
    decode .cmd [0x02#8, 0#8, 0#8, 0#8] = .ok (.clear, []) := by decide
theorem test_decode_idle : decode .phase [0x00#8] = .ok (.idle, []) := by decide
theorem test_decode_header :
    decode .phase [0x01#8] = .ok (.hdrDeclen, []) ∧
    decode .phase [0x02#8] = .ok (.hdrReserved, []) ∧
    decode .phase [0x03#8] = .ok (.hdrCount, []) ∧
    decode .phase [0x04#8] = .ok (.hdrPair, []) := by decide
theorem test_decode_tree :
    decode .phase [0x05#8] = .ok (.treeSeed, []) ∧
    decode .phase [0x06#8] = .ok (.treeMerge, []) ∧
    decode .phase [0x07#8] = .ok (.codeBuild, []) := by decide
theorem test_decode_trailer :
    decode .phase [0x08#8] = .ok (.trlPbits, []) ∧
    decode .phase [0x09#8] = .ok (.trlPbytes, []) ∧
    decode .phase [0x0A#8] = .ok (.trlUnpacked, []) ∧
    decode .phase [0x0B#8] = .ok (.payload, []) := by decide
theorem test_decode_bits :
    decode .phase [0x0C#8] = .ok (.decSingle, []) ∧
    decode .phase [0x0D#8] = .ok (.decBit, []) ∧
    decode .phase [0x0E#8] = .ok (.decEnd, []) := by decide
theorem test_decode_ends :
    decode .phase [0x0F#8] = .ok (.done, []) ∧
    decode .phase [0x10#8] = .ok (.error, []) := by decide
theorem test_decode_reg_read :
    decode (.busRead 32) [0x44#8, 0x00#8, 0x00#8, 0x00#8] = .ok (.regRd32 0x044#12, []) := by decide
theorem test_decode_reg_write :
    decode (.busWrite 32) [0x0C#8, 0#8, 0#8, 0#8, 0x32#8, 0#8, 0#8, 0#8] =
      .ok (.regWr32 0x00C#12 50#32, []) := by decide
theorem test_decode_in_reads :
    decode (.busRead 8) [0x05#8, 0x00#8, 0x00#8, 0x40#8] = .ok (.inRd8 5#30, []) ∧
    decode (.busRead 32) [0x04#8, 0x01#8, 0x00#8, 0x40#8] = .ok (.inRd32 0x104#30, []) := by decide
theorem test_decode_in_writes :
    decode (.busWrite 8) [0x07#8, 0#8, 0#8, 0x40#8, 0xAA#8, 0x11#8, 0x22#8, 0x33#8] =
      .ok (.inWr8 7#30 0xAA#8, []) ∧
    decode (.busWrite 32) [0x08#8, 0#8, 0#8, 0x40#8, 0x01#8, 0x02#8, 0x03#8, 0x04#8] =
      .ok (.inWr32 8#30 0x04030201#32, []) := by decide
theorem test_decode_out_read :
    decode (.busRead 32) [0xFC#8, 0xFF#8, 0xFF#8, 0xFF#8] = .ok (.outRd32 0x1FFFFFFF#29, []) := by
  decide
theorem test_decode_start_as_write_to_CMD :
    decode (.busWrite 32) [0x04#8, 0#8, 0#8, 0#8, 0x01#8, 0#8, 0#8, 0#8] = .ok (.start, []) := by
  decide

theorem test_decode_rejects :
    decode .phase [0x11#8] = .error .reservedPhase ∧
    decode .phase [0x1F#8] = .error .reservedPhase ∧
    decode .cmd [0x01#8, 0x01#8, 0#8, 0#8] = .error .reservedCommand ∧
    decode (.busRead 32) [0x00#8, 0x10#8, 0x00#8, 0x00#8] = .error .unmapped ∧
    decode (.busRead 8) [0x08#8, 0x00#8, 0x00#8, 0x00#8] = .error .wrongWidth ∧
    decode (.busRead 32) [0x01#8, 0x00#8, 0x00#8, 0x40#8] = .error .misaligned ∧
    decode (.busWrite 32) [0#8, 0#8, 0#8, 0x80#8, 1#8, 0#8, 0#8, 0#8] = .error .outWrite ∧
    decode (.busRead 32) [0#8, 0#8, 0#8] = .error .truncated := by decide

/-- Words as spec/opcode_table.json numbers them: the match value of a row of each format, and one
with operand bits. -/
theorem test_table_words :
    decodeTableWord 32 0x00000001 = some .start ∧ decodeTableWord 32 0x00000002 = some .clear ∧
    decodeTableWord 8 0x0D = some .decBit ∧ decodeTableWord 8 0x11 = none ∧
    decodeTableWord 32 0x00000008 = some (.regRd32 0x008#12) ∧
    decodeTableWord 32 0x40000001 = some (.inRd8 1#30) ∧
    decodeTableWord 32 0x40000000 = some (.inRd32 0#30) ∧
    decodeTableWord 32 0x80000004 = some (.outRd32 1#29) := by decide

/-- A placed word is what the next step runs. -/
theorem test_placed_words :
    step (s0.withFetchWord 32 1) = exec .start s0 ∧
    step (s0.withFetchWord 8 0x0E) = exec .decEnd { s0 with phase := 0x0E#5 } ∧
    step (s0.withFetchWord 32 0x40000001) = exec (.inRd8 1#30) s0 := ⟨rfl, rfl, rfl⟩

/-! ### One step each, by the spec's vectors -/

/-- V-HOST-1: what the registers read after reset. -/
theorem test_host_1 :
    after (.regRd32 0x008#12) s0 (·.rdData) = some 0#32 ∧
    after (.regRd32 0x044#12) s0 (·.rdData) = some 256#32 := by decide
/-- V-HOST-2: IN_LEN takes no more than IN_SIZE. -/
theorem test_host_2 : after (.regWr32 0x00C#12 65#32) s0 (·.inLen) = some 0#32 := by decide
/-- V-HOST-3: the lanes are little-endian. -/
theorem test_host_3_write :
    after (.inWr32 0#30 0x04030201#32) s0 (·.inMem) =
      some [(0, 0x01#8), (1, 0x02#8), (2, 0x03#8), (3, 0x04#8)] := by decide
theorem test_host_3_reads :
    after (.inRd8 3#30) (withBuffer 0 [1#8, 2#8, 3#8, 4#8]) (·.rdData) = some 4#32 ∧
    after (.inRd32 0#30) (withBuffer 0 [1#8, 2#8, 3#8, 4#8]) (·.rdData) = some 0x04030201#32 := by
  decide
/-- V-HOST-4: a 32-bit read at IN+1 is misaligned; 8-bit STATUS and unmapped reads return 0. -/
theorem test_host_4 :
    afterStep { s0 with rdData := 7#32, turns := [.host ⟨.read, 32, 0x40000001#32, 0#32⟩] }
      (·.rdData) = some 0#32 ∧
    afterStep { s0 with rdData := 7#32, turns := [.host ⟨.read, 8, 0x00000008#32, 0#32⟩] }
      (·.rdData) = some 0#32 ∧
    afterStep { s0 with rdData := 7#32, turns := [.host ⟨.read, 32, 0x00001000#32, 0#32⟩] }
      (·.rdData) = some 0#32 := by decide
/-- V-HOST-5: while busy only IE is taken. -/
theorem test_host_5 :
    after (.regWr32 0x000#12 7#32) { s0 with phase := 0x04#5 } (·.ctrlWord) = some 4#32 := by decide
/-- V-HOST-6: a byte write while busy is dropped. -/
theorem test_host_6 :
    after (.inWr8 0#30 0xAA#8) (withBuffer 0x01 [0x32#8]) (·.inMem) = some [(0, 0x32#8)] := by decide
theorem test_in_write_byte :
    after (.inWr8 63#30 0xAA#8) s0 (·.inMem) = some [(63, 0xAA#8)] := by decide
/-- V-HOST-7: START while busy. -/
theorem test_host_7 : exec .start { s0 with phase := 0x0B#5 } = .next { s0 with phase := 0x0B#5 } :=
  rfl
theorem test_start : after .start { s0 with phase := 0x0F#5, ocnt := 3 } (·.statusWord) =
    some 0x00000101#32 := by decide
/-- V-HOST-8: CLEAR after an error. -/
theorem test_host_8 :
    after .clear { s0 with phase := 0x10#5, errCode := 4#3, errPhase := 0x0E#5, ie := true,
                           pos := 49#32 } (fun t => (t.statusWord, t.pos)) =
      some (0#32, 0#32) := by decide
/-- V-HOST-10: IRQ follows IE. -/
theorem test_host_10 :
    after (.regRd32 0x008#12) { s0 with phase := 0x0F#5, ie := true } (·.rdData) =
      some 0x00000A0F#32 := by decide
/-- V-CUR-1, V-CUR-2, V-CUR-4: ReadU32 under both byte orders, and too short. -/
theorem test_cursor_u32 :
    given (readU32 (withBuffer 0x01 [1#8, 2#8, 3#8, 4#8])) (·.pos) =
      some (0x04030201#32, 4#32) ∧
    given (readU32 { withBuffer 0x01 [1#8, 2#8, 3#8, 4#8] with be := true }) (·.pos) =
      some (0x01020304#32, 4#32) ∧
    given (readU32 (withBuffer 0x01 [1#8, 2#8, 3#8])) (·.pos) = none := by decide
/-- V-CUR-9, V-CUR-10, V-CUR-11: payload bits under both bit orders. -/
theorem test_cursor_bits :
    (List.range 9).map (withBuffer 0x0D [0xB2#8, 0x7F#8]).payloadBit =
      [true, false, true, true, false, false, true, false, false] ∧
    (List.range 9).map ({ withBuffer 0x0D [0xB2#8, 0x7F#8] with bitord := true }).payloadBit =
      [false, true, false, false, true, true, false, true, true] := by decide
/-- V-STEP-1, step 1: declaredLength 50. -/
theorem test_hdr_declen :
    after .hdrDeclen (withBuffer 0x01 [0x32#8, 0#8, 0#8, 0#8]) (fun t => (t.decLen, t.pos, t.phase)) =
      some (50#32, 4#32, 0x02#5) := by decide
/-- V-HDR-10: an empty buffer. -/
theorem test_hdr_10 :
    after .hdrDeclen (withBuffer 0x01 [1#8, 2#8, 3#8]) (fun t => (t.statusWord, t.pos)) =
      some (0x00013410#32, 0#32) := by decide
/-- V-HDR-3: all 32 bits of the reserved field are checked. -/
theorem test_hdr_3 :
    after .hdrReserved { withBuffer 0x02 [0#8, 0#8, 0#8, 0#8, 0#8, 0#8, 0#8, 0x80#8] with
                         pos := 4#32 } (fun t => (t.statusWord, t.pos)) =
      some (0x00021410#32, 8#32) := by decide
theorem test_hdr_reserved :
    after .hdrReserved (withBuffer 0x02 [0#8, 0#8, 0#8, 0#8]) (·.phase) = some 0x03#5 := by decide
/-- V-HDR-4: an empty alphabet. -/
theorem test_hdr_4 :
    after .hdrCount (withBuffer 0x03 [0#8, 0#8, 0#8, 0#8]) (·.statusWord) =
      some 0x00032410#32 := by decide
/-- V-STEP-1, step 3. -/
theorem test_hdr_count :
    after .hdrCount (withBuffer 0x03 [3#8, 0#8, 0#8, 0#8]) (fun t => (t.symCnt, t.pairsLeft, t.phase)) =
      some (3#32, 3#32, 0x04#5) := by decide
/-- V-HDR-8: the last count of a symbol wins, and it is counted once. -/
theorem test_hdr_8 :
    after .hdrPair { withBuffer 0x04 [4#8, 0#8, 0#8, 0#8, 0x41#8, 0#8, 0#8, 0#8] with
                     fmap := [⟨0x41#32, 3#32⟩], alpha := 1#32, pairsLeft := 1#32 }
      (fun t => (t.fmap, t.alpha, t.phase)) =
      some ([⟨0x41#32, 4#32⟩], 1#32, 0x05#5) := by decide
/-- V-HDR-6 at MAX_ALPHABET 2: a new symbol with the alphabet full. -/
theorem test_hdr_6 :
    after .hdrPair { withBuffer 0x04 [1#8, 0#8, 0#8, 0#8, 9#8, 0#8, 0#8, 0#8] with
                     cfg := ⟨64, 16, 2⟩, fmap := [⟨1#32, 1#32⟩, ⟨2#32, 1#32⟩], alpha := 2#32,
                     pairsLeft := 1#32 }
      (fun t => (t.statusWord, t.pos, t.alpha)) = some (0x00045410#32, 8#32, 2#32) := by decide

/-- The table and tree of V-SRC-1. -/
def fmapABC : List FreqEntry := [⟨0x41#32, 5#32⟩, ⟨0x42#32, 9#32⟩, ⟨0x43#32, 12#32⟩]

def leavesABC : List (Nat × Node) :=
  [(0, .leaf 0x41#32 5#40), (1, .leaf 0x42#32 9#40), (2, .leaf 0x43#32 12#40)]

def treeABC : List (Nat × Node) :=
  leavesABC ++ [(3, .internal 14#40 0 1), (4, .internal 26#40 2 3)]

def ctABC : List CodeEntry :=
  [⟨[false], 0x43#32⟩, ⟨[true, false], 0x41#32⟩, ⟨[true, true], 0x42#32⟩]

/-- V-STEP-1, step 7. -/
theorem test_tree_seed :
    after .treeSeed { s0 with phase := 0x05#5, fmap := fmapABC, alpha := 3#32 }
      (fun t => (t.arena, t.nextIdx, t.heap, t.phase)) =
      some (leavesABC, 3, [0, 1, 2], 0x06#5) := by decide
/-- V-TAB-8: one symbol. -/
theorem test_tab_8 :
    after .treeSeed { s0 with phase := 0x05#5, fmap := [⟨0x5A#32, 7#32⟩], alpha := 1#32 }
      (fun t => (t.root, t.phase)) = some (some 0, 0x07#5) := by decide
/-- V-STEP-1, step 9: the second merge, the root 26 with C on the left. -/
theorem test_tree_merge :
    after .treeMerge { s0 with phase := 0x06#5, nextIdx := 4, heap := [2, 3],
                               arena := leavesABC ++ [(3, .internal 14#40 0 1)] }
      (fun t => (t.arena, t.root, t.phase)) = some (treeABC, some 4, 0x07#5) := by decide
/-- V-TAB-13: of keys (2,2), (2,5), (4,3), the smaller index goes first, so it is on the left. -/
theorem test_tab_13 :
    after .treeMerge { s0 with phase := 0x06#5, nextIdx := 6, heap := [2, 3, 5],
                               arena := [(2, .leaf 1#32 2#40), (3, .leaf 2#32 4#40),
                                         (5, .leaf 3#32 2#40)] }
      (fun t => (arenaGet t.arena 6, t.heap)) =
      some (some (.internal 4#40 2 5), [3, 6]) := by decide
/-- V-TAB-1. -/
theorem test_tab_1 :
    after .codeBuild { s0 with phase := 0x07#5, arena := treeABC, root := some 4 } (·.ct) =
      some ctABC := by decide
/-- V-TAB-8: the empty code. -/
theorem test_code_build_single :
    after .codeBuild { s0 with phase := 0x07#5, arena := [(0, .leaf 0x5A#32 7#40)], root := some 0 }
      (·.ct) = some [⟨[], 0x5A#32⟩] := by decide
/-- V-STEP-1, steps 11, 12, 13. -/
theorem test_trailer :
    after .trlPbits (withBuffer 0x08 [9#8, 0#8, 0#8, 0#8]) (fun t => (t.pBits, t.phase)) =
      some (9#32, 0x09#5) ∧
    after .trlPbytes (withBuffer 0x09 [2#8, 0#8, 0#8, 0#8]) (fun t => (t.pBytes, t.phase)) =
      some (2#32, 0x0A#5) ∧
    after .trlUnpacked (withBuffer 0x0A [6#8, 0#8, 0#8, 0#8]) (fun t => (t.unpacked, t.phase)) =
      some (6#32, 0x0B#5) := by decide
/-- V-STEP-1, step 14. -/
theorem test_payload :
    after .payload { s0 with phase := 0x0B#5, alpha := 3#32, pos := 48#32, inLen := 50#32,
                             pBits := 9#32, pBytes := 2#32 }
      (fun t => (t.pos, t.payBase, t.phase)) = some (50#32, 48#32, 0x0D#5) := by decide
/-- V-DEC-16: the payload is bound before the check. -/
theorem test_dec_16 :
    after .payload { s0 with phase := 0x0B#5, alpha := 3#32, pos := 48#32, inLen := 50#32,
                             pBits := 17#32, pBytes := 2#32 }
      (fun t => (t.statusWord, t.pos, t.payBase)) = some (0x000B3410#32, 50#32, 48#32) := by decide
/-- V-DEC-9: the last of four copies. -/
theorem test_dec_single :
    after .decSingle { s0 with phase := 0x0C#5, ct := [⟨[], 0x5A#32⟩], unpacked := 4#32, ocnt := 3 }
      (fun t => (t.outWord 3, t.ocnt, t.phase)) = some (0x5A#32, 4, 0x0F#5) := by decide
/-- V-DEC-15: OUT full. -/
theorem test_dec_15 :
    after .decSingle { s0 with cfg := ⟨64, 4, 256⟩, phase := 0x0C#5, ct := [⟨[], 7#32⟩],
                               unpacked := 5#32, ocnt := 4 }
      (fun t => (t.statusWord, t.ocnt)) = some (0x000C6410#32, 4) := by decide

/-- B1 in DEC_BIT with `k` bits read and candidate `c`. -/
def bitsABC (k : Nat) (c : List Bool) (n : Nat) : State :=
  { withBuffer 0x0D [0xB2#8, 0x7F#8] with
    ct := ctABC, alpha := 3#32, pBits := 9#32, pBytes := 2#32, bitPos := BitVec.ofNat 32 k,
    cand := c, ocnt := n }

/-- V-STEP-1, steps 15 and 16. -/
theorem test_dec_bit :
    after .decBit (bitsABC 0 [] 0) (fun t => (t.cand, t.bitPos, t.ocnt, t.phase)) =
      some ([true], 1#32, 0, 0x0D#5) ∧
    after .decBit (bitsABC 1 [true] 0) (fun t => (t.outWord 0, t.cand, t.ocnt)) =
      some (0x41#32, [], 1) := by decide
/-- V-DEC-14: OUT full at the last bit. -/
theorem test_dec_14 :
    after .decBit { bitsABC 8 [] 5 with cfg := ⟨64, 5, 256⟩ }
      (fun t => (t.statusWord, t.bitPos, t.candLenWord)) =
      some (0x000D6410#32, 9#32, 1#32) := by decide
/-- V-DEC-4: a bit left over. -/
theorem test_dec_end :
    after .decEnd { s0 with phase := 0x0E#5, cand := [true] } (·.statusWord) =
      some 0x000E4410#32 ∧
    after .decEnd { s0 with phase := 0x0E#5 } (·.statusWord) = some 0x0000020F#32 := by decide
/-- V-DEC-13. -/
theorem test_dec_13 :
    given (ctLookup [true] { s0 with ct := ctABC }) (·.ocnt) = some (none, 0) ∧
    given (ctLookup [true, false] { s0 with ct := ctABC }) (·.ocnt) = some (some 0x41#32, 0) ∧
    given (ctLookup [false] { s0 with ct := [⟨[], 0x5A#32⟩] }) (·.ocnt) = some (none, 0) := by
  decide
/-- 45_host_commands.md R240: the gate of OUT. -/
theorem test_out_read :
    after (.outRd32 0#29) { s0 with phase := 0x0F#5, ocnt := 1, outMem := [(0, 0x41#32)] }
      (·.rdData) = some 0x41#32 ∧
    after (.outRd32 0#29) { s0 with phase := 0x0D#5, ocnt := 1, outMem := [(0, 0x41#32)] }
      (·.rdData) = some 0#32 := by decide
/-- 70_reset_and_hazards.md R280: RST aborts, and the engine waits while it is asserted. -/
theorem test_rst :
    afterStep { s0 with phase := 0x04#5, turns := [.rst true] } (fun t => (t.phase, t.rst)) =
      some (0x00#5, true) ∧
    afterStep { s0 with phase := 0x0E#5, rst := true } (·.phase) = some 0x0E#5 := by decide

/-! ### Witnesses: the hypotheses of every obligation can be met, each clause at a boundary -/

theorem witness_DecodeEncodeAgree :
    (Instr.inWr32 0x3FFFFFFC#30 0xFFFFFFFF#32).wf = true ∧ (Instr.regWr32 0xFFC#12 1#32).wf = true := by
  decide
theorem witness_DecodedIsWellFormed :
    decode (.busWrite 32) [0x04#8, 0#8, 0#8, 0#8, 0x02#8, 0#8, 0#8, 0#8, 9#8] =
      .ok (.clear, [9#8]) := by decide
theorem witness_CommandAndPhaseCodes :
    (0#32 ≠ 1#32 ∧ 0#32 ≠ 2#32) ∧ (3#32 ≠ 1#32 ∧ 3#32 ≠ 2#32) ∧
    0x11 ≤ (0x11#5).toNat ∧ 0x11 ≤ (0x1F#5).toNat := by decide
theorem witness_StepRunsTheFetchedInstruction :
    (s0.legalCodes ∧ s0.rst = false ∧ s0.turns = [] ∧ decodePhase s0.phase = .ok .idle) ∧
    (decodePhase ({ s0 with phase := 0x10#5, turns := [.engine] } : State).phase = .ok .error) ∧
    (({ s0 with phase := 0x10#5, turns := [.engine] } : State).legalCodes) ∧
    decodeAccess ⟨.read, 32, 0x00000008#32, 0#32⟩ = .ok (.regRd32 0x008#12) ∧
    0x11 ≤ ({ s0 with phase := 0x11#5 } : State).phase.toNat ∧
    (({ s0 with errCode := 7#3 } : State).phase.toNat ≤ 0x10 ∧
      ({ s0 with errCode := 7#3 } : State).errCode = 7#3) := by decide
theorem witness_AccessesNotAllowedDoNothing :
    s0.legalCodes ∧ s0.cfg.ok ∧
    ¬ allowedAccess s0.cfg ⟨.read, 32, 0x00001000#32, 0#32⟩ ∧
    ¬ allowedAccess s0.cfg ⟨.read, 8, 0x00000FFC#32, 0#32⟩ ∧
    ¬ allowedAccess s0.cfg ⟨.write, 8, 0x40000040#32, 0#32⟩ ∧
    ¬ allowedAccess s0.cfg ⟨.write, 32, 0x40000002#32, 0#32⟩ ∧
    ¬ allowedAccess s0.cfg ⟨.read, 32, 0x80000040#32, 0#32⟩ ∧
    ¬ allowedAccess s0.cfg ⟨.write, 32, 0x80000000#32, 0#32⟩ := by
  refine ⟨?_, ?_, ?_, ?_, ?_, ?_, ?_, ?_⟩ <;> decide
theorem witness_AccessesNotAllowedDoNothing_allowed :
    s0.legalCodes ∧ s0.cfg.ok ∧
    allowedAccess s0.cfg ⟨.write, 32, 0x00000FFC#32, 0#32⟩ ∧
    allowedAccess s0.cfg ⟨.write, 8, 0x4000003F#32, 0#32⟩ ∧
    allowedAccess s0.cfg ⟨.read, 32, 0x4000003C#32, 0#32⟩ ∧
    allowedAccess s0.cfg ⟨.read, 32, 0x8000003C#32, 0#32⟩ := by
  refine ⟨?_, ?_, ?_, ?_, ?_, ?_⟩ <;> decide
theorem witness_InstancesShareNothing :
    systemStep 1 [s0, s0] = .next [s0, s0] ∧ 0 ≠ 1 := ⟨rfl, by decide⟩
theorem witness_InstancesHoldTheirOwnMemories :
    1 < 2 ∧ instancesOwn [s0, { s0 with inst := 1, turns := [.rst true] }] ∧
    systemStep 1 [s0, { s0 with inst := 1, turns := [.rst true] }] =
      .next [s0, { s0 with inst := 1, draws := 1, rst := true }] := by
  refine ⟨by decide, fun k s h => ?_, rfl⟩
  match k, h with
  | 0, h => cases h; rfl
  | 1, h => cases h; rfl
/-- Two instances at the same draw and address hold free values of their own (R268). -/
theorem test_instances_hold_their_own_in :
    s0.inByte 5 = Config.inDraw 0 0 5 ∧
    ({ s0 with inst := 1 } : State).inByte 5 = Config.inDraw 1 0 5 := ⟨rfl, rfl⟩
theorem witness_RstSetsEveryElement :
    ({ s0 with phase := 0x10#5, errCode := 6#3, turns := [.rst true] } : State).legalCodes ∧
    ({ s0 with turns := [.rst false] } : State).legalCodes ∧
    ({ s0 with rst := true, turns := [.engine] } : State).legalCodes ∧
    ({ s0 with rst := true, turns := [.host ⟨.write, 32, 4#32, 1#32⟩] } : State).legalCodes := by
  decide
theorem witness_CtrlReadAndWrite :
    s0.busy = false ∧ ({ s0 with phase := 0x01#5 } : State).busy = true := by decide
theorem witness_RegisterReads :
    0x048 ≤ (0x048#12).toNat ∧ 0x048 ≤ (0xFFF#12).toNat ∧ (0x001#12).toNat % 4 ≠ 0 := by decide
theorem witness_RegisterWrites :
    (s0.busy = false ∧ (64#32).toNat ≤ s0.cfg.inSize) ∧ s0.cfg.inSize < (65#32).toNat ∧
    ({ s0 with phase := 0x0E#5 } : State).busy = true ∧ (3#32 ≠ 1#32 ∧ 3#32 ≠ 2#32) ∧
    (0x008#12 ≠ 0x000#12 ∧ 0x008#12 ≠ 0x004#12 ∧ 0x008#12 ≠ 0x00C#12) := by decide
theorem witness_NoOutputBeforeDone :
    ({ s0 with phase := 0x0E#5 } : State).phase ≠ 0x0F#5 ∧
    ({ s0 with phase := 0x10#5 } : State).phase ≠ 0x0F#5 := by decide
theorem witness_InReads :
    (63#30).toNat < s0.cfg.inSize ∧ s0.cfg.inSize ≤ (64#30).toNat ∧
    ((60#30).toNat % 4 = 0 ∧ (60#30).toNat + 3 < s0.cfg.inSize) ∧
    (61#30).toNat % 4 ≠ 0 ∧ s0.cfg.inSize ≤ (64#30).toNat + 3 := by decide
theorem witness_InWritesStore :
    (s0.busy = false ∧ (63#30).toNat < s0.cfg.inSize) ∧
    ({ s0 with phase := 0x01#5 } : State).busy = true ∧ s0.cfg.inSize ≤ (64#30).toNat ∧
    ((60#30).toNat % 4 = 0 ∧ (60#30).toNat + 3 < s0.cfg.inSize) ∧
    (1#30).toNat % 4 ≠ 0 ∧ s0.cfg.inSize ≤ (64#30).toNat + 3 := by decide
theorem witness_MixedWidthsSeeTheSameBytes :
    (s0.busy = false ∧ (60#30).toNat % 4 = 0 ∧ (60#30).toNat + 3 < s0.cfg.inSize ∧ 3 < 4) ∧
    (∃ t, exec (.inWr8 (60#30 + BitVec.ofNat 30 3) 0xAA#8) s0 = .next t) ∧
    ∃ t, exec (.inWr32 60#30 0x12345678#32) s0 = .next t :=
  ⟨by decide, ⟨_, rfl⟩, ⟨_, rfl⟩⟩
theorem witness_OutReadIsGated :
    ((15#29).toNat < s0.cfg.outSize ∧ ({ s0 with phase := 0x0F#5, ocnt := 16 } : State).phase = 0x0F#5 ∧
      (15#29).toNat < ({ s0 with phase := 0x0F#5, ocnt := 16 } : State).ocnt) ∧
    s0.cfg.outSize ≤ (16#29).toNat ∧ s0.phase ≠ 0x0F#5 ∧
    ({ s0 with ocnt := 15 } : State).ocnt ≤ (15#29).toNat := by decide
theorem witness_HostCannotDisturbADecode :
    ({ s0 with phase := 0x0D#5, turns := [.host ⟨.write, 32, 0#32, 7#32⟩] } : State).busy = true ∧
    decodeAccess ⟨.write, 32, 0#32, 7#32⟩ ≠ .ok .clear ∧
    afterStep { s0 with phase := 0x0D#5, turns := [.host ⟨.write, 32, 0#32, 7#32⟩] } (·.ie) =
      some true := by decide
theorem witness_StartBeginsADecode :
    ({ s0 with phase := 0x10#5 } : State).busy = false ∧
    ({ s0 with phase := 0x0E#5 } : State).busy = true := by decide
theorem witness_StepAfterACommand :
    s0.rst = false ∧ s0.busy = false ∧ s0.phase = 0x00#5 ∧ s0.errCode ≠ 7#3 ∧
    (∃ t, exec .start s0 = .next t ∧ t.turns = []) ∧
    (∃ t, exec .start { s0 with turns := [.engine] } = .next t ∧ t.turns = [.engine]) ∧
    (∃ t, exec .clear s0 = .next t) ∧ (∃ t, step s0 = .next t) ∧
    ∀ a us, s0.turns = .host a :: us → decodeAccess a ≠ .ok .start :=
  ⟨rfl, rfl, rfl, by decide, ⟨_, rfl, rfl⟩, ⟨_, rfl, rfl⟩, ⟨_, rfl⟩, ⟨_, rfl⟩,
    fun _ _ h => by cases h⟩
/-- A move that is no START in IDLE: CLEAR again. -/
theorem witness_StepAfterACommand_clear :
    (∃ t, step { s0 with turns := [.host ⟨.write, 32, 4#32, 2#32⟩] } = .next t) ∧
    decodeAccess ⟨.write, 32, 4#32, 2#32⟩ ≠ .ok .start := ⟨⟨_, rfl⟩, by decide⟩
/-- V-RST-1: reset, START, POLL. The first read finds BUSY; the one after the engine's step ends the
POLL, the entry after it unused. -/
theorem test_poll_stops_at_the_first_ready_read :
    (match runTurns [wr32 4#32 1#32] s0 with
      | .next s => match poll [0, 1, 0] s with
        | .next p => some (p.turns.length, p.result, p.state.pos)
        | _ => none
      | _ => none) = some (3, some 0x00013410#32, 0#32) := by decide
/-- V-RST-1 as a script: its reads return what it asserts, and its encoding is its accesses. -/
theorem test_script_holds :
    (match runScript [[], [0, 1]] [.wr32 4#32 1#32, .poll, .rd32 8#32 0x00013410#32, .rd8 8#32 0#8,
        .rd32 0x14#32 0#32] s0 with
      | .next p => some (p.holds, p.ended, (transactions p.turns).map (·.off))
      | _ => none) = some (true, true, [4#32, 8#32, 8#32, 8#32, 8#32, 0x14#32]) := by decide
/-- An assertion that fails. -/
theorem test_script_fails :
    (match runScript [] [.rd32 8#32 1#32, .rd32 8#32 0#32] s0 with
      | .next p => some (p.holds, p.turns.length)
      | _ => none) = some (false, 2) := by decide
/-- The same POLL before the engine has moved: it has not ended. -/
theorem test_poll_goes_on_while_busy :
    (match runTurns [wr32 4#32 1#32] s0 with
      | .next s => match poll [0, 0] s with
        | .next p => some (p.turns.length, p.result)
        | _ => none
      | _ => none) = some (2, none) := by decide
theorem witness_PayloadBitOrder :
    15 < 8 * ({ s0 with pBytes := 2#32 } : State).pBytes.toNat ∧ s0.bitord = false ∧
    ({ s0 with bitord := true } : State).bitord = true := by decide
/-- V-DEC-1 before PAYLOAD, with `n` symbols, PBITS `b` and PBYTES `y`. -/
def bound (n b y : Nat) : State :=
  { s0 with phase := 0x0B#5, alpha := BitVec.ofNat 32 n, pos := 48#32, inLen := 50#32,
            pBits := BitVec.ofNat 32 b, pBytes := BitVec.ofNat 32 y }

theorem witness_CursorPrimitives :
    (withBuffer 0x01 [1#8, 2#8, 3#8, 4#8]).pos.toNat + 4 ≤
      (withBuffer 0x01 [1#8, 2#8, 3#8, 4#8]).inLen.toNat ∧
    (withBuffer 0x01 [1#8, 2#8, 3#8]).inLen.toNat < (withBuffer 0x01 [1#8, 2#8, 3#8]).pos.toNat + 4 ∧
    (withBuffer 0x0B [1#8]).pos.toNat + 1 ≤ (withBuffer 0x0B [1#8]).inLen.toNat ∧
    (withBuffer 0x0B [1#8]).inLen.toNat < (withBuffer 0x0B [1#8]).pos.toNat + 2 ∧
    (8 < (bitsABC 8 [] 5).pBits.toNat ∧
      (bitsABC 8 [] 5).pBits.toNat ≤ 8 * (bitsABC 8 [] 5).pBytes.toNat ∧
      (bitsABC 8 [] 5).payBase.toNat + (bitsABC 8 [] 5).pBytes.toNat ≤
        (bitsABC 8 [] 5).inLen.toNat) ∧
    (bitsABC 8 [] 5).pBits.toNat ≤ 9 ∧
    8 * (bound 3 17 2).pBytes.toNat < (bound 3 17 2).pBits.toNat ∧
    ({ bound 3 9 2 with payBase := 49#32 } : State).inLen.toNat <
      ({ bound 3 9 2 with payBase := 49#32 } : State).payBase.toNat +
        ({ bound 3 9 2 with payBase := 49#32 } : State).pBytes.toNat := by decide

/-- A field that just fits, its value 0 or 1, and one that just does not. -/
def fieldFits (v : Byte) : State := withBuffer 0x01 [v, 0#8, 0#8, 0#8]

def fieldShort : State := withBuffer 0x01 [0#8, 0#8, 0#8]

theorem witness_HdrDeclenReads :
    (fieldFits 0).pos.toNat + 4 ≤ (fieldFits 0).inLen.toNat ∧
    fieldShort.inLen.toNat < fieldShort.pos.toNat + 4 := by decide
theorem witness_HdrReservedChecks :
    ((fieldFits 0).pos.toNat + 4 ≤ (fieldFits 0).inLen.toNat ∧
      (fieldFits 0).wireU32 (fieldFits 0).pos.toNat = 0#32) ∧
    ((fieldFits 1).pos.toNat + 4 ≤ (fieldFits 1).inLen.toNat ∧
      (fieldFits 1).wireU32 (fieldFits 1).pos.toNat ≠ 0#32) ∧
    fieldShort.inLen.toNat < fieldShort.pos.toNat + 4 := by decide
theorem witness_HdrCountReads :
    ((fieldFits 1).pos.toNat + 4 ≤ (fieldFits 1).inLen.toNat ∧
      (fieldFits 1).wireU32 (fieldFits 1).pos.toNat ≠ 0#32) ∧
    ((fieldFits 0).pos.toNat + 4 ≤ (fieldFits 0).inLen.toNat ∧
      (fieldFits 0).wireU32 (fieldFits 0).pos.toNat = 0#32) ∧
    fieldShort.inLen.toNat < fieldShort.pos.toNat + 4 := by decide

/-- A pair of count 1 and symbol 9 that just fits, in an alphabet of at most two. -/
def pairFits : State :=
  { withBuffer 0x04 [1#8, 0#8, 0#8, 0#8, 9#8, 0#8, 0#8, 0#8] with
    cfg := ⟨64, 16, 2⟩, pairsLeft := 1#32 }

def pairCut : State := withBuffer 0x04 [1#8, 0#8, 0#8, 0#8, 9#8, 0#8, 0#8]

theorem witness_HdrPairEntersThePair :
    (pairFits.pos.toNat + 8 ≤ pairFits.inLen.toNat ∧ pairFits.pairsLeft ≠ 0#32 ∧
      pairFits.alpha.toNat ≠ pairFits.cfg.maxAlphabet) ∧
    (({ pairFits with fmap := [⟨9#32, 3#32⟩], alpha := 2#32 } : State).count? 9#32).isSome = true ∧
    fieldShort.inLen.toNat < fieldShort.pos.toNat + 4 ∧
    (pairCut.pos.toNat + 4 ≤ pairCut.inLen.toNat ∧ pairCut.inLen.toNat < pairCut.pos.toNat + 8) ∧
    (({ pairFits with alpha := 2#32 } : State).count? 9#32 = none ∧
      ({ pairFits with alpha := 2#32 } : State).alpha.toNat = pairFits.cfg.maxAlphabet) := by decide

/-- V-SRC-1 before its last merge. -/
def lastMerge : State :=
  { s0 with phase := 0x06#5, nextIdx := 4, heap := [2, 3],
            arena := leavesABC ++ [(3, .internal 14#40 0 1)] }

/-- V-SRC-1 before its first merge. -/
def firstMerge : State :=
  { s0 with phase := 0x06#5, nextIdx := 3, heap := [0, 1, 2], arena := leavesABC }

theorem witness_HeapGivesTheLeastKey :
    (lastMerge.heap ≠ [] ∧ ∀ i ∈ lastMerge.heap, (arenaGet lastMerge.arena i).isSome = true) ∧
    s0.heap = [] := by decide

/-- States just before TREE_SEED, of one symbol and of three. -/
def seedOne : State := { s0 with phase := 0x05#5, fmap := [⟨0x5A#32, 7#32⟩], alpha := 1#32 }

def seedABC : State := { s0 with phase := 0x05#5, fmap := fmapABC, alpha := 3#32 }

theorem witness_TreeSeedMakesTheLeaves :
    (Sorted.wf FreqEntry.key seedOne.fmap = true ∧ seedOne.alpha.toNat = seedOne.fmap.length ∧
      seedOne.fmap.length = 1 ∧ seedOne.fmap.length ≤ seedOne.cfg.maxAlphabet ∧
      seedOne.arena = [] ∧ seedOne.heap = []) ∧
    (Sorted.wf FreqEntry.key seedABC.fmap = true ∧ seedABC.alpha.toNat = seedABC.fmap.length ∧
      2 ≤ seedABC.fmap.length ∧ seedABC.fmap.length ≤ seedABC.cfg.maxAlphabet ∧
      seedABC.arena = [] ∧ seedABC.heap = []) := by decide
theorem witness_TreeMergeMergesTheTwoLeast :
    (Sorted.wf id lastMerge.heap = true ∧ lastMerge.heap.length = 2 ∧
      (∀ i ∈ lastMerge.heap, (arenaGet lastMerge.arena i).isSome = true) ∧
      lastMerge.nextIdx ∉ lastMerge.heap ∧
      (∀ i ∈ lastMerge.heap, ∀ j ∈ lastMerge.heap, i ≠ j →
        freqAt lastMerge.arena i + freqAt lastMerge.arena j < 2 ^ 40) ∧
      lastMerge.nextIdx < 2 * lastMerge.cfg.maxAlphabet - 1) ∧
    (Sorted.wf id firstMerge.heap = true ∧ 2 < firstMerge.heap.length ∧
      (∀ i ∈ firstMerge.heap, (arenaGet firstMerge.arena i).isSome = true) ∧
      firstMerge.nextIdx ∉ firstMerge.heap ∧
      (∀ i ∈ firstMerge.heap, ∀ j ∈ firstMerge.heap, i ≠ j →
        freqAt firstMerge.arena i + freqAt firstMerge.arena j < 2 ^ 40) ∧
      firstMerge.nextIdx < 2 * firstMerge.cfg.maxAlphabet - 1) := by decide
theorem witness_CodeBuildRecordsTheLeafPaths :
    Sorted.wf Prod.fst treeABC = true ∧ childrenBelow treeABC ∧
    (arenaGet treeABC 4).isSome = true := by
  refine ⟨by decide, ?_, by decide⟩
  intro c hc
  simp only [treeABC, leavesABC, List.cons_append, List.nil_append, List.mem_cons,
    List.not_mem_nil, or_false] at hc
  rcases hc with rfl | rfl | rfl | rfl | rfl <;> simp <;> decide
theorem witness_SingleSymbolTable :
    Sorted.wf Prod.fst [(0, Node.leaf 0x5A#32 7#40)] = true ∧
    arenaGet [(0, Node.leaf 0x5A#32 7#40)] 0 = some (.leaf 0x5A#32 7#40) := by decide
theorem witness_CodesArePrefixFree : codesOf (some 4) treeABC = some ctABC := by decide
theorem witness_CodesAreComplete : codesOf (some 4) treeABC = some ctABC := by decide
theorem witness_TrailerReads :
    (fieldFits 9).pos.toNat + 4 ≤ (fieldFits 9).inLen.toNat ∧
    fieldShort.inLen.toNat < fieldShort.pos.toNat + 4 := by decide

theorem witness_PayloadChoosesTheMode :
    (bound 3 9 3).inLen.toNat < (bound 3 9 3).pos.toNat + (bound 3 9 3).pBytes.toNat ∧
    (bound 3 16 2).pos.toNat + (bound 3 16 2).pBytes.toNat ≤ (bound 3 16 2).inLen.toNat ∧
    (bound 1 100 2).alpha = 1#32 ∧
    ((bound 3 17 2).alpha ≠ 1#32 ∧ 8 * (bound 3 17 2).pBytes.toNat < (bound 3 17 2).pBits.toNat) ∧
    ((bound 3 16 2).alpha ≠ 1#32 ∧ (bound 3 16 2).pBits.toNat ≤ 8 * (bound 3 16 2).pBytes.toNat) := by
  decide
theorem witness_CtLookupMatchesExactly :
    (∀ e ∈ ctABC, e.code ≠ [true]) ∧
    ((⟨[true, false], 0x41#32⟩ : CodeEntry) ∈ ctABC ∧
      ∀ e ∈ ctABC, e.code = [true, false] → e.symbol = 0x41#32) ∧
    ((⟨[true], 1#32⟩ : CodeEntry) ∈ [(⟨[true], 1#32⟩ : CodeEntry), ⟨[true], 2#32⟩] ∧
      (⟨[true], 2#32⟩ : CodeEntry) ∈ [(⟨[true], 1#32⟩ : CodeEntry), ⟨[true], 2#32⟩] ∧
      1#32 ≠ 2#32) := by decide

/-- Where R189 lists no refusal the operation runs (R13): CODE_BUILD without a ROOT leaves a table
that nothing in Lean can name an entry of. -/
theorem test_code_build_runs_without_root :
    after .codeBuild s0 (·.phase) = some 0x08#5 ∧
    after .codeBuild s0 (·.ct) = some (Config.treelessTable none []) := ⟨rfl, rfl⟩
/-- DEC_SINGLE without a sole entry: one free symbol emitted, everything else as R206 says. -/
theorem test_dec_single_runs_without_sole_entry :
    after .decSingle s0 (·.ocnt) = some 1 ∧
    after .decSingle s0 (·.outMem) = some [(0, Config.noSoleSymbol [])] := ⟨rfl, rfl⟩

/-- A decode of one symbol with `n` copies emitted. -/
def copies (n : Nat) : State :=
  { s0 with phase := 0x0C#5, ct := [⟨[], 0x5A#32⟩], unpacked := 17#32, ocnt := n }

theorem witness_DecSingleEmitsACopy :
    (copies 15).ct = [⟨[], 0x5A#32⟩] ∧ (copies 15).ocnt ≠ (copies 15).cfg.outSize ∧
    (copies 16).ocnt = (copies 16).cfg.outSize := by decide
theorem witness_DecBitConsumesABit :
    ((bitsABC 0 [] 0).bitReadable (bitsABC 0 [] 0).bitPos.toNat ∧
      (bitsABC 0 [] 0).cand.length < (bitsABC 0 [] 0).cfg.lMax ∧
      [true] = (bitsABC 0 [] 0).cand ++ [(bitsABC 0 [] 0).payloadBit (bitsABC 0 [] 0).bitPos.toNat] ∧
      ∀ e ∈ (bitsABC 0 [] 0).ct, e.code ≠ [true]) ∧
    ((bitsABC 8 [] 5).bitReadable (bitsABC 8 [] 5).bitPos.toNat ∧
      [false] = (bitsABC 8 [] 5).cand ++ [(bitsABC 8 [] 5).payloadBit (bitsABC 8 [] 5).bitPos.toNat] ∧
      (⟨[false], 0x43#32⟩ : CodeEntry) ∈ (bitsABC 8 [] 5).ct ∧
      (∀ e ∈ (bitsABC 8 [] 5).ct, e.code = [false] → e.symbol = 0x43#32) ∧
      (bitsABC 8 [] 5).ocnt ≠ (bitsABC 8 [] 5).cfg.outSize) ∧
    ((bitsABC 8 [] 16).bitReadable (bitsABC 8 [] 16).bitPos.toNat ∧
      (bitsABC 8 [] 16).ocnt = (bitsABC 8 [] 16).cfg.outSize) := by decide
theorem witness_DecEndChecksTheCandidate :
    (bitsABC 9 [] 6).cand = [] ∧ (bitsABC 9 [true] 6).cand ≠ [] := by decide

theorem witness_EngineLeavesItsInputs :
    decodePhase 0x0D#5 = .ok .decBit ∧ ∃ t, exec .decBit (bitsABC 8 [] 5) = .next t :=
  ⟨rfl, _, rfl⟩
theorem witness_CursorsNeverGoBack :
    decodePhase 0x0B#5 = .ok .payload ∧ ∃ t, exec .payload (bound 3 9 2) = .next t :=
  ⟨rfl, _, rfl⟩
theorem witness_PhaseGraph_header :
    s0.busy = false ∧ (∃ t, exec .start s0 = .next t) ∧ (∃ t, exec .clear s0 = .next t) ∧
    (∃ t, exec .hdrDeclen (fieldFits 0) = .next t) ∧ (∃ t, exec .hdrReserved (fieldFits 1) = .next t) ∧
    (∃ t, exec .hdrCount (fieldFits 0) = .next t) ∧
    (pairFits.phase = 0x04#5 ∧ ∃ t, exec .hdrPair pairFits = .next t) :=
  ⟨rfl, ⟨_, rfl⟩, ⟨_, rfl⟩, ⟨_, rfl⟩, ⟨_, rfl⟩, ⟨_, rfl⟩, rfl, ⟨_, rfl⟩⟩
theorem witness_PhaseGraph_tree :
    (seedOne.heap = [] ∧ 1 ≤ seedOne.alpha.toNat ∧ ∃ t, exec .treeSeed seedOne = .next t) ∧
    (lastMerge.phase = 0x06#5 ∧ ∃ t, exec .treeMerge lastMerge = .next t) ∧
    (∃ t, exec .codeBuild { s0 with arena := treeABC, root := some 4 } = .next t) :=
  ⟨⟨rfl, by decide, ⟨_, rfl⟩⟩, ⟨rfl, ⟨_, rfl⟩⟩, ⟨_, rfl⟩⟩
theorem witness_PhaseGraph_trailer :
    (∃ t, exec .trlPbits (fieldFits 9) = .next t) ∧ (∃ t, exec .trlPbytes (fieldFits 9) = .next t) ∧
    (∃ t, exec .trlUnpacked fieldShort = .next t) ∧
    (1 ≤ (bound 1 0 2).alpha.toNat ∧ ∃ t, exec .payload (bound 1 0 2) = .next t) :=
  ⟨⟨_, rfl⟩, ⟨_, rfl⟩, ⟨_, rfl⟩, by decide, ⟨_, rfl⟩⟩
theorem witness_PhaseGraph_decoding :
    ((copies 15).phase = 0x0C#5 ∧ (copies 15).ocnt < (copies 15).unpacked.toNat ∧
      ∃ t, exec .decSingle (copies 15) = .next t) ∧
    ((bitsABC 8 [] 5).phase = 0x0D#5 ∧ ∃ t, exec .decBit (bitsABC 8 [] 5) = .next t) ∧
    ∃ t, exec .decEnd (bitsABC 9 [] 6) = .next t :=
  ⟨⟨rfl, by decide, ⟨_, rfl⟩⟩, ⟨rfl, ⟨_, rfl⟩⟩, ⟨_, rfl⟩⟩

/-- A buffer in IDLE, and the same bytes below IN_LEN in another instance, after a RST and an earlier
decode of a longer buffer. -/
def freshBuffer : State := withBuffer 0x00 [9#8, 0#8, 0#8, 0#8]

def usedBefore : State :=
  { withBuffer 0x0F [9#8, 0#8, 0#8, 0#8, 7#8] with
    inLen := 4#32, inst := 1, draws := 3, pos := 5#32, ocnt := 2 }

/-- A host write lowers IN_LEN below POS in DONE, from a state that meets the cursor invariant. -/
theorem witness_StepsKeepTheCursorInvariant :
    ({ usedBefore with inLen := 5#32, turns := [wr32 0xC#32 4#32] } : State).cursorInv ∧
    usedBefore.pos.toNat ≤ ({ usedBefore with inLen := 5#32 } : State).inLen.toNat ∧
    afterStep { usedBefore with inLen := 5#32, turns := [wr32 0xC#32 4#32] } (·.inLen) =
      some 4#32 := by decide
/-- B1 in the middle of its payload, the engine to move, meets every invariant and steps. -/
theorem witness_StepsKeepTheInvariants :
    (bitsABC 8 [] 5).controlInv ∧ (bitsABC 8 [] 5).memoryInv ∧ (bitsABC 8 [] 5).cursorInv ∧
    (bitsABC 8 [] 5).progressInv ∧
    ({ bitsABC 8 [] 5 with fmap := fmapABC } : State).alphabetInv ∧
    afterStep (bitsABC 8 [] 5) (·.phase) = some 0x0E#5 ∧
    afterStep { bitsABC 8 [] 5 with fmap := fmapABC } (·.phase) = some 0x0E#5 := by decide
theorem witness_EngineStepsMakeProgress :
    ({ bitsABC 0 [] 0 with turns := [.engine] } : State).legalCodes ∧
    ({ bitsABC 0 [] 0 with turns := [.engine] } : State).progressInv ∧
    ({ bitsABC 0 [] 0 with turns := [.engine] } : State).busy = true ∧
    ({ bitsABC 0 [] 0 with turns := [.engine] } : State).rst = false ∧
    afterStep { bitsABC 0 [] 0 with turns := [.engine] } (·.bitPos) = some 1#32 := by decide
theorem witness_ReachableStatesAreNeverRefused :
    Reachable { State.resetWith ⟨64, 16, 256⟩ 0 0 with
      turns := [.host ⟨.write, 32, 4#32, 1#32⟩, .engine] } :=
  .reset ⟨64, 16, 256⟩ 0 0 _ (by decide)
theorem sameBytes : ∀ a, a < freshBuffer.inLen.toNat →
    usedBefore.inByte a = freshBuffer.inByte a := by
  intro a ha
  have ha : a < 4 := ha
  interval_cases a <;> rfl
theorem witness_DecodeDependsOnItsInputsOnly_start :
    freshBuffer.busy = false ∧ usedBefore.busy = false ∧ freshBuffer.cfg = usedBefore.cfg ∧
    freshBuffer.be = usedBefore.be ∧ freshBuffer.bitord = usedBefore.bitord ∧
    freshBuffer.inLen = usedBefore.inLen ∧
    (∀ a, a < freshBuffer.inLen.toNat → usedBefore.inByte a = freshBuffer.inByte a) ∧
    (∃ t, exec .start freshBuffer = .next t) ∧ ∃ t, exec .start usedBefore = .next t :=
  ⟨rfl, rfl, rfl, rfl, rfl, rfl, sameBytes, ⟨_, rfl⟩, ⟨_, rfl⟩⟩
theorem witness_DecodeDependsOnItsInputsOnly_engine :
    decodePhase 0x01#5 = .ok .hdrDeclen ∧
    sameDecode { freshBuffer with phase := 0x01#5 }
      { freshBuffer with
        phase := 0x01#5, inMem := usedBefore.inMem, inst := 1, draws := 3, ie := true,
        rdData := 5#32, outMem := [(0, 1#32)] } ∧
    ∃ t, exec .hdrDeclen { freshBuffer with phase := 0x01#5 } = .next t :=
  ⟨rfl, ⟨rfl, fun a h => sameBytes a h, fun _ h => absurd h (Nat.not_lt_zero _)⟩, ⟨_, rfl⟩⟩
theorem witness_BytesBeyondInLenPlayNoPart :
    decodePhase 0x01#5 = .ok .hdrDeclen ∧
    (∀ a, a < (fieldFits 9).inLen.toNat →
      ({ fieldFits 9 with inMem := (fieldFits 9).inMem ++ [(4, 0xEE#8)] } : State).inByte a =
        (fieldFits 9).inByte a) ∧
    ∃ t, exec .hdrDeclen (fieldFits 9) = .next t := by
  refine ⟨rfl, ?_, ⟨_, rfl⟩⟩
  intro a ha
  have ha : a < 4 := ha
  interval_cases a <;> rfl

end Sys2Proof.Tests
end

section
/-! PROOFS. What the reset state holds: the parameters of its instance and the power-on draw in IN and OUT (00_scope.md R7, 10_state.md R50, R51). -/

namespace Sys2Proof

/-- The two open sizes are one more than a number of 30 and of 29 bits, which is exactly the range
00_scope.md R7 gives each. -/
theorem Config.params_ok : Config.params.ok := by
  have hin : Config.inSizeLess1.toNat < 2 ^ 30 := Config.inSizeLess1.isLt
  have hout : Config.outSizeLess1.toNat < 2 ^ 29 := Config.outSizeLess1.isLt
  exact ⟨⟨Nat.le_add_left .., hin⟩, ⟨Nat.le_add_left .., hout⟩, by decide⟩

end Sys2Proof

namespace Sys2Proof.Machine

/-- A memory not yet written holds its power-on draw everywhere. -/
@[simp] theorem Memory.read_nil {w : Nat} (power : Nat → BitVec w) (a : Nat) :
    Memory.read power [] a = power a := rfl

@[simp] theorem State.inByte_resetWith (p : Params) (n d a : Nat) :
    (State.resetWith p n d).inByte a = Config.inDraw n d a :=
  Memory.read_nil ..

@[simp] theorem State.outWord_resetWith (p : Params) (n d i : Nat) :
    (State.resetWith p n d).outWord i = Config.outDraw n d i :=
  Memory.read_nil ..

/-- Settles O10: the reset state is `State.resetWith` at the instance's parameters, instance 0 and
draw 0, so each clause is a fact about `Config.params` or about an unwritten memory. -/
theorem resetLeavesTheDrawFree : Obligations.ResetLeavesTheDrawFree :=
  ⟨Config.params_ok, rfl, State.inByte_resetWith Config.params 0 0,
    State.outWord_resetWith Config.params 0 0⟩

end Sys2Proof.Machine
end

section
/-! PROOFS. What an engine operation can leave, said once, and the induction of the invariants that no host register enters. -/

namespace Sys2Proof.Machine

/-- The ways an engine operation ends, each with the fields it writes and what is known of their new
values (40_step.md R141, R146). -/
inductive EngineNext (s : State) : State → Prop where
  /-- IDLE, DONE and ERROR (40_step.md R142). -/
  | quiet : EngineNext s s
  /-- An error, after what the operation wrote before it (60_exceptions.md R251). -/
  | raised {pos bitPos symCnt payBase : Word} {cand : List Bool} {e : HbdError} {p : BitVec 5} :
      bitPos = s.bitPos ∨ bitPos.toNat ≤ s.pBits.toNat →
      EngineNext s
        (State.raise
          { s with
            pos := pos, bitPos := bitPos, symCnt := symCnt, payBase := payBase, cand := cand } e p)
  | hdrDeclen {pos decLen : Word} : s.phase = Phase.hdrDeclen →
      EngineNext s { s with pos := pos, decLen := decLen, phase := Phase.hdrReserved }
  | hdrReserved {pos : Word} : s.phase = Phase.hdrReserved →
      EngineNext s { s with pos := pos, phase := Phase.hdrCount }
  | hdrCount {pos n : Word} : s.phase = Phase.hdrCount → n ≠ 0#32 →
      EngineNext s { s with pos := pos, symCnt := n, pairsLeft := n, phase := Phase.hdrPair }
  | hdrPair {pos y c alpha pairsLeft : Word} {fmap : List FreqEntry} {phase : BitVec 5} :
      s.phase = Phase.hdrPair →
      fmapInsert y c { s with pos := pos } =
        .ok () { s with pos := pos, fmap := fmap, alpha := alpha } →
      (phase = Phase.treeSeed ∧ pairsLeft = 0#32) ∨ (phase = Phase.hdrPair ∧ pairsLeft ≠ 0#32) →
      EngineNext s
        { s with pos := pos, fmap := fmap, alpha := alpha, pairsLeft := pairsLeft, phase := phase }
  /-- TREE_SEED and TREE_MERGE (43_code_table.md R177, R178). -/
  | tree {arena : List (Nat × Node)} {nextIdx : Nat} {heap : List Nat} {root : Option Nat}
      {phase : BitVec 5} :
      s.phase = Phase.treeSeed ∨ s.phase = Phase.treeMerge →
      phase = Phase.treeMerge ∨ phase = Phase.codeBuild →
      EngineNext s
        { s with arena := arena, nextIdx := nextIdx, heap := heap, root := root, phase := phase }
  | codeBuild {ct : List CodeEntry} : s.phase = Phase.codeBuild →
      EngineNext s { s with ct := ct, phase := Phase.trlPbits }
  | trlPbits {pos pBits : Word} : s.phase = Phase.trlPbits →
      EngineNext s { s with pos := pos, pBits := pBits, phase := Phase.trlPbytes }
  | trlPbytes {pos pBytes : Word} : s.phase = Phase.trlPbytes →
      EngineNext s { s with pos := pos, pBytes := pBytes, phase := Phase.trlUnpacked }
  | trlUnpacked {pos unpacked : Word} : s.phase = Phase.trlUnpacked →
      EngineNext s { s with pos := pos, unpacked := unpacked, phase := Phase.payload }
  | payload {pos payBase : Word} {phase : BitVec 5} : s.phase = Phase.payload →
      (phase = Phase.decSingle ∧ s.unpacked ≠ 0#32) ∨ phase = Phase.decBit ∨
        phase = Phase.decEnd ∨ phase = Phase.done →
      EngineNext s { s with pos := pos, payBase := payBase, phase := phase }
  | decSingle {y : Word} : s.phase = Phase.decSingle → s.ocnt ≠ s.cfg.outSize →
      EngineNext s
        { s.memWriteOut s.ocnt y with
          ocnt := s.ocnt + 1
          phase := if s.ocnt + 1 = s.unpacked.toNat then Phase.done else s.phase }
  /-- DEC_BIT where the candidate is no code (44_bitstream_decode.md R207). -/
  | decBit {bitPos : Word} {cand : List Bool} {phase : BitVec 5} : s.phase = Phase.decBit →
      bitPos.toNat ≤ s.pBits.toNat → phase = Phase.decBit ∨ phase = Phase.decEnd →
      EngineNext s { s with bitPos := bitPos, cand := cand, phase := phase }
  /-- DEC_BIT where the candidate is a code and is emitted (44_bitstream_decode.md R207). -/
  | decBitEmit {bitPos y : Word} {phase : BitVec 5} : s.phase = Phase.decBit →
      bitPos.toNat ≤ s.pBits.toNat → phase = Phase.decBit ∨ phase = Phase.decEnd →
      s.ocnt ≠ s.cfg.outSize →
      EngineNext s
        { s.memWriteOut s.ocnt y with
          ocnt := s.ocnt + 1, bitPos := bitPos, cand := [], phase := phase }
  | decEnd : s.phase = Phase.decEnd → EngineNext s { s with phase := Phase.done }

variable {s t : State}

/-- The end of HDR_PAIR writes PAIRS_LEFT and PHASE alone, and leaves HDR_PAIR exactly with no pair
left (42_header.md R164). -/
theorem afterPair_eq (s : State) :
    ∃ n phase, afterPair s = { s with pairsLeft := n, phase := phase } ∧
      ((phase = Phase.treeSeed ∧ n = 0#32) ∨ (phase = s.phase ∧ n ≠ 0#32)) := by
  unfold afterPair
  split
  · exact ⟨_, _, rfl, .inl ⟨rfl, rfl⟩⟩
  · next hn => exact ⟨_, _, rfl, .inr ⟨rfl, hn⟩⟩

namespace EngineNext

/-! One lemma per operation whose end has more than one form. -/

theorem of_hdrPair (hp : s.phase = Phase.hdrPair) (h : exec .hdrPair s = .next t) :
    EngineNext s t := by
  rcases exec_hdrPair_next h with ⟨-, rfl⟩ | ⟨-, -, rfl⟩ | ⟨-, u, rfl, ⟨v, hv, rfl⟩ | ⟨-, rfl⟩⟩
  · exact .raised (.inl rfl)
  · exact .raised (.inl rfl)
  · obtain ⟨n, phase, he, hn⟩ := afterPair_eq v
    have hf := fmapInsert_frame hv
    have hvp : v.phase = Phase.hdrPair := by rw [hf]; exact hp
    rw [he, hf]
    exact .hdrPair hp (hf ▸ hv) (hvp ▸ hn)
  · exact .raised (.inl rfl)

theorem of_treeSeed (hp : s.phase = Phase.treeSeed) (h : exec .treeSeed s = .next t) :
    EngineNext s t := by
  obtain ⟨u, hu, hc⟩ := exec_treeSeed_next h
  rw [(seedFrom_frame hu).1] at hc
  rcases hc with ⟨-, r, -, rfl⟩ | ⟨-, rfl⟩
  · exact .tree (.inl hp) (.inr rfl)
  · exact .tree (.inl hp) (.inl rfl)

theorem of_treeMerge (hp : s.phase = Phase.treeMerge) (h : exec .treeMerge s = .next t) :
    EngineNext s t := by
  obtain ⟨-, -, a, b, heap, root, phase, -, -, -, -, -, -, -, rfl, hc⟩ := exec_treeMerge_next h
  rcases hc with ⟨-, -, rfl⟩ | ⟨-, -, rfl⟩
  · exact .tree (.inr hp) (.inr rfl)
  · exact .tree (.inr hp) (.inl hp)

theorem of_payload (hp : s.phase = Phase.payload) (h : exec .payload s = .next t) :
    EngineNext s t := by
  rcases exec_payload_next h with ⟨-, rfl⟩ | ⟨-, rfl⟩
  · rcases payloadNext_cases { s with
        pos := BitVec.ofNat 32 (s.pos.toNat + s.pBytes.toNat), payBase := s.pos } with
      ⟨-, -, he⟩ | ⟨-, hu, he⟩ | ⟨-, -, he⟩ | ⟨-, -, -, he⟩ | ⟨-, -, -, he⟩ <;> rw [he]
    · exact .payload hp (.inr (.inr (.inr rfl)))
    · exact .payload hp (.inl ⟨rfl, hu⟩)
    · exact .raised (.inl rfl)
    · exact .payload hp (.inr (.inr (.inl rfl)))
    · exact .payload hp (.inr (.inl rfl))
  · exact .raised (.inl rfl)

theorem of_decBit (hp : s.phase = Phase.decBit) (h : exec .decBit s = .next t) :
    EngineNext s t := by
  obtain ⟨hr, -, u, rfl, hc⟩ := exec_decBit_next h
  have hb : (s.bitPos + 1#32).toNat ≤ s.pBits.toNat := toNat_bitPos_succ hr ▸ hr.1
  have hph : ∀ c : Prop, [Decidable c] →
      (if c then Phase.decEnd else s.phase) = Phase.decBit ∨
      (if c then Phase.decEnd else s.phase) = Phase.decEnd := by
    intro c _
    split
    · exact .inr rfl
    · exact .inl hp
  rcases hc with ⟨-, rfl⟩ | ⟨y, -, ho, rfl⟩ | ⟨-, -, rfl⟩
  · exact .decBit hp hb (hph _)
  · exact .decBitEmit hp hb (hph _) ho
  · exact .raised (.inr hb)

/-- Every engine operation ends in one of the ways of `EngineNext`, by the row of the phase table
(30_encoding.md R118). -/
theorem of_exec {i : Instr} (hd : decodePhase s.phase = .ok i) (h : exec i s = .next t) :
    EngineNext s t := by
  have hi := decodePhase_mem hd
  simp only [phaseTable, List.mem_cons, Prod.mk.injEq, List.not_mem_nil, or_false] at hi
  rcases hi with ⟨-, rfl⟩ | ⟨hp, rfl⟩ | ⟨hp, rfl⟩ | ⟨hp, rfl⟩ | ⟨hp, rfl⟩ | ⟨hp, rfl⟩ | ⟨hp, rfl⟩ |
    ⟨hp, rfl⟩ | ⟨hp, rfl⟩ | ⟨hp, rfl⟩ | ⟨hp, rfl⟩ | ⟨hp, rfl⟩ | ⟨hp, rfl⟩ | ⟨hp, rfl⟩ | ⟨hp, rfl⟩ |
    ⟨-, rfl⟩ | ⟨-, rfl⟩
  · rw [exec_idle_next h]
    exact .quiet
  · rcases exec_hdrDeclen_next h with ⟨-, rfl⟩ | ⟨-, rfl⟩
    · exact .hdrDeclen hp
    · exact .raised (.inl rfl)
  · rcases exec_hdrReserved_next h with ⟨-, -, rfl⟩ | ⟨-, -, rfl⟩ | ⟨-, rfl⟩
    · exact .hdrReserved hp
    · exact .raised (.inl rfl)
    · exact .raised (.inl rfl)
  · rcases exec_hdrCount_next h with ⟨-, hn, rfl⟩ | ⟨-, -, rfl⟩ | ⟨-, rfl⟩
    · exact .hdrCount hp hn
    · exact .raised (.inl rfl)
    · exact .raised (.inl rfl)
  · exact of_hdrPair hp h
  · exact of_treeSeed hp h
  · exact of_treeMerge hp h
  · rw [exec_codeBuild_next h]
    exact .codeBuild hp
  · rcases exec_trlPbits_next h with ⟨-, rfl⟩ | ⟨-, rfl⟩
    · exact .trlPbits hp
    · exact .raised (.inl rfl)
  · rcases exec_trlPbytes_next h with ⟨-, rfl⟩ | ⟨-, rfl⟩
    · exact .trlPbytes hp
    · exact .raised (.inl rfl)
  · rcases exec_trlUnpacked_next h with ⟨-, rfl⟩ | ⟨-, rfl⟩
    · exact .trlUnpacked hp
    · exact .raised (.inl rfl)
  · exact of_payload hp h
  · rcases exec_decSingle_next h with ⟨ho, rfl⟩ | ⟨-, rfl⟩
    · exact .decSingle hp ho
    · exact .raised (.inl rfl)
  · exact of_decBit hp h
  · rcases exec_decEnd_next h with ⟨-, rfl⟩ | ⟨-, rfl⟩
    · exact .decEnd hp
    · exact .raised (.inl rfl)
  · rw [exec_done_next h]
    exact .quiet
  · rw [exec_error_next h]
    exact .quiet

end EngineNext

/-- A write to CTRL writes its three fields at most (10_state.md R25). -/
theorem State.writeCtrl_eq (s : State) (v : Word) :
    ∃ be bitord ie, s.writeCtrl v = { s with be := be, bitord := bitord, ie := ie } := by
  unfold State.writeCtrl
  split <;> exact ⟨_, _, _, rfl⟩

/-- A write to IN_LEN writes it at most (10_state.md R35). -/
theorem State.writeInLen_eq (s : State) (v : Word) :
    ∃ n, s.writeInLen v = { s with inLen := n } := by
  unfold State.writeInLen
  split <;> exact ⟨_, rfl⟩

/-- The induction for an invariant that the fields a host register write, a read, the RST level and
the moves to come change do not enter: what is left is the engine's operations, START and CLEAR, a
byte of IN and RST. -/
theorem step_keeps_of_hostBlind {Inv : State → Prop}
    (host : ∀ s be bitord ie inLen rst rdData turns, Inv s →
      Inv { s with
        be := be, bitord := bitord, ie := ie, inLen := inLen, rst := rst, rdData := rdData,
        turns := turns })
    (engine : ∀ s t, Inv s → EngineNext s t → Inv t)
    (restart : ∀ s p, Inv s → p = Phase.idle ∨ p = Phase.hdrDeclen → Inv (s.restart p))
    (inByte : ∀ s a v, Inv s → a < s.cfg.inSize → Inv (s.putInByte a v))
    (reset : ∀ s, Inv s → Inv (State.resetWith s.cfg s.inst (s.draws + 1)))
    (hi : Inv s) (h : step s = .next t) : Inv t := by
  refine step_keeps ?turns ?engine ?respond ?start ?clear ?ctrl ?inLen ?inByte ?rst hi h
  case turns => exact fun s ts hs => host s _ _ _ _ _ _ ts hs
  case engine => exact fun s t i hs _ hd he => engine s t hs (.of_exec hd he)
  case respond => exact fun s v hs => host s _ _ _ _ _ v _ hs
  case start => exact fun s hs _ => restart s _ hs (.inr rfl)
  case clear => exact fun s hs => restart s _ hs (.inl rfl)
  case ctrl =>
    intro s v hs
    obtain ⟨be, bitord, ie, he⟩ := s.writeCtrl_eq v
    exact he ▸ host s be bitord ie _ _ _ _ hs
  case inLen =>
    intro s v hs
    obtain ⟨n, he⟩ := s.writeInLen_eq v
    exact he ▸ host s _ _ _ n _ _ _ hs
  case inByte => exact fun s a v hs _ ha => inByte s a v hs ha
  case rst =>
    intro s level hs
    unfold State.setRst
    split
    · exact host _ _ _ _ _ true s.rdData s.turns (reset s hs)
    · exact host s _ _ _ _ false _ _ hs

end Sys2Proof.Machine
end

section
/-! PROOFS. Every step keeps the control, memory, alphabet and progress invariants of 10_state.md. -/

namespace Sys2Proof.Machine

variable {s t : State}

/-! ### The control invariant (10_state.md R27, R32, R33) -/

theorem HbdError.code_ne_seven (e : HbdError) : e.code ≠ 7#3 := by
  cases e <;> decide

/-- A legal phase with the error record cleared. -/
theorem State.controlInv_of_noError (hp : s.phase.toNat ≤ 0x10) (hcode : s.errCode = 0#3)
    (hrec : s.errPhase = 0#5) : s.controlInv :=
  ⟨⟨hp, by simp [hcode]⟩, fun _ => ⟨hcode, hrec⟩⟩

/-- A move from a phase below ERROR to a phase below ERROR that keeps the error record. -/
theorem State.controlInv.enterPhase {q r : BitVec 5} (hi : s.controlInv) (hs : s.phase = q)
    (ht : t.phase = r) (hqr : q.toNat < 0x10 ∧ r.toNat < 0x10) (hcode : t.errCode = s.errCode)
    (hrec : t.errPhase = s.errPhase) : t.controlInv := by
  obtain ⟨⟨-, hlegal⟩, hzero⟩ := hi
  obtain ⟨hq, hr⟩ := hqr
  have hne : s.phase ≠ Phase.error := fun hc => absurd hq (by simp [← hs, hc])
  exact ⟨⟨ht ▸ hr.le, hcode ▸ hlegal⟩, fun _ => hcode ▸ hrec ▸ hzero hne⟩

theorem EngineNext.keeps_controlInv (hi : s.controlInv) (h : EngineNext s t) : t.controlInv := by
  cases h with
  | quiet => exact hi
  | raised => exact ⟨⟨le_rfl, HbdError.code_ne_seven _⟩, fun hc => absurd rfl hc⟩
  | hdrDeclen hp | hdrReserved hp | hdrCount hp | codeBuild hp | trlPbits hp | trlPbytes hp
  | trlUnpacked hp | decEnd hp => exact hi.enterPhase hp rfl (by simp) rfl rfl
  | hdrPair hp _ hc =>
    rcases hc with ⟨rfl, -⟩ | ⟨rfl, -⟩ <;> exact hi.enterPhase hp rfl (by simp) rfl rfl
  | tree hp hc =>
    rcases hp with hp | hp <;> rcases hc with rfl | rfl <;>
      exact hi.enterPhase hp rfl (by simp) rfl rfl
  | payload hp hc =>
    rcases hc with ⟨rfl, -⟩ | rfl | rfl | rfl <;>
      exact hi.enterPhase hp rfl (by simp) rfl rfl
  | decSingle hp =>
    by_cases hlast : s.ocnt + 1 = s.unpacked.toNat
    · exact hi.enterPhase hp (if_pos hlast) (by simp) rfl rfl
    · exact hi.enterPhase hp ((if_neg hlast).trans hp) (by simp) rfl rfl
  | decBit hp _ hc | decBitEmit hp _ hc =>
    rcases hc with rfl | rfl <;> exact hi.enterPhase hp rfl (by simp) rfl rfl

/-- Settles O52: an error records a code other than 7, every other engine operation starts below
ERROR and ends there with the record untouched, and START, CLEAR and RST clear it. -/
theorem stepsKeepTheControlInvariant : Obligations.StepsKeepTheControlInvariant := by
  intro s t hi h
  refine step_keeps_of_hostBlind (fun s _ _ _ _ _ _ _ hs => hs) (fun _ _ => EngineNext.keeps_controlInv)
    ?restart (fun s _ _ hs _ => hs) ?reset hi h
  case restart =>
    rintro s p - (rfl | rfl) <;> exact State.controlInv_of_noError (by simp) rfl rfl
  case reset => exact fun _ _ => State.controlInv_of_noError (by simp) rfl rfl

/-! ### The memory invariant (10_state.md R50, R51, R52) -/

/-- A write inside a memory keeps it inside. -/
theorem Memory.write_within {w n a : Nat} {m : List (Nat × BitVec w)} {v : BitVec w}
    (hm : ∀ c ∈ m, c.1 < n) (ha : a < n) : ∀ c ∈ Memory.write m a v, c.1 < n := by
  intro c hc
  rcases Memory.mem_write hc with rfl | hc
  · exact ha
  · exact hm c hc

/-- Emitting a word with OUT not full (44_bitstream_decode.md R201). -/
theorem State.memoryInv.emit (hi : s.memoryInv) (y : Word) (ho : s.ocnt ≠ s.cfg.outSize) :
    ({ s.memWriteOut s.ocnt y with ocnt := s.ocnt + 1 } : State).memoryInv := by
  obtain ⟨hin, hinside, hout, houtside, hle⟩ := hi
  have hlt : s.ocnt < s.cfg.outSize := lt_of_le_of_ne hle ho
  exact ⟨hin, hinside, Memory.write_wf _ _ hout, Memory.write_within houtside hlt, hlt⟩

theorem EngineNext.keeps_memoryInv (hi : s.memoryInv) (h : EngineNext s t) : t.memoryInv := by
  cases h with
  | decSingle _ ho => exact hi.emit _ ho
  | decBitEmit _ _ _ ho => exact hi.emit _ ho
  | _ => exact hi

/-- Settles O53: the host writes IN below IN_SIZE, the engine writes OUT at OCNT below OUT_SIZE, and
both writes keep the canonical form. -/
theorem stepsKeepTheMemoryInvariant : Obligations.StepsKeepTheMemoryInvariant := by
  intro s t hi h
  refine step_keeps_of_hostBlind (fun s _ _ _ _ _ _ _ hs => hs) (fun _ _ => EngineNext.keeps_memoryInv)
    ?restart ?inByte ?reset hi h
  case restart =>
    rintro s p ⟨hin, hinside, hout, houtside, -⟩ -
    exact ⟨hin, hinside, hout, houtside, Nat.zero_le _⟩
  case inByte =>
    rintro s a v ⟨hin, hinside, hrest⟩ ha
    exact ⟨Memory.write_wf _ _ hin, Memory.write_within hinside ha, hrest⟩
  case reset => exact fun _ _ => ⟨rfl, by simp, rfl, by simp, Nat.zero_le _⟩

/-! ### The alphabet invariant (10_state.md R41, R53) -/

/-- `FmapInsert` counts a symbol in ALPHA exactly when it enters a new one, and only below
MAX_ALPHABET (42_header.md R160). -/
theorem fmapInsert_keeps_alphabetInv {y c : Word} (hi : s.alphabetInv)
    (h : fmapInsert y c s = .ok () t) : t.alphabetInv := by
  obtain ⟨hcfg, hwf, halpha, hle⟩ := hi
  have hlen := Sorted.length_put FreqEntry.key (x := ⟨y, c⟩) hwf
  have hkey : (Sorted.find FreqEntry.key (FreqEntry.key ⟨y, c⟩) s.fmap).isSome =
      (s.count? y).isSome := by simp [State.count?, FreqEntry.key]
  rw [hkey] at hlen
  rcases fmapInsert_cases y c s with ⟨hy, he⟩ | ⟨-, -, he⟩ | ⟨hy, hfull, he⟩ <;> rw [he] at h <;>
    cases h
  · rw [if_pos hy] at hlen
    exact ⟨hcfg, Sorted.put_wf _ hwf, by rw [hlen, halpha], hlen ▸ hle⟩
  · rw [if_neg (by simp [hy])] at hlen
    have ⟨_, _, _, hmax⟩ := hcfg
    refine ⟨hcfg, Sorted.put_wf _ hwf, ?_, ?_⟩
    · dsimp only
      rw [hlen, State.toNat_alphaAfter (by omega), halpha]
    · dsimp only
      omega

theorem EngineNext.keeps_alphabetInv (hi : s.alphabetInv) (h : EngineNext s t) :
    t.alphabetInv := by
  cases h with
  | @hdrPair pos _ _ _ _ _ _ _ hf _ =>
    have hpos : ({ s with pos := pos } : State).alphabetInv := hi
    have hpair := fmapInsert_keeps_alphabetInv hpos hf
    exact hpair
  | _ => exact hi

/-- Settles O55: HDR_PAIR alone writes FMAP and ALPHA, through `FmapInsert`; START, CLEAR and RST
empty both. -/
theorem stepsKeepTheAlphabetInvariant : Obligations.StepsKeepTheAlphabetInvariant := by
  intro s t hi h
  refine step_keeps_of_hostBlind (fun s _ _ _ _ _ _ _ hs => hs)
    (fun _ _ => EngineNext.keeps_alphabetInv) ?restart (fun s _ _ hs _ => hs) ?reset hi h
  case restart => exact fun s p hs _ => ⟨hs.1, rfl, rfl, Nat.zero_le _⟩
  case reset => exact fun s hs => ⟨hs.1, rfl, rfl, Nat.zero_le _⟩

/-! ### The progress invariant (10_state.md R38, R52) -/

/-- With nothing read of the payload and nothing emitted, what is left is a pair for HDR_PAIR and a
copy for DEC_SINGLE. -/
theorem State.progressInv_of_fresh (hb : s.bitPos = 0#32) (ho : s.ocnt = 0)
    (hpair : s.phase = Phase.hdrPair → s.pairsLeft ≠ 0#32)
    (hsingle : s.phase = Phase.decSingle → s.unpacked ≠ 0#32) : s.progressInv := by
  refine ⟨by simp [hb], fun _ _ => hb, fun _ _ => ho, hpair, fun hp => ?_⟩
  rw [ho]
  exact Nat.pos_of_ne_zero fun hc => hsingle hp (BitVec.eq_of_toNat_eq hc)

/-- Past DEC_SINGLE only the bound on BITPOS is left. -/
theorem State.progressInv_of_late {q : BitVec 5} (hp : s.phase = q) (hq : 0x0D ≤ q.toNat)
    (hb : s.bitPos.toNat ≤ s.pBits.toNat) : s.progressInv := by
  subst hp
  refine ⟨hb, fun _ _ => by omega, fun _ _ => by omega, fun hc => ?_, fun hc => ?_⟩ <;>
    simp [hc] at hq

/-- Up to PAYLOAD nothing of the payload has been read and nothing emitted. -/
theorem State.progressInv.fresh {q : BitVec 5} (hi : s.progressInv) (hp : s.phase = q)
    (hq : 1 ≤ q.toNat ∧ q.toNat ≤ 0x0B) : s.bitPos = 0#32 ∧ s.ocnt = 0 := by
  obtain ⟨-, hbit, hout, -⟩ := hi
  subst hp
  exact ⟨hbit hq.1 (by omega), hout hq.1 hq.2⟩

theorem EngineNext.keeps_progressInv (hi : s.progressInv) (h : EngineNext s t) :
    t.progressInv := by
  have ⟨hbits, hzero, _, _, hcopies⟩ := hi
  cases h with
  | quiet => exact hi
  | raised hb => exact State.progressInv_of_late rfl (by simp) (hb.elim (fun h => h ▸ hbits) id)
  | hdrDeclen hp | hdrReserved hp | codeBuild hp | trlPbits hp | trlPbytes hp | trlUnpacked hp =>
    obtain ⟨hb, ho⟩ := hi.fresh hp (by decide)
    exact State.progressInv_of_fresh hb ho nofun nofun
  | hdrCount hp hn =>
    obtain ⟨hb, ho⟩ := hi.fresh hp (by decide)
    exact State.progressInv_of_fresh hb ho (fun _ => hn) nofun
  | hdrPair hp _ hc =>
    obtain ⟨hb, ho⟩ := hi.fresh hp (by decide)
    rcases hc with ⟨rfl, -⟩ | ⟨rfl, hn⟩
    · exact State.progressInv_of_fresh hb ho nofun nofun
    · exact State.progressInv_of_fresh hb ho (fun _ => hn) nofun
  | tree hp hc =>
    obtain ⟨hb, ho⟩ : s.bitPos = 0#32 ∧ s.ocnt = 0 := by
      rcases hp with hp | hp <;> exact hi.fresh hp (by decide)
    rcases hc with rfl | rfl <;> exact State.progressInv_of_fresh hb ho nofun nofun
  | payload hp hc =>
    obtain ⟨hb, ho⟩ := hi.fresh hp (by decide)
    rcases hc with ⟨rfl, hu⟩ | rfl | rfl | rfl
    · exact State.progressInv_of_fresh hb ho nofun (fun _ => hu)
    all_goals exact State.progressInv_of_late rfl (by simp) hbits
  | decSingle hp =>
    have hlt := hcopies hp
    have hb := hzero (by simp [hp]) (by simp [hp])
    by_cases hlast : s.ocnt + 1 = s.unpacked.toNat
    · simp only [hlast, if_true]
      exact State.progressInv_of_late rfl (by simp) hbits
    · simp only [if_neg hlast, hp]
      exact ⟨hbits, fun _ _ => hb, fun _ hc => absurd hc (by simp), nofun,
        fun _ => by dsimp only [State.memWriteOut]; omega⟩
  | decBit _ hb hc | decBitEmit _ hb hc =>
    rcases hc with rfl | rfl <;> exact State.progressInv_of_late rfl (by simp) hb
  | decEnd => exact State.progressInv_of_late rfl (by simp) hbits

/-- Settles O56: up to PAYLOAD every operation leaves BITPOS and OCNT at 0, PAYLOAD enters DEC_SINGLE
only with UNPACKED not 0, DEC_SINGLE stays only short of UNPACKED, and DEC_BIT reads below PBITS. -/
theorem stepsKeepTheProgressInvariant : Obligations.StepsKeepTheProgressInvariant := by
  intro s t hi h
  refine step_keeps_of_hostBlind (fun s _ _ _ _ _ _ _ hs => hs)
    (fun _ _ => EngineNext.keeps_progressInv) ?restart (fun s _ _ hs _ => hs) ?reset hi h
  case restart =>
    rintro s p - (rfl | rfl) <;> exact State.progressInv_of_fresh rfl rfl nofun nofun
  case reset => exact fun _ _ => State.progressInv_of_fresh rfl rfl nofun nofun

end Sys2Proof.Machine
end

section
/-! PROOFS. The reset state and its invariants, and what the STATUS and CTRL registers read and take (10_state.md R22–R34, R63). -/

namespace Sys2Proof.Machine

/-! ### Reset -/

/-- Settles O9: the reset state is `State.resetWith`, field by field; BUSY, DONE, ERR and IRQ and the
computed registers follow from PHASE being IDLE and CAND being empty. -/
theorem resetState : Obligations.ResetState := by
  unfold Obligations.ResetState
  and_intros <;> rfl

/-- Settles O51: the parameters are in range, the memories and FMAP empty, and the counters 0. -/
theorem resetMeetsTheInvariants : Obligations.ResetMeetsTheInvariants := by
  have hcfg : State.reset.cfg.ok := Config.params_ok
  refine ⟨?control, ?memory, ?cursor, ?alphabet, ?progress⟩
  case control => exact State.controlInv_of_noError (by decide) rfl rfl
  case memory => exact ⟨rfl, nofun, rfl, nofun, Nat.zero_le _⟩
  case cursor => exact ⟨hcfg, Nat.zero_le _, fun _ => rfl, fun _ _ => le_rfl⟩
  case alphabet => exact ⟨hcfg, rfl, rfl, Nat.zero_le _⟩
  case progress => exact State.progressInv_of_fresh rfl rfl nofun nofun

/-! ### STATUS and CTRL -/

/-- Concatenation as arithmetic: the upper part stands above the lower one. -/
theorem toNat_append_add {m n : Nat} (x : BitVec m) (y : BitVec n) :
    (x ++ y).toNat = x.toNat * 2 ^ n + y.toNat := by
  rw [BitVec.toNat_append, ← Nat.shiftLeft_add_eq_or_of_lt y.isLt, Nat.shiftLeft_eq]

theorem State.busy_eq (s : State) :
    s.busy = decide (s.phase ≠ 0x00#5 ∧ s.phase ≠ 0x0F#5 ∧ s.phase ≠ 0x10#5) := by
  rw [Bool.eq_iff_iff]
  simp [State.busy, and_assoc]

theorem State.irq_eq (s : State) :
    s.irq = decide (s.ie = true ∧ (s.phase = 0x0F#5 ∨ s.phase = 0x10#5)) := by
  rw [Bool.eq_iff_iff]
  simp [State.irq, State.isDone, State.isErr]

/-- The places of the fields of STATUS (10_state.md R27–R34). -/
theorem State.toNat_statusWord (s : State) :
    s.statusWord.toNat = s.phase.toNat + 2 ^ 8 * s.busy.toNat + 2 ^ 9 * s.isDone.toNat +
      2 ^ 10 * s.isErr.toNat + 2 ^ 11 * s.irq.toNat + 2 ^ 12 * s.errCode.toNat +
      2 ^ 16 * s.errPhase.toNat := by
  simp only [State.statusWord, toNat_append_add, BitVec.toNat_ofBool, BitVec.toNat_ofNat]
  omega

/-- The places of the fields of CTRL (10_state.md R22–R25). -/
theorem State.toNat_ctrlWord (s : State) :
    s.ctrlWord.toNat = s.be.toNat + 2 * s.bitord.toNat + 4 * s.ie.toNat := by
  simp only [State.ctrlWord, toNat_append_add, BitVec.toNat_ofBool, BitVec.toNat_ofNat]
  omega

/-- Settles O12: the read returns the STATUS word, whose fields stand at the places of
`State.toNat_statusWord`. -/
theorem statusReadReturnsItsFields : Obligations.StatusReadReturnsItsFields := by
  intro s
  refine ⟨s.respond s.statusWord, rfl, rfl, ?_⟩
  rw [State.respond_rdData, State.toNat_statusWord, State.busy_eq, State.irq_eq]
  rfl

theorem State.writeCtrl_of_idle {s : State} (v : Word) (h : s.busy = false) :
    s.writeCtrl v = { s with be := v.getLsbD 0, bitord := v.getLsbD 1, ie := v.getLsbD 2 } := by
  simp [State.writeCtrl, h]

theorem State.writeCtrl_of_busy {s : State} (v : Word) (h : s.busy = true) :
    s.writeCtrl v = { s with ie := v.getLsbD 2 } := by
  simp [State.writeCtrl, h]

/-- Settles O13: the read returns the CTRL word, the write is `State.writeCtrl`. -/
theorem ctrlReadAndWrite : Obligations.CtrlReadAndWrite := by
  intro s v
  have hwrite : exec (.regWr32 0x000#12 v) s = .next (s.writeCtrl v) := rfl
  refine ⟨⟨s.respond s.ctrlWord, rfl, rfl, s.toNat_ctrlWord⟩, fun hb => ?_, fun hb => ?_⟩
  · rw [hwrite, State.writeCtrl_of_idle v hb]
  · rw [hwrite, State.writeCtrl_of_busy v hb]

end Sys2Proof.Machine
end

section
/-! PROOFS. What decodes is well-formed, and an access 20_memory.md R81 does not allow does nothing (20_memory.md R80, R81; 30_encoding.md R117). -/

namespace Sys2Proof

/-! ### Alignment and the regions -/

/-- The low two bits of an offset are those of its low part. -/
theorem aligned_extractLsb'_zero {n k : Nat} (off : BitVec n) (hk : 2 ≤ k) :
    aligned (off.extractLsb' 0 k) = aligned off := by
  have hdvd : 4 ∣ 2 ^ k := pow_dvd_pow 2 hk
  rw [Bool.eq_iff_iff, aligned_iff, aligned_iff, BitVec.extractLsb'_toNat, Nat.shiftRight_zero,
    Nat.mod_mod_of_dvd _ hdvd]

/-- Offsets below 0x1000 are REG (20_memory.md R80). -/
theorem inReg_iff (off : Word) : off.extractLsb' 12 20 = 0#20 ↔ off.toNat < 0x1000 := by
  rw [← BitVec.toNat_inj, BitVec.extractLsb'_toNat, Nat.shiftRight_eq_div_pow, BitVec.toNat_ofNat]
  omega

/-- Offsets from 0x40000000 on, up to OUT, are IN (20_memory.md R80). -/
theorem inIn_iff (off : Word) :
    off.extractLsb' 30 2 = 1#2 ↔ 0x40000000 ≤ off.toNat ∧ off.toNat < 0x80000000 := by
  rw [← BitVec.toNat_inj, BitVec.extractLsb'_toNat, Nat.shiftRight_eq_div_pow, BitVec.toNat_ofNat]
  omega

/-- Offsets from 0x80000000 on are OUT (20_memory.md R80). -/
theorem inOut_iff (off : Word) : off.extractLsb' 31 1 = 1#1 ↔ 0x80000000 ≤ off.toNat := by
  rw [← BitVec.toNat_inj, BitVec.extractLsb'_toNat, Nat.shiftRight_eq_div_pow, BitVec.toNat_ofNat]
  omega

/-- The byte of IN an offset names. -/
theorem toNat_inIndex {off : Word} (h : 0x40000000 ≤ off.toNat ∧ off.toNat < 0x80000000) :
    (off.extractLsb' 0 30).toNat = off.toNat - 0x40000000 := by
  rw [BitVec.extractLsb'_toNat, Nat.shiftRight_zero]
  omega

/-- The word of OUT an offset names. -/
theorem toNat_outIndex {off : Word} (h : 0x80000000 ≤ off.toNat) :
    (off.extractLsb' 2 29).toNat = (off.toNat - 0x80000000) / 4 := by
  rw [BitVec.extractLsb'_toNat, Nat.shiftRight_eq_div_pow]
  omega

/-- The address decode with its regions as numbers (20_memory.md R80). -/
theorem decodeAccess_eq (a : BusAccess) :
    decodeAccess a =
      if a.off.toNat < 0x1000 then decodeReg a
      else if 0x40000000 ≤ a.off.toNat ∧ a.off.toNat < 0x80000000 then decodeIn a
      else if 0x80000000 ≤ a.off.toNat then decodeOut a
      else .error .unmapped := by
  simp only [decodeAccess, inReg_iff, inIn_iff, inOut_iff]

/-! ### What each region decodes -/

variable {a : BusAccess} {i : Instr}

theorem decodeCmd_cases (v : Word) :
    (v = 1#32 ∧ decodeCmd v = .ok .start) ∨ (v = 2#32 ∧ decodeCmd v = .ok .clear) ∨
      (v ≠ 1#32 ∧ v ≠ 2#32 ∧ decodeCmd v = .error .reservedCommand) := by
  unfold decodeCmd
  split
  · next h => exact .inl ⟨h, rfl⟩
  · next h1 =>
    split
    · next h => exact .inr (.inl ⟨h, rfl⟩)
    · next h2 => exact .inr (.inr ⟨h1, h2, rfl⟩)

/-- An aligned 32-bit access to REG is a well-formed operation, in either direction. -/
theorem decodeReg_of_aligned (hw : a.width = 32) (hal : aligned a.off = true) :
    ∃ i, decodeReg a = .ok i ∧ i.wf = true := by
  have hreg : aligned (a.off.extractLsb' 0 12) = true :=
    (aligned_extractLsb'_zero a.off (by decide)).trans hal
  obtain ⟨dir, width, off, data⟩ := a
  cases dir with
  | read => exact ⟨.regRd32 (off.extractLsb' 0 12), by simp_all [decodeReg], hreg⟩
  | write =>
    by_cases hcmd : off.extractLsb' 0 12 = cmdOffset
    · rcases decodeCmd_cases data with ⟨-, hd⟩ | ⟨-, hd⟩ | ⟨h1, h2, hd⟩
      · exact ⟨.start, by simp_all [decodeReg], rfl⟩
      · exact ⟨.clear, by simp_all [decodeReg], rfl⟩
      · exact ⟨.regWr32 (off.extractLsb' 0 12) data, by simp_all [decodeReg],
          by simp_all [Instr.wf]⟩
    · exact ⟨.regWr32 (off.extractLsb' 0 12) data, by simp_all [decodeReg],
        by simp_all [Instr.wf]⟩

theorem decodeReg_ok (h : decodeReg a = .ok i) : a.width = 32 ∧ aligned a.off = true := by
  unfold decodeReg at h
  dsimp only at h
  split at h
  · cases h
  · next hw =>
    split at h
    · cases h
    · next hal => exact ⟨not_not.1 hw, by simpa using hal⟩

/-- IN takes every 8-bit access and the aligned 32-bit ones. -/
theorem decodeIn_ok (h : decodeIn a = .ok i) :
    (a.width = 8 ∧
      ((a.dir = .read ∧ i = .inRd8 (a.off.extractLsb' 0 30)) ∨
        (a.dir = .write ∧ i = .inWr8 (a.off.extractLsb' 0 30) (a.data.extractLsb' 0 8)))) ∨
    (a.width = 32 ∧ aligned a.off = true ∧
      ((a.dir = .read ∧ i = .inRd32 (a.off.extractLsb' 0 30)) ∨
        (a.dir = .write ∧ i = .inWr32 (a.off.extractLsb' 0 30) a.data))) := by
  unfold decodeIn at h
  dsimp only at h
  split at h
  · next hw => split at h <;> cases h <;> simp_all
  · split at h
    · next hw =>
      split at h
      · next hal => split at h <;> cases h <;> simp_all
      · cases h
    · cases h

theorem decodeIn_of_byte (hw : a.width = 8) : ∃ i, decodeIn a = .ok i := by
  cases hd : a.dir <;> simp [decodeIn, hw, hd]

theorem decodeIn_of_word (hw : a.width = 32) (hal : aligned a.off = true) :
    ∃ i, decodeIn a = .ok i := by
  cases hd : a.dir <;> simp [decodeIn, hw, hal, hd]

/-- OUT takes the aligned 32-bit reads. -/
theorem decodeOut_ok_iff :
    decodeOut a = .ok i ↔ a.dir = .read ∧ a.width = 32 ∧ aligned a.off = true ∧
      i = .outRd32 (a.off.extractLsb' 2 29) := by
  unfold decodeOut
  cases a.dir with
  | write => simp
  | read => by_cases hw : a.width = 32 <;> by_cases hal : aligned a.off <;> simp [hw, hal, eq_comm]

/-! ### Whatever decodes is well-formed -/

theorem decodePhase_wf {p : BitVec 5} (h : decodePhase p = .ok i) : i.wf = true := by
  have htable : ∀ row ∈ Machine.phaseTable, row.2.wf = true := by decide
  exact htable _ (Machine.decodePhase_mem h)

theorem decodeCmd_wf {v : Word} (h : decodeCmd v = .ok i) : i.wf = true := by
  rcases decodeCmd_cases v with ⟨-, hd⟩ | ⟨-, hd⟩ | ⟨-, -, hd⟩ <;> cases hd.symm.trans h <;> rfl

theorem decodeReg_wf (h : decodeReg a = .ok i) : i.wf = true := by
  obtain ⟨hw, hal⟩ := decodeReg_ok h
  obtain ⟨j, hj, hwf⟩ := decodeReg_of_aligned hw hal
  cases hj.symm.trans h
  exact hwf

theorem decodeIn_wf (h : decodeIn a = .ok i) : i.wf = true := by
  rcases decodeIn_ok h with ⟨-, ⟨-, rfl⟩ | ⟨-, rfl⟩⟩ | ⟨-, hal, hi⟩
  · rfl
  · rfl
  · have hidx : aligned (a.off.extractLsb' 0 30) = true :=
      (aligned_extractLsb'_zero a.off (by decide)).trans hal
    rcases hi with ⟨-, rfl⟩ | ⟨-, rfl⟩ <;> exact hidx

theorem decodeOut_wf (h : decodeOut a = .ok i) : i.wf = true := by
  obtain ⟨-, -, -, rfl⟩ := decodeOut_ok_iff.1 h
  rfl

theorem decodeAccess_wf (h : decodeAccess a = .ok i) : i.wf = true := by
  unfold decodeAccess at h
  split at h
  · exact decodeReg_wf h
  · split at h
    · exact decodeIn_wf h
    · split at h
      · exact decodeOut_wf h
      · cases h

/-- Settles O2: every format decodes through the phase table, the command table or the address
decode, and each of the three gives well-formed operations alone. -/
theorem decodedIsWellFormed : Obligations.DecodedIsWellFormed := by
  intro f bs rest i h
  unfold decode at h
  split at h
  case h_1 =>
    split at h
    · next hd => cases h; exact decodePhase_wf hd
    · cases h
  case h_2 =>
    split at h
    · next hd => cases h; exact decodeCmd_wf hd
    · cases h
  case h_3 | h_4 =>
    split at h
    · next hd => cases h; exact decodeAccess_wf hd
    · cases h
  case h_5 => cases h

end Sys2Proof

namespace Sys2Proof.Machine

/-! ### Accesses that are not allowed -/

variable {s : State} {a : BusAccess} {i : Instr}

/-! Each memory operation beyond its memory (20_memory.md R80). -/

theorem exec_inRd8_beyond {n : BitVec 30} (h : s.cfg.inSize ≤ n.toNat) :
    exec (.inRd8 n) s = .next (s.respond 0#32) := by
  simp [exec, execInRd8, not_lt.2 h]

theorem exec_inWr8_beyond {n : BitVec 30} (v : Byte) (h : s.cfg.inSize ≤ n.toNat) :
    exec (.inWr8 n v) s = .next s := by
  simp [exec, execInWr8, not_lt.2 h]

theorem exec_inRd32_beyond {n : BitVec 30} (h : s.cfg.inSize ≤ n.toNat + 3) :
    exec (.inRd32 n) s = .next (s.respond 0#32) := by
  have hmapped : ¬ s.inWordMapped n := fun hm => not_lt.2 h hm.2
  simp only [exec, execInRd32, if_neg hmapped]

theorem exec_inWr32_beyond {n : BitVec 30} (v : Word) (h : s.cfg.inSize ≤ n.toNat + 3) :
    exec (.inWr32 n v) s = .next s := by
  have hmapped : ¬ s.inWordMapped n := fun hm => not_lt.2 h hm.2
  simp only [exec, execInWr32, hmapped, and_false, if_false]

theorem exec_outRd32_beyond {n : BitVec 29} (h : s.cfg.outSize ≤ n.toNat) :
    exec (.outRd32 n) s = .next (s.respond 0#32) := by
  simp [exec, execOutRd32, State.outRead, not_lt.2 h]

theorem exec_inAccess_notAllowed (hin : 0x40000000 ≤ a.off.toNat ∧ a.off.toNat < 0x80000000)
    (h : decodeIn a = .ok i) (hna : ¬ allowedAccess s.cfg a) :
    exec i s = .next (s.noEffect a.dir) := by
  have hidx := toNat_inIndex hin
  rcases decodeIn_ok h with ⟨hw, hi⟩ | ⟨hw, hal, hi⟩
  · have hbeyond : s.cfg.inSize ≤ (a.off.extractLsb' 0 30).toNat :=
      not_lt.1 fun hlt => hna (.inr (.inl ⟨hin.1, by omega, hw⟩))
    rcases hi with ⟨hd, rfl⟩ | ⟨hd, rfl⟩ <;> rw [hd]
    · exact exec_inRd8_beyond hbeyond
    · exact exec_inWr8_beyond _ hbeyond
  · have hbeyond : s.cfg.inSize ≤ (a.off.extractLsb' 0 30).toNat + 3 :=
      not_lt.1 fun hlt =>
        hna (.inr (.inr (.inl ⟨hin.1, by omega, hw, (aligned_iff _).1 hal⟩)))
    rcases hi with ⟨hd, rfl⟩ | ⟨hd, rfl⟩ <;> rw [hd]
    · exact exec_inRd32_beyond hbeyond
    · exact exec_inWr32_beyond _ hbeyond

theorem exec_outAccess_notAllowed (hout : 0x80000000 ≤ a.off.toNat) (h : decodeOut a = .ok i)
    (hna : ¬ allowedAccess s.cfg a) : exec i s = .next (s.noEffect a.dir) := by
  obtain ⟨hd, hw, hal, rfl⟩ := decodeOut_ok_iff.1 h
  have hidx := toNat_outIndex hout
  have hal := (aligned_iff _).1 hal
  have hbeyond : s.cfg.outSize ≤ (a.off.extractLsb' 2 29).toNat :=
    not_lt.1 fun hlt => hna (.inr (.inr (.inr ⟨hout, by omega, hw, hal, hd⟩)))
  rw [hd]
  exact exec_outRd32_beyond hbeyond

/-- An access that decodes and is not allowed lies beyond IN or OUT, and does nothing. -/
theorem exec_notAllowed (h : decodeAccess a = .ok i) (hna : ¬ allowedAccess s.cfg a) :
    exec i s = .next (s.noEffect a.dir) := by
  rw [decodeAccess_eq] at h
  split at h
  · next hreg =>
    obtain ⟨hw, hal⟩ := decodeReg_ok h
    exact absurd (.inl ⟨hreg, hw, (aligned_iff _).1 hal⟩) hna
  · split at h
    · next hin => exact exec_inAccess_notAllowed hin h hna
    · split at h
      · next hout => exact exec_outAccess_notAllowed hout h hna
      · cases h

theorem hostTurn_notAllowed (hna : ¬ allowedAccess s.cfg a) :
    hostTurn a s = .next (s.noEffect a.dir) := by
  unfold hostTurn
  split
  · rfl
  · split
    · next hd => exact exec_notAllowed hd hna
    · rfl

/-- With IN and OUT inside their regions, every allowed access decodes (20_memory.md R80, R81). -/
theorem decodeAccess_of_allowed {p : Params} (hp : p.ok) (h : allowedAccess p a) :
    ∃ i, decodeAccess a = .ok i := by
  obtain ⟨⟨-, hin⟩, -, -⟩ := hp
  rw [decodeAccess_eq]
  rcases h with ⟨hreg, hw, hal⟩ | ⟨hlo, hhi, hw⟩ | ⟨hlo, hhi, hw, hal⟩ | ⟨hlo, -, hw, hal, hd⟩
  · obtain ⟨i, hi, -⟩ := decodeReg_of_aligned hw ((aligned_iff _).2 hal)
    exact ⟨i, (if_pos hreg).trans hi⟩
  · rw [if_neg (by omega), if_pos (by omega)]
    exact decodeIn_of_byte hw
  · rw [if_neg (by omega), if_pos (by omega)]
    exact decodeIn_of_word hw ((aligned_iff _).2 hal)
  · rw [if_neg (by omega), if_neg (by omega), if_pos hlo]
    exact ⟨_, decodeOut_ok_iff.2 ⟨hd, hw, (aligned_iff _).2 hal, rfl⟩⟩

/-- Settles O6: an access that does not decode is turned away by the host's turn, one that decodes
and is not allowed by its own operation; and what is allowed decodes. -/
theorem accessesNotAllowedDoNothing : Obligations.AccessesNotAllowedDoNothing := by
  intro s a ts hlegal hcfg
  refine ⟨fun hts hna => ?_, fun hallowed => ?_⟩
  · have hmove : hostTurn a { s with turns := ts } =
        .next (({ s with turns := ts } : State).noEffect a.dir) := hostTurn_notAllowed hna
    have hstep : step s = hostTurn a { s with turns := ts } := by
      unfold step nextMove
      rw [unreachable_none_iff.2 hlegal, hts]
      rfl
    rw [hstep, hmove]
    cases a.dir <;> rfl
  · obtain ⟨i, hi⟩ := decodeAccess_of_allowed hcfg hallowed
    exact ⟨i, hi, decodeAccess_wf hi⟩

end Sys2Proof.Machine
end

section
/-! PROOFS. The bytes of IN as words: lanes of mixed-width accesses, and the byte and bit order of the wire (20_memory.md R82, R86, R87, R98). -/

namespace Sys2Proof.Machine

/-! ### Lanes -/

variable {s t : State} {a : BitVec 30} {j : Nat}

/-- Byte `j` of an aligned word of IN: its index does not wrap. -/
theorem toNat_laneIndex (hal : a.toNat % 4 = 0) (hj : j < 4) :
    (a + BitVec.ofNat 30 j).toNat = a.toNat + j := by
  have := a.isLt
  rw [BitVec.toNat_add, BitVec.toNat_ofNat]
  omega

/-- Lane `j` of a word of IN is its byte `j` (20_memory.md R82). -/
theorem State.toNat_inWord_lane (s : State) (n : Nat) (hj : j < 4) :
    (s.inWord n).toNat / 2 ^ (8 * j) % 2 ^ 8 = (s.inByte (n + j)).toNat := by
  have h0 := (s.inByte n).isLt
  have h1 := (s.inByte (n + 1)).isLt
  have h2 := (s.inByte (n + 2)).isLt
  have h3 := (s.inByte (n + 3)).isLt
  rw [State.inWord, toNat_wordOf]
  interval_cases j <;> simp only [Nat.reduceMul, Nat.add_zero] <;> omega

/-- A word written to IN holds lane `j` in its byte `j` (20_memory.md R82). -/
theorem State.inByte_putInWord_lane (s : State) (n : Nat) (v : Word) (hj : j < 4) :
    (s.putInWord n v).inByte (n + j) = lane v j := by
  rw [State.inByte_putInWord]
  interval_cases j <;> simp

theorem exec_inRd8_mapped {n : BitVec 30} (h : n.toNat < s.cfg.inSize) :
    exec (.inRd8 n) s = .next (s.respond ((s.inByte n.toNat).setWidth 32)) := by
  simp only [exec, execInRd8, if_pos h]

theorem exec_inRd32_mapped (h : s.inWordMapped a) :
    exec (.inRd32 a) s = .next (s.respond (s.inWord a.toNat)) := by
  simp only [exec, execInRd32, if_pos h]

theorem exec_inWr8_mapped {n : BitVec 30} (v : Byte) (hb : s.busy = false)
    (h : n.toNat < s.cfg.inSize) : exec (.inWr8 n v) s = .next (s.putInByte n.toNat v) := by
  simp only [exec, execInWr8, if_pos (And.intro hb h)]

theorem exec_inWr32_mapped (v : Word) (hb : s.busy = false) (h : s.inWordMapped a) :
    exec (.inWr32 a v) s = .next (s.putInWord a.toNat v) := by
  simp only [exec, execInWr32, if_pos (And.intro hb h)]

/-- Settles O19: a word read is its four bytes and a word write writes four, each in its lane, so the
byte `j` that one width writes is the one the other reads. -/
theorem mixedWidthsSeeTheSameBytes : Obligations.MixedWidthsSeeTheSameBytes := by
  intro s t a j b v hbusy hal hin hj
  have hidx := toNat_laneIndex hal hj
  have hword : s.inWordMapped a := ⟨(aligned_iff a).2 hal, hin⟩
  have hbyte : (a + BitVec.ofNat 30 j).toNat < s.cfg.inSize := by omega
  refine ⟨fun h => ?byteThenWord, fun h => ?wordThenByte⟩
  case byteThenWord =>
    rw [exec_inWr8_mapped b hbusy hbyte] at h
    cases h
    refine ⟨_, exec_inRd32_mapped hword, ?_⟩
    rw [State.respond_rdData, State.toNat_inWord_lane _ _ hj, State.inByte_putInByte, if_pos hidx.symm]
  case wordThenByte =>
    rw [exec_inWr32_mapped v hbusy hword] at h
    cases h
    refine ⟨_, exec_inRd8_mapped hbyte, ?_⟩
    rw [State.respond_rdData, hidx, State.inByte_putInWord_lane _ _ _ hj, BitVec.toNat_setWidth,
      Nat.mod_eq_of_lt ((lane v j).isLt.trans (by decide)), lane, toNat_byte]

/-! ### The order of bytes and bits on the wire -/

/-- Settles O27: BE chooses which end of the four bytes `wordOf` takes as the least significant. -/
theorem wireByteOrder : Obligations.WireByteOrder := by
  intro b0 b1 b2 b3
  exact ⟨toNat_wordOf b0 b1 b2 b3, toNat_wordOf b3 b2 b1 b0⟩

theorem State.payloadBit_eq (s : State) (k : Nat) :
    s.payloadBit k = (s.inByte (s.payBase.toNat + k / 8)).getLsbD (bitIndex s.bitord k) := rfl

theorem bitIndex_msbFirst (k : Nat) : bitIndex false k = 7 - k % 8 := rfl

theorem bitIndex_lsbFirst (k : Nat) : bitIndex true k = k % 8 := rfl

/-- Settles O28: bit `k` is in byte `k / 8`, and BITORD chooses from which end of it bits are
counted. -/
theorem payloadBitOrder : Obligations.PayloadBitOrder := by
  intro s k _
  refine ⟨fun hmsb => ?_, fun hlsb => ?_⟩
  · rw [State.payloadBit_eq, hmsb, bitIndex_msbFirst]
  · rw [State.payloadBit_eq, hlsb, bitIndex_lsbFirst]

end Sys2Proof.Machine
end

section
/-! PROOFS. What an engine operation sees of its surroundings and what it leaves of them: it reads the parameters, CTRL, OCNT and IN below IN_LEN, and its one trace is at most one emission (20_memory.md R85, R92, R95; 10_state.md R51). -/

namespace Sys2Proof.Machine

/-! ### Replacing what surrounds a decode -/

/-- `s` with everything that is not the decode's own taken from `e`: the parameters, CTRL, IN_LEN, IN,
OUT with OCNT, RST, the moves to come and the model's own fields. -/
def State.withSurroundings (s e : State) : State :=
  { s with
    cfg := e.cfg, be := e.be, bitord := e.bitord, ie := e.ie, inLen := e.inLen, inMem := e.inMem,
    outMem := e.outMem, ocnt := e.ocnt, rst := e.rst, inst := e.inst, draws := e.draws,
    rdData := e.rdData, turns := e.turns }

/-- What a decode reads of its surroundings is the same in `e` (20_memory.md R85). -/
structure SameView (s e : State) : Prop where
  cfg : e.cfg = s.cfg
  be : e.be = s.be
  bitord : e.bitord = s.bitord
  inLen : e.inLen = s.inLen
  ocnt : e.ocnt = s.ocnt
  bytes : ∀ a, a < s.inLen.toNat → e.inByte a = s.inByte a

/-- The surroundings after the engine has emitted nothing, or one symbol if OUT has room
(44_bitstream_decode.md R201). -/
def State.emitted (e : State) : Option Word → State
  | none => e
  | some y =>
    if e.ocnt = e.cfg.outSize then e else { e.memWriteOut e.ocnt y with ocnt := e.ocnt + 1 }

/-- The same answer in the surroundings `e`. -/
def Act.inSurroundings {α : Type} (e : State) : Act α → Act α
  | .ok a s => .ok a (s.withSurroundings e)
  | .raised err s => .raised err (s.withSurroundings e)
  | .refused r => .refused r

/-- The same outcome in the surroundings `e`. -/
def outcomeIn (e : State) : Host.Outcome State Fault Refusal → Host.Outcome State Fault Refusal
  | .next s => .next (s.withSurroundings e)
  | .fault f => .fault f
  | .refused r => .refused r

variable {s t e e' : State} {α : Type}

theorem SameView.refl (s : State) : SameView s s :=
  ⟨rfl, rfl, rfl, rfl, rfl, fun _ _ => rfl⟩

/-- The decode's own fields do not enter the view. -/
theorem SameView.congr (h : SameView s e) (ht : t = t.withSurroundings s) : SameView t e := by
  rw [ht]
  exact ⟨h.cfg, h.be, h.bitord, h.inLen, h.ocnt, h.bytes⟩

/-! ### One primitive after another -/

/-- A primitive seen in the surroundings `e`, and what follows it ending in `e'`: the two differ only
if the primitive does not raise. -/
theorem Act.andThen_endsIn {m m' : Act α} {p : BitVec 5}
    {k : α → State → Host.Outcome State Fault Refusal} (hm : m' = m.inSurroundings e)
    (hraised : ∀ err t, m = .raised err t → e' = e)
    (hk : ∀ a t, m = .ok a t → k a (t.withSurroundings e) = outcomeIn e' (k a t)) :
    m'.andThen p k = outcomeIn e' (m.andThen p k) := by
  subst hm
  cases m with
  | ok a t => exact hk a t rfl
  | raised err t => rw [hraised err t rfl]; rfl
  | refused r => rfl

theorem Act.andThen_inSurroundings {m m' : Act α} {p : BitVec 5}
    {k : α → State → Host.Outcome State Fault Refusal} (hm : m' = m.inSurroundings e)
    (hk : ∀ a t, m = .ok a t → k a (t.withSurroundings e) = outcomeIn e (k a t)) :
    m'.andThen p k = outcomeIn e (m.andThen p k) :=
  Act.andThen_endsIn hm (fun _ _ _ => rfl) hk

theorem Act.bind_inSurroundings {β : Type} {m m' : Act α} {k : α → State → Act β}
    (hm : m' = m.inSurroundings e)
    (hk : ∀ a t, m = .ok a t → k a (t.withSurroundings e) = (k a t).inSurroundings e) :
    m'.bind k = (m.bind k).inSurroundings e := by
  subst hm
  cases m with
  | ok a t => exact hk a t rfl
  | raised err t => rfl
  | refused r => rfl

/-- A choice that the decode's own fields, or the view, decide. -/
theorem ite_inSurroundings {c c' : Prop} [Decidable c] [Decidable c']
    {x y x' y' : Host.Outcome State Fault Refusal} (hc : c' ↔ c) (hx : x' = outcomeIn e x)
    (hy : y' = outcomeIn e y) : (if c' then x' else y') = outcomeIn e (if c then x else y) := by
  rw [hx, hy, apply_ite (outcomeIn e), if_congr hc rfl rfl]

/-! ### The cursor and the bit reader -/

/-- A wire field inside the buffer reads the same. -/
theorem SameView.wireU32 (h : SameView s e) {a : Nat} (ha : a + 4 ≤ s.inLen.toNat) :
    (s.withSurroundings e).wireU32 a = s.wireU32 a := by
  have hbyte : ∀ b, b < s.inLen.toNat → (s.withSurroundings e).inByte b = s.inByte b := h.bytes
  have hbe : (s.withSurroundings e).be = s.be := h.be
  rw [State.wireU32, hbe, hbyte a (by omega), hbyte (a + 1) (by omega), hbyte (a + 2) (by omega),
    hbyte (a + 3) (by omega)]
  rfl

theorem readU32_inSurroundings (h : SameView s e) :
    readU32 (s.withSurroundings e) = (readU32 s).inSurroundings e := by
  have hlen : (s.withSurroundings e).inLen = s.inLen := h.inLen
  rcases readU32_cases s with ⟨hle, hs⟩ | ⟨hlt, hs⟩ <;> rw [hs]
  · rw [readU32_ok (hlen ▸ hle)]
    exact congrArg (Act.ok · _) (h.wireU32 hle)
  · rw [readU32_short (hlen ▸ hlt)]
    rfl

/-- After a wire field the next primitive sees the same state but for POS. -/
theorem readU32_andThen_inSurroundings {p : BitVec 5}
    {k : Word → State → Host.Outcome State Fault Refusal} (h : SameView s e)
    (hk : ∀ v pos, k v (({ s with pos := pos } : State).withSurroundings e) =
      outcomeIn e (k v { s with pos := pos })) :
    (readU32 (s.withSurroundings e)).andThen p k = outcomeIn e ((readU32 s).andThen p k) := by
  refine Act.andThen_inSurroundings (readU32_inSurroundings h) fun v t ht => ?_
  rcases readU32_cases s with ⟨-, hs⟩ | ⟨-, hs⟩ <;> cases hs.symm.trans ht
  exact hk _ _

theorem readBytes_inSurroundings (h : SameView s e) (n : Nat) :
    readBytes n (s.withSurroundings e) = (readBytes n s).inSurroundings e := by
  have hlen : (s.withSurroundings e).inLen = s.inLen := h.inLen
  rcases readBytes_cases n s with ⟨hle, hs⟩ | ⟨hlt, hs⟩ <;> rw [hs]
  · rw [readBytes_ok (hlen ▸ hle)]
    rfl
  · rw [readBytes_short (hlen ▸ hlt)]
    rfl

/-- A payload bit that may be read lies in the buffer (41_cursor.md R154). -/
theorem SameView.payloadBit (h : SameView s e) {k : Nat} (hr : s.bitReadable k) :
    (s.withSurroundings e).payloadBit k = s.payloadBit k := by
  obtain ⟨hk, hbits, hpay⟩ := hr
  have hbyte : e.inByte (s.payBase.toNat + k / 8) = s.inByte (s.payBase.toNat + k / 8) :=
    h.bytes _ (by omega)
  calc payloadBitOf e.bitord (e.inByte (s.payBase.toNat + k / 8)) k
    _ = payloadBitOf s.bitord (s.inByte (s.payBase.toNat + k / 8)) k := by rw [h.bitord, hbyte]

theorem bitRead_inSurroundings (h : SameView s e) (k : Nat) :
    bitRead k (s.withSurroundings e) = (bitRead k s).inSurroundings e := by
  have hreadable : (s.withSurroundings e).bitReadable k ↔ s.bitReadable k := by
    have hlen : (s.withSurroundings e).inLen = s.inLen := h.inLen
    unfold State.bitReadable
    rw [hlen]
    rfl
  unfold bitRead
  by_cases hr : s.bitReadable k
  · rw [if_pos hr, if_pos (hreadable.2 hr), h.payloadBit hr]
    rfl
  · rw [if_neg hr, if_neg (mt hreadable.1 hr)]
    rfl

/-! ### FMAP, HEAP and ARENA -/

theorem SameView.maxAlphabet (h : SameView s e) :
    (s.withSurroundings e).cfg.maxAlphabet = s.cfg.maxAlphabet :=
  congrArg Params.maxAlphabet h.cfg

theorem fmapInsert_inSurroundings (h : SameView s e) (y c : Word) :
    fmapInsert y c (s.withSurroundings e) = (fmapInsert y c s).inSurroundings e := by
  unfold fmapInsert
  rw [h.maxAlphabet]
  simp only [apply_ite (Act.inSurroundings e)]
  rfl

theorem heapPush_inSurroundings (h : SameView s e) (i : Nat) :
    heapPush i (s.withSurroundings e) = (heapPush i s).inSurroundings e := by
  unfold heapPush
  rw [h.maxAlphabet]
  simp only [apply_ite (Act.inSurroundings e)]
  rfl

theorem heapPush_frame {i : Nat} (h : heapPush i s = .ok () t) : t = { s with heap := t.heap } := by
  rcases heapPush_cases i s with ⟨-, -, hs⟩ | ⟨-, -, hs⟩ | ⟨-, hs⟩ <;> cases hs.symm.trans h
  rfl

theorem heapPeek_inSurroundings (s e : State) :
    heapPeek (s.withSurroundings e) = (heapPeek s).inSurroundings e := by
  have harena : (s.withSurroundings e).arena = s.arena := rfl
  have hheap : (s.withSurroundings e).heap = s.heap := rfl
  unfold heapPeek
  rw [harena, hheap]
  split <;> rfl

theorem heapPopMin_inSurroundings (s e : State) :
    heapPopMin (s.withSurroundings e) = (heapPopMin s).inSurroundings e :=
  Act.bind_inSurroundings (heapPeek_inSurroundings s e) fun _ _ _ => rfl

theorem seedFrom_inSurroundings (l : List FreqEntry) (i : Nat) (h : SameView s e) :
    seedFrom i l (s.withSurroundings e) = (seedFrom i l s).inSurroundings e := by
  induction l generalizing i s with
  | nil => rfl
  | cons x l ih =>
    have hleaf : SameView (s.arenaPut i (.leaf x.symbol (x.count.setWidth 40))) e := h.congr rfl
    refine Act.bind_inSurroundings (heapPush_inSurroundings hleaf i) fun _ t ht => ih (i + 1) ?_
    exact hleaf.congr (by rw [heapPush_frame ht]; rfl)

/-! ### CT and the output -/

theorem ctLookup_inSurroundings (s e : State) (c : List Bool) :
    ctLookup c (s.withSurroundings e) = (ctLookup c s).inSurroundings e := by
  have hct : (s.withSurroundings e).ct = s.ct := rfl
  unfold ctLookup
  rw [hct]
  split
  · rfl
  · split <;> rfl

theorem ctLookup_frame {c : List Bool} {m : Option Word} (h : ctLookup c s = .ok m t) : t = s := by
  rcases ctLookup_cases c s with ⟨-, hs⟩ | ⟨_, -, -, hs⟩ | ⟨-, hs⟩ <;> cases hs.symm.trans h <;> rfl

theorem ctLookup_never_raises (c : List Bool) (s t : State) (err : HbdError) :
    ctLookup c s ≠ .raised err t := by
  intro h
  rcases ctLookup_cases c s with ⟨-, hs⟩ | ⟨_, -, -, hs⟩ | ⟨-, hs⟩ <;> cases hs.symm.trans h

theorem State.emitted_of_full (y : Word) (h : e.ocnt = e.cfg.outSize) : e.emitted (some y) = e :=
  if_pos h

theorem State.emitted_of_room (y : Word) (h : e.ocnt ≠ e.cfg.outSize) :
    e.emitted (some y) = { e.memWriteOut e.ocnt y with ocnt := e.ocnt + 1 } :=
  if_neg h

theorem SameView.room (h : SameView s e) : e.ocnt = e.cfg.outSize ↔ s.ocnt = s.cfg.outSize := by
  rw [h.ocnt, h.cfg]

theorem emit_inSurroundings (h : SameView s e) (y : Word) :
    emit y (s.withSurroundings e) = (emit y s).inSurroundings (e.emitted (some y)) := by
  rcases emit_cases y s with ⟨hs, hemit⟩ | ⟨hs, hemit⟩ <;> rw [hemit]
  · have he := h.room.2 hs
    rw [State.emitted_of_full y he]
    exact if_pos he
  · have he := mt h.room.1 hs
    rw [State.emitted_of_room y he]
    exact if_neg he

/-- An emission leaves OCNT the same in both. -/
theorem SameView.ocnt_emit (h : SameView s e) {y : Word} (ht : emit y s = .ok () t) :
    (e.emitted (some y)).ocnt = t.ocnt := by
  rcases emit_cases y s with ⟨-, hs⟩ | ⟨ho, hs⟩ <;> cases hs.symm.trans ht
  rw [State.emitted_of_room y (mt h.room.1 ho), h.ocnt]

theorem emitMatch_inSurroundings (h : SameView s e) (m : Option Word) :
    emitMatch m (s.withSurroundings e) = (emitMatch m s).inSurroundings (e.emitted m) := by
  cases m with
  | none => rfl
  | some y => exact Act.bind_inSurroundings (emit_inSurroundings h y) fun _ _ _ => rfl

/-! ### The operations -/

theorem afterPair_withSurroundings (s e : State) :
    afterPair (s.withSurroundings e) = (afterPair s).withSurroundings e := by
  unfold afterPair
  simp only [apply_ite (State.withSurroundings · e)]
  rfl

theorem execHdrReserved_inSurroundings (h : SameView s e) :
    execHdrReserved (s.withSurroundings e) = outcomeIn e (execHdrReserved s) :=
  readU32_andThen_inSurroundings h fun _ _ => ite_inSurroundings .rfl rfl rfl

theorem execHdrCount_inSurroundings (h : SameView s e) :
    execHdrCount (s.withSurroundings e) = outcomeIn e (execHdrCount s) :=
  readU32_andThen_inSurroundings h fun _ _ => ite_inSurroundings .rfl rfl rfl

theorem execHdrPair_inSurroundings (h : SameView s e) :
    execHdrPair (s.withSurroundings e) = outcomeIn e (execHdrPair s) :=
  readU32_andThen_inSurroundings h fun c _ =>
    readU32_andThen_inSurroundings (h.congr rfl) fun y _ =>
      Act.andThen_inSurroundings (fmapInsert_inSurroundings (h.congr rfl) y c) fun _ t _ =>
        congrArg Host.Outcome.next (afterPair_withSurroundings t e)

/-- The end of TREE_SEED and TREE_MERGE with one index left in HEAP. -/
theorem heapPeek_root_inSurroundings (s e : State) (p : BitVec 5) :
    ((heapPeek (s.withSurroundings e)).andThen p fun r s =>
        .next { s with root := some r, phase := Phase.codeBuild }) =
      outcomeIn e ((heapPeek s).andThen p fun r s =>
        .next { s with root := some r, phase := Phase.codeBuild }) :=
  Act.andThen_inSurroundings (heapPeek_inSurroundings s e) fun _ _ _ => rfl

theorem execTreeSeed_inSurroundings (h : SameView s e) :
    execTreeSeed (s.withSurroundings e) = outcomeIn e (execTreeSeed s) :=
  Act.andThen_inSurroundings (seedFrom_inSurroundings s.seedEntries 0 h) fun _ t _ =>
    ite_inSurroundings .rfl
      (heapPeek_root_inSurroundings { t with nextIdx := t.alpha.toNat } e Phase.treeSeed) rfl

theorem execTreeMerge_inSurroundings (h : SameView s e) :
    execTreeMerge (s.withSurroundings e) = outcomeIn e (execTreeMerge s) := by
  refine ite_inSurroundings .rfl rfl ?_
  refine Act.andThen_inSurroundings (heapPopMin_inSurroundings s e) fun a t ht => ?_
  refine Act.andThen_inSurroundings (heapPopMin_inSurroundings t e) fun b u hu => ?_
  have hview : SameView u e := by
    rw [(heapPopMin_ok hu).1, (heapPopMin_ok ht).1]
    exact h.congr rfl
  have hmax : (u.withSurroundings e).cfg.maxAlphabet = u.cfg.maxAlphabet := hview.maxAlphabet
  refine ite_inSurroundings (by rw [hmax]; rfl) rfl ?_
  have hpush := heapPush_inSurroundings
    (s := { u.arenaPut u.nextIdx (mergedNode u.arena a b) with nextIdx := u.nextIdx + 1 })
    (hview.congr rfl) u.nextIdx
  refine Act.andThen_inSurroundings hpush fun _ v _ => ?_
  exact ite_inSurroundings .rfl (heapPeek_root_inSurroundings v e Phase.treeMerge) rfl

theorem execPayload_inSurroundings (h : SameView s e) :
    execPayload (s.withSurroundings e) = outcomeIn e (execPayload s) :=
  Act.andThen_inSurroundings (readBytes_inSurroundings h s.pBytes.toNat) fun _ _ _ =>
    ite_inSurroundings .rfl (ite_inSurroundings .rfl rfl rfl)
      (ite_inSurroundings .rfl rfl (ite_inSurroundings .rfl rfl rfl))

theorem execDecSingle_inSurroundings (h : SameView s e) :
    execDecSingle (s.withSurroundings e) =
      outcomeIn (e.emitted (some (soleSymbol s.ct))) (execDecSingle s) := by
  refine Act.andThen_inSurroundings (emit_inSurroundings h _) fun _ t ht => ?_
  have hocnt : (t.withSurroundings (e.emitted (some (soleSymbol s.ct)))).ocnt = t.ocnt :=
    h.ocnt_emit ht
  exact ite_inSurroundings (by rw [hocnt]; rfl) rfl rfl

/-- What `CtLookup` returns, if it returns. -/
theorem ctLookup_value (c : List Bool) (s : State) :
    ∃ w, ∀ m t, ctLookup c s = .ok m t → m = w := by
  cases ctLookup c s with
  | ok w _ => exact ⟨w, fun _ _ h => by cases h; rfl⟩
  | raised _ _ => exact ⟨none, nofun⟩
  | refused _ => exact ⟨none, nofun⟩

/-- The state in which DEC_BIT looks up its candidate (44_bitstream_decode.md R207). -/
def State.withBit (s : State) (b : Bool) : State :=
  { s with bitPos := s.bitPos + 1#32, cand := s.cand ++ [b] }

/-- The symbol DEC_BIT emits is the one its own candidate matches, whatever the surroundings. -/
theorem execDecBit_inSurroundings (s : State) :
    ∃ w, ∀ e, SameView s e →
      execDecBit (s.withSurroundings e) = outcomeIn (e.emitted w) (execDecBit s) := by
  let u := s.withBit (s.payloadBit s.bitPos.toNat)
  obtain ⟨w, hw⟩ := ctLookup_value u.cand u
  refine ⟨w, fun e h => Act.andThen_endsIn (bitRead_inSurroundings h s.bitPos.toNat) ?_ ?_⟩
  · intro err t ht
    rcases bitRead_cases s.bitPos.toNat s with ⟨-, hs⟩ | ⟨-, hs⟩ <;> cases hs.symm.trans ht
  · intro b t ht
    rcases bitRead_cases s.bitPos.toNat s with ⟨-, hs⟩ | ⟨-, hs⟩ <;> cases hs.symm.trans ht
    have hmax : (s.withSurroundings e).cfg.maxAlphabet = s.cfg.maxAlphabet := h.maxAlphabet
    refine ite_inSurroundings (by unfold Params.lMax; rw [hmax]; rfl) rfl ?_
    refine Act.andThen_endsIn (ctLookup_inSurroundings u e u.cand)
      (fun _ _ hr => absurd hr (ctLookup_never_raises _ _ _ _)) fun m t ht => ?_
    cases hw m t ht
    cases ctLookup_frame ht
    refine Act.andThen_inSurroundings (emitMatch_inSurroundings (s := u) (h.congr rfl) w) fun _ _ _ => ?_
    exact ite_inSurroundings .rfl rfl rfl

theorem execDecEnd_inSurroundings (s e : State) :
    execDecEnd (s.withSurroundings e) = outcomeIn e (execDecEnd s) :=
  ite_inSurroundings .rfl rfl rfl

/-- An engine operation does the same in all surroundings with the same view, and what it leaves of
them is the same in all: as they were, or with one symbol emitted. -/
theorem exec_inSurroundings {p : BitVec 5} {i : Instr} (hd : decodePhase p = .ok i) (s : State) :
    ∃ w, ∀ e, SameView s e →
      exec i (s.withSurroundings e) = outcomeIn (e.emitted w) (exec i s) := by
  have hi := decodePhase_mem hd
  simp only [phaseTable, List.mem_cons, Prod.mk.injEq, List.not_mem_nil, or_false] at hi
  rcases hi with ⟨-, rfl⟩ | ⟨-, rfl⟩ | ⟨-, rfl⟩ | ⟨-, rfl⟩ | ⟨-, rfl⟩ | ⟨-, rfl⟩ | ⟨-, rfl⟩ |
    ⟨-, rfl⟩ | ⟨-, rfl⟩ | ⟨-, rfl⟩ | ⟨-, rfl⟩ | ⟨-, rfl⟩ | ⟨-, rfl⟩ | ⟨-, rfl⟩ | ⟨-, rfl⟩ |
    ⟨-, rfl⟩ | ⟨-, rfl⟩
  · exact ⟨none, fun _ _ => rfl⟩
  · exact ⟨none, fun _ h => readU32_andThen_inSurroundings h fun _ _ => rfl⟩
  · exact ⟨none, fun _ => execHdrReserved_inSurroundings⟩
  · exact ⟨none, fun _ => execHdrCount_inSurroundings⟩
  · exact ⟨none, fun _ => execHdrPair_inSurroundings⟩
  · exact ⟨none, fun _ => execTreeSeed_inSurroundings⟩
  · exact ⟨none, fun _ => execTreeMerge_inSurroundings⟩
  · exact ⟨none, fun _ _ => rfl⟩
  · exact ⟨none, fun _ h => readU32_andThen_inSurroundings h fun _ _ => rfl⟩
  · exact ⟨none, fun _ h => readU32_andThen_inSurroundings h fun _ _ => rfl⟩
  · exact ⟨none, fun _ h => readU32_andThen_inSurroundings h fun _ _ => rfl⟩
  · exact ⟨none, fun _ => execPayload_inSurroundings⟩
  · exact ⟨some (soleSymbol s.ct), fun _ => execDecSingle_inSurroundings⟩
  · exact execDecBit_inSurroundings s
  · exact ⟨none, fun e _ => execDecEnd_inSurroundings s e⟩
  · exact ⟨none, fun _ _ => rfl⟩
  · exact ⟨none, fun _ _ => rfl⟩

/-- The next state of an engine operation, in its own surroundings and in any with the same view. -/
theorem exec_next_surroundings {p : BitVec 5} {i : Instr} (hd : decodePhase p = .ok i)
    (h : exec i s = .next t) :
    ∃ w, t = t.withSurroundings (s.emitted w) ∧
      ∀ e, SameView s e →
        exec i (s.withSurroundings e) = .next (t.withSurroundings (e.emitted w)) := by
  obtain ⟨w, hw⟩ := exec_inSurroundings hd s
  rw [h] at hw
  have hself : exec i s = .next (t.withSurroundings (s.emitted w)) := hw s (.refl s)
  rw [h] at hself
  exact ⟨w, Host.Outcome.next.inj hself, hw⟩

/-! ### What an emission leaves -/

theorem State.emitted_frame (e : State) (w : Option Word) :
    e.emitted w = { e with outMem := (e.emitted w).outMem, ocnt := (e.emitted w).ocnt } := by
  cases w with
  | none => rfl
  | some y => unfold State.emitted; dsimp only; split <;> rfl

theorem State.ocnt_le_emitted (e : State) (w : Option Word) : e.ocnt ≤ (e.emitted w).ocnt := by
  cases w with
  | none => exact le_rfl
  | some y =>
    by_cases ho : e.ocnt = e.cfg.outSize
    · rw [State.emitted_of_full y ho]
    · rw [State.emitted_of_room y ho]
      exact Nat.le_succ _

theorem State.outWord_emitted (e : State) (w : Option Word) {j : Nat} (hj : j ≠ e.ocnt) :
    (e.emitted w).outWord j = e.outWord j := by
  cases w with
  | none => rfl
  | some y =>
    by_cases ho : e.ocnt = e.cfg.outSize
    · rw [State.emitted_of_full y ho]
    · rw [State.emitted_of_room y ho]
      exact (State.outWord_memWriteOut e e.ocnt j y).trans (if_neg hj)

/-- IN plays no part in an emission. -/
theorem State.emitted_inMem (e : State) (w : Option Word) (m : List Host.Cell) :
    ({ e with inMem := m } : State).emitted w = { e.emitted w with inMem := m } := by
  cases w with
  | none => rfl
  | some y => unfold State.emitted; dsimp only; split <;> rfl

/-- Settles O48: the next state has its surroundings from the state before, up to one emission, which
writes OUT at OCNT. -/
theorem engineLeavesItsInputs : Obligations.EngineLeavesItsInputs := by
  intro p i s t hd h
  obtain ⟨w, ht, -⟩ := exec_next_surroundings hd h
  have hfields : t = t.withSurroundings
      { s with outMem := (s.emitted w).outMem, ocnt := (s.emitted w).ocnt } :=
    State.emitted_frame s w ▸ ht
  have hocnt : t.ocnt = (s.emitted w).ocnt := by rw [ht]; rfl
  have hout : ∀ j, t.outWord j = (s.emitted w).outWord j := fun j => by rw [ht]; rfl
  refine ⟨?fields, ?bytes, ?ocnt, ?out⟩
  case fields => rw [hfields]; and_intros <;> rfl
  case bytes => rw [hfields]; exact fun _ => rfl
  case ocnt => exact hocnt ▸ s.ocnt_le_emitted w
  case out => exact fun j hj => (hout j).trans (s.outWord_emitted w hj)

/-- Settles O60: a replaced IN that reads the same below IN_LEN gives the same view. -/
theorem bytesBeyondInLenPlayNoPart : Obligations.BytesBeyondInLenPlayNoPart := by
  intro p i s t m hd hbytes h
  obtain ⟨w, ht, hview⟩ := exec_next_surroundings hd h
  have hnext := hview { s with inMem := m } ⟨rfl, rfl, rfl, rfl, rfl, hbytes⟩
  rw [State.emitted_inMem] at hnext
  calc exec i { s with inMem := m }
    _ = .next (t.withSurroundings { s.emitted w with inMem := m }) := hnext
    _ = .next { t with inMem := m } :=
      congrArg (fun u : State => Host.Outcome.next { u with inMem := m }) ht.symm

end Sys2Proof.Machine
end

section
/-! PROOFS. Decoding undoes encoding: the code tables, the bytes that carry a code, and the offsets of the three regions (30_encoding.md R117, R118; 20_memory.md R80, R81). -/

namespace Sys2Proof

/-! ### The code tables -/

/-- A row of the phase table decodes: with `decodePhase_mem`, the table is all that decodes. -/
theorem decodePhase_of_mem {p : BitVec 5} {i : Instr} (h : (p, i) ∈ Machine.phaseTable) :
    decodePhase p = .ok i := by
  have htable : ∀ row ∈ Machine.phaseTable, decodePhase row.1 = .ok row.2 := by decide
  exact htable _ h

/-- The codes the table does not reach are reserved (30_encoding.md R120). -/
theorem decodePhase_reserved : ∀ p : BitVec 5, 0x11 ≤ p.toNat →
    decodePhase p = .error .reservedPhase := by decide

theorem decodeCmd_reserved {v : Word} (h1 : v ≠ 1#32) (h2 : v ≠ 2#32) :
    decodeCmd v = .error .reservedCommand := by
  obtain ⟨hv, -⟩ | ⟨hv, -⟩ | ⟨-, -, hd⟩ := decodeCmd_cases v
  · exact absurd hv h1
  · exact absurd hv h2
  · exact hd

/-- Settles O3: the rows of both tables, and what lies outside them. -/
theorem commandAndPhaseCodes : Obligations.CommandAndPhaseCodes := by
  refine ⟨⟨rfl, rfl, fun v => decodeCmd_reserved⟩, ?rows, decodePhase_reserved⟩
  case rows => and_intros <;> exact decodePhase_of_mem (by decide)

/-! ### The bytes of a format carry its code -/

variable {i : Instr}

theorem decode_phaseByte {p : BitVec 5} (h : decodePhase p = .ok i) (rest : List Byte) :
    decode .phase (phaseByte p ++ rest) = .ok (i, rest) := by
  have hlow : (0#3 ++ p).extractLsb' 0 5 = p := BitVec.extractLsb'_append_eq_right
  simp [decode, phaseByte, hlow, h]

theorem decode_cmd {v : Word} (h : decodeCmd v = .ok i) (rest : List Byte) :
    decode .cmd (bytesOf v ++ rest) = .ok (i, rest) := by
  simp [decode, bytesOf, wordOf_bytes, h]

theorem decode_busRead {n : Nat} {off : Word} (h : decodeAccess ⟨.read, n, off, 0#32⟩ = .ok i)
    (rest : List Byte) : decode (.busRead n) (bytesOf off ++ rest) = .ok (i, rest) := by
  simp [decode, bytesOf, wordOf_bytes, h]

theorem decode_busWrite {n : Nat} {off v : Word} (h : decodeAccess ⟨.write, n, off, v⟩ = .ok i)
    (rest : List Byte) :
    decode (.busWrite n) (bytesOf off ++ bytesOf v ++ rest) = .ok (i, rest) := by
  simp [decode, bytesOf, wordOf_bytes, h]

/-! ### The operand an offset carries -/

@[simp] theorem extractLsb'_regOff (r : BitVec 12) : (regOff r).extractLsb' 0 12 = r :=
  BitVec.extractLsb'_append_eq_right

@[simp] theorem extractLsb'_inOff (a : BitVec 30) : (inOff a).extractLsb' 0 30 = a :=
  BitVec.extractLsb'_append_eq_right

@[simp] theorem extractLsb'_outOff (j : BitVec 29) : (outOff j).extractLsb' 2 29 = j := by
  apply BitVec.eq_of_toNat_eq
  have hj := toNat_outOff j
  rw [toNat_outIndex (by omega)]
  omega

@[simp] theorem aligned_regOff (r : BitVec 12) : aligned (regOff r) = aligned r := by
  simpa using (aligned_extractLsb'_zero (k := 12) (regOff r) (by decide)).symm

@[simp] theorem aligned_inOff (a : BitVec 30) : aligned (inOff a) = aligned a := by
  simpa using (aligned_extractLsb'_zero (k := 30) (inOff a) (by decide)).symm

@[simp] theorem aligned_outOff (j : BitVec 29) : aligned (outOff j) = true := by
  rw [aligned_iff, toNat_outOff]
  omega

/-! ### Each region's offsets reach its decoder -/

variable (dir : Dir) (width : Nat) (data : Word)

theorem decodeAccess_regOff (r : BitVec 12) :
    decodeAccess ⟨dir, width, regOff r, data⟩ = decodeReg ⟨dir, width, regOff r, data⟩ := by
  rw [decodeAccess_eq, if_pos]
  exact (toNat_regOff r).trans_lt r.isLt

theorem decodeAccess_inOff (a : BitVec 30) :
    decodeAccess ⟨dir, width, inOff a, data⟩ = decodeIn ⟨dir, width, inOff a, data⟩ := by
  have ha := toNat_inOff a
  rw [decodeAccess_eq, if_neg (by dsimp only; omega), if_pos (by dsimp only; omega)]

theorem decodeAccess_outOff (j : BitVec 29) :
    decodeAccess ⟨dir, width, outOff j, data⟩ = decodeOut ⟨dir, width, outOff j, data⟩ := by
  have hj := toNat_outOff j
  rw [decodeAccess_eq, if_neg (by dsimp only; omega), if_neg (by dsimp only; omega),
    if_pos (by dsimp only; omega)]

/-! ### The accesses an operation is encoded as -/

theorem decodeAccess_regRd32 {r : BitVec 12} (hal : aligned r = true) :
    decodeAccess ⟨.read, 32, regOff r, data⟩ = .ok (.regRd32 r) := by
  simp [decodeAccess_regOff, decodeReg, hal]

/-- A well-formed register write to CMD writes a reserved value, so it is no command (log 8). -/
theorem decodeAccess_regWr32 {r : BitVec 12} {v : Word} (hwf : (Instr.regWr32 r v).wf = true) :
    decodeAccess ⟨.write, 32, regOff r, v⟩ = .ok (.regWr32 r v) := by
  obtain ⟨hal, hcmd⟩ : aligned r = true ∧ (r ≠ cmdOffset ∨ v ≠ 1#32 ∧ v ≠ 2#32) := by
    simpa [Instr.wf] using hwf
  obtain hr | ⟨h1, h2⟩ := hcmd
  · simp [decodeAccess_regOff, decodeReg, hal, hr]
  · simp [decodeAccess_regOff, decodeReg, hal, decodeCmd_reserved h1 h2]

theorem decodeAccess_inRd8 (a : BitVec 30) :
    decodeAccess ⟨.read, 8, inOff a, data⟩ = .ok (.inRd8 a) := by
  simp [decodeAccess_inOff, decodeIn]

/-- An 8-bit write takes the low byte of the data (20_memory.md R82). -/
theorem decodeAccess_inWr8 (a : BitVec 30) (v : Byte) :
    decodeAccess ⟨.write, 8, inOff a, 0#24 ++ v⟩ = .ok (.inWr8 a v) := by
  have hlow : (0#24 ++ v).extractLsb' 0 8 = v := BitVec.extractLsb'_append_eq_right
  simp [decodeAccess_inOff, decodeIn, hlow]

theorem decodeAccess_inRd32 {a : BitVec 30} (hal : aligned a = true) :
    decodeAccess ⟨.read, 32, inOff a, data⟩ = .ok (.inRd32 a) := by
  simp [decodeAccess_inOff, decodeIn, hal]

theorem decodeAccess_inWr32 {a : BitVec 30} (hal : aligned a = true) :
    decodeAccess ⟨.write, 32, inOff a, data⟩ = .ok (.inWr32 a data) := by
  simp [decodeAccess_inOff, decodeIn, hal]

theorem decodeAccess_outRd32 (j : BitVec 29) :
    decodeAccess ⟨.read, 32, outOff j, data⟩ = .ok (.outRd32 j) := by
  rw [decodeAccess_outOff, decodeOut_ok_iff]
  exact ⟨rfl, rfl, aligned_outOff j, congrArg _ (extractLsb'_outOff j).symm⟩

/-- Settles O1: each format's bytes carry the code, and each code selects the operation it was taken
from. -/
theorem decodeEncodeAgree : Obligations.DecodeEncodeAgree := by
  intro i rest hwf
  cases i with
  | start | clear => exact decode_cmd rfl rest
  | regRd32 r => exact decode_busRead (decodeAccess_regRd32 _ hwf) rest
  | regWr32 r v => exact decode_busWrite (decodeAccess_regWr32 hwf) rest
  | inRd8 a => exact decode_busRead (decodeAccess_inRd8 _ a) rest
  | inRd32 a => exact decode_busRead (decodeAccess_inRd32 _ hwf) rest
  | inWr8 a v => exact decode_busWrite (decodeAccess_inWr8 a v) rest
  | inWr32 a v => exact decode_busWrite (decodeAccess_inWr32 v hwf) rest
  | outRd32 j => exact decode_busRead (decodeAccess_outRd32 _ j) rest
  | _ => -- the seventeen PHASE operations
    exact decode_phaseByte (decodePhase_of_mem (by decide)) rest

/-- Settles O4: the six words are the encodings of their operations. -/
theorem sampleWordsDecode : Obligations.SampleWordsDecode :=
  ⟨decodeEncodeAgree .start [] rfl, decodeEncodeAgree .decBit [] rfl,
    decodeEncodeAgree (.regRd32 0x008#12) [] rfl, decodeEncodeAgree (.inRd8 3#30) [] rfl,
    decodeEncodeAgree (.inWr32 4#30 0x12345678#32) [] rfl,
    decodeEncodeAgree (.outRd32 5#29) [] rfl⟩

end Sys2Proof
end

section
/-! PROOFS. The stored form of a bit-string: the number its bits are in base 2, and what it determines (00_scope.md R10, 30_encoding.md R116). -/

namespace Sys2Proof.Machine

/-- The bits as base-2 digits, the last bit least significant. -/
def binaryDigits (c : List Bool) : List Nat := c.reverse.map Bool.toNat

theorem binaryDigits_lt_two (c : List Bool) : ∀ d ∈ binaryDigits c, d < 2 := by
  intro d hd
  obtain ⟨b, -, rfl⟩ := List.mem_map.1 hd
  exact b.toNat_lt

theorem length_binaryDigits (c : List Bool) : (binaryDigits c).length = c.length := by
  simp [binaryDigits]

theorem binaryDigits_injective : Function.Injective binaryDigits :=
  (List.map_injective_iff.2 (by decide : Function.Injective Bool.toNat)).comp List.reverse_injective

theorem bitsVal_eq_ofDigits (c : List Bool) : bitsVal c = Nat.ofDigits 2 (binaryDigits c) := by
  simp [bitsVal, binaryDigits, Nat.ofDigits_eq_foldr, List.foldl_map, add_comm]

theorem bitsVal_concat (c : List Bool) (b : Bool) :
    bitsVal (c ++ [b]) = 2 * bitsVal c + b.toNat := by
  simp [bitsVal]

theorem bitsVal_lt (c : List Bool) : bitsVal c < 2 ^ c.length := by
  rw [bitsVal_eq_ofDigits, ← length_binaryDigits]
  exact Nat.ofDigits_lt_base_pow_length one_lt_two (binaryDigits_lt_two c)

theorem bitsVal_cons (b : Bool) (c : List Bool) :
    bitsVal (b :: c) = bitsVal c + 2 ^ c.length * b.toNat := by
  simp [bitsVal_eq_ofDigits, binaryDigits, Nat.ofDigits_append]

/-- A bit-string is its length and its value. -/
theorem storedCode_injective : Function.Injective storedCode := by
  intro c d h
  obtain ⟨hlen, hval⟩ : c.length = d.length ∧ bitsVal c = bitsVal d := Prod.mk.inj h
  rw [bitsVal_eq_ofDigits, bitsVal_eq_ofDigits] at hval
  exact binaryDigits_injective (Nat.ofDigits_inj_of_len_eq one_lt_two
    (by rw [length_binaryDigits, length_binaryDigits, hlen])
    (binaryDigits_lt_two c) (binaryDigits_lt_two d) hval)

/-- Appending a bit, as the walk and the candidate do. -/
theorem storedCode_concat (c : List Bool) (b : Bool) :
    storedCode (c ++ [b]) = ((storedCode c).1 + 1, 2 * (storedCode c).2 + b.toNat) :=
  Prod.ext List.length_append (bitsVal_concat c b)

/-- The first bit is the most significant: the others stay below its place. -/
theorem storedCode_firstBit (b : Bool) (c : List Bool) :
    (storedCode (b :: c)).2 / 2 ^ ((storedCode (b :: c)).1 - 1) = b.toNat := by
  calc bitsVal (b :: c) / 2 ^ ((b :: c).length - 1)
    _ = (bitsVal c + 2 ^ c.length * b.toNat) / 2 ^ c.length := by rw [bitsVal_cons]; rfl
    _ = bitsVal c / 2 ^ c.length + b.toNat := Nat.add_mul_div_left _ _ (Nat.two_pow_pos _)
    _ = b.toNat := by rw [Nat.div_eq_of_lt (bitsVal_lt c), zero_add]

/-- Settles O41: base-2 digits of a given number are unique at a given length. -/
theorem storedCodeIsFaithful : Obligations.StoredCodeIsFaithful :=
  ⟨fun _ _ => storedCode_injective.eq_iff,
    fun c b => ⟨storedCode_concat c b, storedCode_firstBit b c⟩⟩

end Sys2Proof.Machine
end

section
/-! PROOFS. One move: which turn a step takes, what the turn fetches, and the operations with one outcome (40_step.md R140, R141, R142). -/

namespace Sys2Proof.Machine

variable {s t : State} {i : Instr}

/-! ### The move a step takes -/

/-- With no move left the engine moves (log 1). -/
theorem step_of_noTurns (hlegal : s.legalCodes) (hts : s.turns = []) : step s = engineTurn s := by
  unfold step nextMove
  rw [unreachable_none_iff.2 hlegal, hts]
  rfl

theorem step_of_turn {tn : Turn} {ts : List Turn} (hlegal : s.legalCodes)
    (hts : s.turns = tn :: ts) : step s = move tn { s with turns := ts } := by
  unfold step nextMove
  rw [unreachable_none_iff.2 hlegal, hts]

theorem step_of_unreachable {r : Refusal} (h : s.unreachable = some r) : step s = .refused r := by
  unfold step nextMove
  rw [h]

theorem phase_reserved_iff {p : BitVec 5} : Phase.reserved p = true ↔ 0x11 ≤ p.toNat := by
  simp [Phase.reserved, BitVec.ult, Nat.succ_le_iff]

theorem unreachable_of_reservedPhase (h : 0x11 ≤ s.phase.toNat) :
    s.unreachable = some .reservedPhase :=
  if_pos (phase_reserved_iff.2 h)

theorem unreachable_of_reservedErrCode (hp : s.phase.toNat ≤ 0x10) (he : s.errCode = 7#3) :
    s.unreachable = some .reservedErrCode := by
  have hlegal : ¬ Phase.reserved s.phase = true := mt phase_reserved_iff.1 (by omega)
  rw [State.unreachable, if_neg hlegal, if_pos he]

/-! ### The operation a turn fetches -/

theorem engineTurn_of_phase (hrst : s.rst = false) (hd : decodePhase s.phase = .ok i) :
    engineTurn s = exec i s := by
  simp [engineTurn, hrst, hd]

theorem hostTurn_of_access {a : BusAccess} (hrst : s.rst = false) (hd : decodeAccess a = .ok i) :
    hostTurn a s = exec i s := by
  simp [hostTurn, hrst, hd]

/-- Settles O5: legal codes leave the turn, the turn without RST leaves the fetched operation; the
codes the block never holds are refused before either. -/
theorem stepRunsTheFetchedInstruction : Obligations.StepRunsTheFetchedInstruction := by
  intro s i a ts
  refine ⟨?noTurns, ?engine, ?host, ?reservedPhase, ?reservedErrCode⟩
  case noTurns =>
    exact fun hlegal hrst hts hd => (step_of_noTurns hlegal hts).trans (engineTurn_of_phase hrst hd)
  case engine =>
    exact fun hlegal hrst hts hd => (step_of_turn hlegal hts).trans (engineTurn_of_phase hrst hd)
  case host =>
    exact fun hlegal hrst hts hd => (step_of_turn hlegal hts).trans (hostTurn_of_access hrst hd)
  case reservedPhase => exact fun hp => step_of_unreachable (unreachable_of_reservedPhase hp)
  case reservedErrCode =>
    exact fun hp he => step_of_unreachable (unreachable_of_reservedErrCode hp he)

/-! ### The commands, and the phases without a step -/

/-- START, where it is accepted (45_host_commands.md R230). -/
theorem exec_start_next (hb : s.busy = false) (h : exec .start s = .next t) :
    t = s.restart Phase.hdrDeclen :=
  (Host.Outcome.next.inj h).symm.trans (if_neg (by simp [hb]))

/-- CLEAR, in every phase (45_host_commands.md R231). -/
theorem exec_clear_next (h : exec .clear s = .next t) : t = s.restart Phase.idle :=
  (Host.Outcome.next.inj h).symm

/-- Settles O26: the three codes are rows of the phase table, and their operations write nothing. -/
theorem quiescentPhasesKeepTheState : Obligations.QuiescentPhasesKeepTheState := by
  refine ⟨?idle, ?done, ?error, fun _ => ⟨rfl, rfl, rfl⟩⟩ <;> exact decodePhase_of_mem (by decide)

end Sys2Proof.Machine
end

section
/-! PROOFS. The arrows of the phase graph: where each operation leads, and under which condition on the state it leaves (40_step.md R146). -/

namespace Sys2Proof.Machine

variable {s t : State}

/-- An operation that reads one wire field and goes on to phase `q` (42_header.md R161,
44_bitstream_decode.md R202, R203, R204). -/
theorem readU32_arrow {p q : BitVec 5} {k : Word → State → Host.Outcome State Fault Refusal}
    (hk : ∀ v u, ∃ u', k v u = .next u' ∧ u'.phase = q) (h : (readU32 s).andThen p k = .next t) :
    t.phase = q ∨ (t.phase = Phase.error ∧ t.errCode = 3#3) := by
  obtain ⟨-, hnext⟩ | ⟨-, rfl⟩ := readU32_andThen_next h
  · obtain ⟨u', hu', hphase⟩ := hk _ _
    cases hu'.symm.trans hnext
    exact .inl hphase
  · exact .inr ⟨rfl, rfl⟩

/-- HDR_PAIR stays while pairs are left (42_header.md R164). -/
theorem exec_hdrPair_arrows (hp : s.phase = Phase.hdrPair) (h : exec .hdrPair s = .next t) :
    (t.phase = Phase.hdrPair ∧ 0 < t.pairsLeft.toNat) ∨
    (t.phase = Phase.treeSeed ∧ t.pairsLeft = 0#32) ∨
    (t.phase = Phase.error ∧ (t.errCode = 3#3 ∨ t.errCode = 5#3)) := by
  obtain ⟨-, rfl⟩ | ⟨-, -, rfl⟩ | ⟨-, u, rfl, ⟨v, hv, rfl⟩ | ⟨-, rfl⟩⟩ := exec_hdrPair_next h
  · exact .inr (.inr ⟨rfl, .inl rfl⟩)
  · exact .inr (.inr ⟨rfl, .inl rfl⟩)
  · obtain ⟨n, phase, he, hn⟩ := afterPair_eq v
    have hvp : v.phase = Phase.hdrPair := by rw [fmapInsert_frame hv]; exact hp
    rw [he]
    obtain ⟨hphase, hn⟩ | ⟨hphase, hn⟩ := hn
    · exact .inr (.inl ⟨hphase, hn⟩)
    · exact .inl ⟨hphase.trans hvp, BitVec.toNat_pos_of_ne_zero hn⟩
  · exact .inr (.inr ⟨rfl, .inr rfl⟩)

/-- TREE_SEED enters one leaf per symbol into the empty HEAP, so it skips the merges exactly for one
symbol (43_code_table.md R177). -/
theorem exec_treeSeed_arrows (hheap : s.heap = []) (halpha : 1 ≤ s.alpha.toNat)
    (h : exec .treeSeed s = .next t) :
    (t.phase = Phase.codeBuild ∧ t.alpha = 1#32) ∨
    (t.phase = Phase.treeMerge ∧ 2 ≤ t.alpha.toNat) := by
  obtain ⟨u, hu, hc⟩ := exec_treeSeed_next h
  obtain ⟨hframe, hlen⟩ := seedFrom_frame hu
  have hua : u.alpha = s.alpha := by rw [hframe]
  rw [← hua] at halpha
  have hlen : u.heap.length = u.alpha.toNat := by simpa [hheap, hua] using hlen
  obtain ⟨hone, r, -, rfl⟩ | ⟨hmore, rfl⟩ := hc
  · exact .inl ⟨rfl, BitVec.eq_of_toNat_eq (hlen.symm.trans hone)⟩
  · exact .inr ⟨rfl, by dsimp only; omega⟩

theorem Sorted.put_ne_nil {α : Type} (key : α → Nat) (x : α) (l : List α) :
    Sorted.put key x l ≠ [] := by
  cases l with
  | nil => exact List.cons_ne_nil _ _
  | cons e l => unfold Sorted.put; split_ifs <;> exact List.cons_ne_nil _ _

/-- TREE_MERGE stays while more than one index is in HEAP (43_code_table.md R178). -/
theorem exec_treeMerge_arrows (hp : s.phase = Phase.treeMerge) (h : exec .treeMerge s = .next t) :
    (t.phase = Phase.treeMerge ∧ 1 < t.heap.length) ∨
    (t.phase = Phase.codeBuild ∧ t.heap.length = 1) := by
  obtain ⟨-, -, a, b, heap, root, phase, -, -, -, -, -, -, hheap, rfl, hc⟩ := exec_treeMerge_next h
  obtain ⟨hone, -, hphase⟩ | ⟨hmore, -, hphase⟩ := hc
  · exact .inr ⟨hphase, hone⟩
  · have hpos : 0 < heap.length := List.length_pos_iff.2 (hheap ▸ Sorted.put_ne_nil _ _ _)
    exact .inl ⟨hphase.trans hp, by dsimp only; omega⟩

/-- PAYLOAD chooses the mode by ALPHA and by what there is to decode (44_bitstream_decode.md R205). -/
theorem exec_payload_arrows (halpha : 1 ≤ s.alpha.toNat) (h : exec .payload s = .next t) :
    (t.phase = Phase.done ∧ t.alpha = 1#32 ∧ t.unpacked = 0#32) ∨
    (t.phase = Phase.decSingle ∧ t.alpha = 1#32 ∧ 0 < t.unpacked.toNat) ∨
    (t.phase = Phase.decEnd ∧ 2 ≤ t.alpha.toNat ∧ t.pBits = 0#32) ∨
    (t.phase = Phase.decBit ∧ 2 ≤ t.alpha.toNat ∧ 0 < t.pBits.toNat) ∨
    (t.phase = Phase.error ∧ t.errCode = 3#3) := by
  have two_le (hne : s.alpha ≠ 1#32) : 2 ≤ s.alpha.toNat := by
    have : s.alpha.toNat ≠ 1 := fun hc => hne (BitVec.eq_of_toNat_eq hc)
    omega
  obtain ⟨-, rfl⟩ | ⟨-, rfl⟩ := exec_payload_next h
  · obtain ⟨hone, hu, he⟩ | ⟨hone, hu, he⟩ | ⟨-, -, he⟩ | ⟨hne, -, hb, he⟩ | ⟨hne, -, hb, he⟩ :=
      payloadNext_cases { s with
        pos := BitVec.ofNat 32 (s.pos.toNat + s.pBytes.toNat), payBase := s.pos } <;> rw [he]
    · exact .inl ⟨rfl, hone, hu⟩
    · exact .inr (.inl ⟨rfl, hone, BitVec.toNat_pos_of_ne_zero hu⟩)
    · exact .inr (.inr (.inr (.inr ⟨rfl, rfl⟩)))
    · exact .inr (.inr (.inl ⟨rfl, two_le hne, hb⟩))
    · exact .inr (.inr (.inr (.inl ⟨rfl, two_le hne, BitVec.toNat_pos_of_ne_zero hb⟩)))
  · exact .inr (.inr (.inr (.inr ⟨rfl, rfl⟩)))

/-- DEC_SINGLE stays while copies are left to emit (44_bitstream_decode.md R206). -/
theorem exec_decSingle_arrows (hp : s.phase = Phase.decSingle) (hleft : s.ocnt < s.unpacked.toNat)
    (h : exec .decSingle s = .next t) :
    (t.phase = Phase.decSingle ∧ t.ocnt < t.unpacked.toNat) ∨
    (t.phase = Phase.done ∧ t.ocnt = t.unpacked.toNat) ∨
    (t.phase = Phase.error ∧ t.errCode = 6#3) := by
  obtain ⟨-, rfl⟩ | ⟨-, rfl⟩ := exec_decSingle_next h
  · by_cases hlast : s.ocnt + 1 = s.unpacked.toNat
    · exact .inr (.inl ⟨if_pos hlast, hlast⟩)
    · exact .inl ⟨(if_neg hlast).trans hp, Nat.lt_of_le_of_ne hleft hlast⟩
  · exact .inr (.inr ⟨rfl, rfl⟩)

/-- DEC_BIT stays while bits are left to read (44_bitstream_decode.md R207). -/
theorem exec_decBit_arrows (hp : s.phase = Phase.decBit) (h : exec .decBit s = .next t) :
    (t.phase = Phase.decBit ∧ t.bitPos.toNat < t.pBits.toNat) ∨
    (t.phase = Phase.decEnd ∧ t.bitPos = t.pBits) ∨
    (t.phase = Phase.error ∧ t.errCode = 6#3) := by
  obtain ⟨hr, -, u, rfl, hc⟩ := exec_decBit_next h
  by_cases hlast : s.bitPos + 1#32 = s.pBits
  · obtain ⟨-, rfl⟩ | ⟨y, -, -, rfl⟩ | ⟨-, -, rfl⟩ := hc
    · exact .inr (.inl ⟨if_pos hlast, hlast⟩)
    · exact .inr (.inl ⟨if_pos hlast, hlast⟩)
    · exact .inr (.inr ⟨rfl, rfl⟩)
  · have hle : (s.bitPos + 1#32).toNat ≤ s.pBits.toNat := toNat_bitPos_succ hr ▸ hr.1
    have hlt : (s.bitPos + 1#32).toNat < s.pBits.toNat :=
      Nat.lt_of_le_of_ne hle fun hc => hlast (BitVec.eq_of_toNat_eq hc)
    obtain ⟨-, rfl⟩ | ⟨y, -, -, rfl⟩ | ⟨-, -, rfl⟩ := hc
    · exact .inl ⟨(if_neg hlast).trans hp, hlt⟩
    · exact .inl ⟨(if_neg hlast).trans hp, hlt⟩
    · exact .inr (.inr ⟨rfl, rfl⟩)

/-- Settles O50: each clause reads PHASE, and the condition of its arrow, off the ways its operation
ends. -/
theorem phaseGraph : Obligations.PhaseGraph := by
  intro s t
  refine ⟨?start, ?clear, rfl, ?hdrDeclen, ?hdrReserved, ?hdrCount, exec_hdrPair_arrows,
    exec_treeSeed_arrows, exec_treeMerge_arrows, ?codeBuild, ?trlPbits, ?trlPbytes, ?trlUnpacked,
    exec_payload_arrows, exec_decSingle_arrows, exec_decBit_arrows, ?decEnd⟩
  case start =>
    intro hb h
    rw [exec_start_next hb h]
    rfl
  case clear =>
    intro h
    rw [exec_clear_next h]
    rfl
  case hdrDeclen | trlPbits | trlPbytes | trlUnpacked =>
    exact readU32_arrow fun _ _ => ⟨_, rfl, rfl⟩
  case hdrReserved =>
    intro h
    obtain ⟨-, -, rfl⟩ | ⟨-, -, rfl⟩ | ⟨-, rfl⟩ := exec_hdrReserved_next h
    · exact .inl rfl
    · exact .inr ⟨rfl, .inr rfl⟩
    · exact .inr ⟨rfl, .inl rfl⟩
  case hdrCount =>
    intro h
    obtain ⟨-, -, rfl⟩ | ⟨-, -, rfl⟩ | ⟨-, rfl⟩ := exec_hdrCount_next h
    · exact .inl rfl
    · exact .inr ⟨rfl, .inr rfl⟩
    · exact .inr ⟨rfl, .inl rfl⟩
  case codeBuild =>
    intro h
    rw [exec_codeBuild_next h]
  case decEnd =>
    intro h
    obtain ⟨hc, rfl⟩ | ⟨-, rfl⟩ := exec_decEnd_next h
    · exact .inl ⟨rfl, hc⟩
    · exact .inr ⟨rfl, rfl⟩

end Sys2Proof.Machine
end

section
/-! PROOFS. Two states a decode cannot tell apart stay so: START makes them so, and every engine operation keeps them so (40_step.md R145, 10_state.md R64). -/

namespace Sys2Proof.Machine

variable {s t e : State}

/-- States a decode cannot tell apart are one decode in two surroundings with the same view, and
what they emitted reads the same. -/
theorem sameDecode_iff :
    sameDecode s t ↔
      t = s.withSurroundings t ∧ SameView s t ∧ ∀ i, i < s.ocnt → t.outWord i = s.outWord i := by
  constructor
  · rintro ⟨ht, hbytes, hout⟩
    have hcfg : t.cfg = s.cfg := (congrArg State.cfg ht :)
    have hbe : t.be = s.be := (congrArg State.be ht :)
    have hbitord : t.bitord = s.bitord := (congrArg State.bitord ht :)
    have hlen : t.inLen = s.inLen := (congrArg State.inLen ht :)
    have hocnt : t.ocnt = s.ocnt := (congrArg State.ocnt ht :)
    refine ⟨?_, ⟨hcfg, hbe, hbitord, hlen, hocnt, hbytes⟩, hout⟩
    rw [State.withSurroundings, hcfg, hbe, hbitord, hlen, hocnt]
    exact ht
  · rintro ⟨ht, ⟨hcfg, hbe, hbitord, hlen, hocnt, hbytes⟩, hout⟩
    rw [State.withSurroundings, hcfg, hbe, hbitord, hlen, hocnt] at ht
    exact ⟨ht, hbytes, hout⟩

/-- The same emission in two surroundings keeps the view the same. -/
theorem SameView.emitted (h : SameView s e) (w : Option Word) :
    SameView (s.emitted w) (e.emitted w) := by
  cases w with
  | none => exact h
  | some y =>
    by_cases hs : s.ocnt = s.cfg.outSize
    · rw [State.emitted_of_full y hs, State.emitted_of_full y (h.room.2 hs)]
      exact h
    · rw [State.emitted_of_room y hs, State.emitted_of_room y (mt h.room.1 hs)]
      exact ⟨h.cfg, h.be, h.bitord, h.inLen, congrArg (· + 1) h.ocnt, h.bytes⟩

/-- The same emission in two surroundings keeps the emitted words the same, the new one included. -/
theorem SameView.outWord_emitted (h : SameView s e)
    (hout : ∀ i, i < s.ocnt → e.outWord i = s.outWord i) (w : Option Word) :
    ∀ i, i < (s.emitted w).ocnt → (e.emitted w).outWord i = (s.emitted w).outWord i := by
  cases w with
  | none => exact hout
  | some y =>
    by_cases hs : s.ocnt = s.cfg.outSize
    · rw [State.emitted_of_full y hs, State.emitted_of_full y (h.room.2 hs)]
      exact hout
    · rw [State.emitted_of_room y hs, State.emitted_of_room y (mt h.room.1 hs), h.ocnt]
      intro i hi
      have hi : i < s.ocnt + 1 := hi
      calc (e.memWriteOut s.ocnt y).outWord i
        _ = if i = s.ocnt then y else e.outWord i := State.outWord_memWriteOut ..
        _ = if i = s.ocnt then y else s.outWord i :=
          ite_congr rfl (fun _ => rfl) fun hne => hout i (by omega)
        _ = (s.memWriteOut s.ocnt y).outWord i := (State.outWord_memWriteOut ..).symm

/-- A view is of the surroundings alone. -/
theorem SameView.withSurroundings {s' t' : State} (h : SameView s t) :
    SameView (s'.withSurroundings s) (t'.withSurroundings t) :=
  ⟨h.cfg, h.be, h.bitord, h.inLen, h.ocnt, h.bytes⟩

/-- Settles O59: START leaves the same decode in both surroundings; an engine operation does the same
in surroundings with the same view, and its one trace in them is the same emission. -/
theorem decodeDependsOnItsInputsOnly : Obligations.DecodeDependsOnItsInputsOnly := by
  refine ⟨?start, ?engine⟩
  case start =>
    intro s t s' t' hs ht hcfg hbe hbitord hlen hbytes hs' ht'
    rw [exec_start_next hs hs', exec_start_next ht ht']
    exact sameDecode_iff.2 ⟨rfl,
      ⟨hcfg.symm, hbe.symm, hbitord.symm, hlen.symm, rfl, hbytes⟩, nofun⟩
  case engine =>
    intro p i s t s' hd h hs'
    obtain ⟨ht, hview, hout⟩ := sameDecode_iff.1 h
    obtain ⟨w, hs'w, hexec⟩ := exec_next_surroundings hd hs'
    refine ⟨s'.withSurroundings (t.emitted w), ht ▸ hexec t hview, sameDecode_iff.2 ?_⟩
    rw [hs'w]
    exact ⟨rfl, (hview.emitted w).withSurroundings, hview.outWord_emitted hout w⟩

end Sys2Proof.Machine
end

section
/-! PROOFS. The cursor: what its primitives do, the only ways an engine operation and a step move it, and its invariant (41_cursor.md R150–R155; 10_state.md R35, R37). -/

namespace Sys2Proof.Machine

variable {s t : State}

/-! ### The primitives (41_cursor.md R152, R153, R154) -/

theorem bitRead_ok {k : Nat} (h : s.bitReadable k) : bitRead k s = .ok (s.payloadBit k) s :=
  if_pos h

theorem bitRead_refused {k : Nat} (h : ¬ s.bitReadable k) :
    bitRead k s = .refused .bitReadOutOfRange :=
  if_neg h

/-- Settles O29: each primitive has its two outcomes, and an advance that IN_LEN allows stays within
32 bits. -/
theorem cursorPrimitives : Obligations.CursorPrimitives := by
  intro s n k
  refine ⟨fun hle => ⟨_, readU32_ok hle, rfl, toNat_advance hle⟩, readU32_short,
    fun hle => ⟨_, readBytes_ok hle, rfl, toNat_advance hle⟩, readBytes_short,
    fun hk hbits hbytes => bitRead_ok ⟨hk, hbits, hbytes⟩, fun hout => bitRead_refused ?_⟩
  rintro ⟨hk, hbits, hbytes⟩
  omega

/-! ### What an engine operation does to the cursor (41_cursor.md R155) -/

/-- The only ways an engine operation moves POS and BITPOS. -/
inductive CursorMove (s t : State) : Prop where
  | kept : t.pos = s.pos → t.bitPos = s.bitPos → CursorMove s t
  /-- Bytes that the buffer still has are read (41_cursor.md R152, R153). -/
  | advance {n : Nat} : s.pos.toNat + n ≤ s.inLen.toNat → t.pos.toNat = s.pos.toNat + n →
      t.bitPos = s.bitPos → CursorMove s t
  /-- A payload bit is read (44_bitstream_decode.md R207). -/
  | bit : t.pos = s.pos → t.bitPos.toNat = s.bitPos.toNat + 1 → CursorMove s t

@[simp] theorem payloadNext_pos (s : State) : (payloadNext s).pos = s.pos := by
  unfold payloadNext
  split_ifs <;> rfl

@[simp] theorem payloadNext_bitPos (s : State) : (payloadNext s).bitPos = s.bitPos := by
  unfold payloadNext
  split_ifs <;> rfl

namespace CursorMove

theorem pos_le (h : CursorMove s t) : s.pos.toNat ≤ t.pos.toNat := by
  cases h with
  | kept hpos | bit hpos => exact hpos ▸ le_rfl
  | advance _ hpos => exact hpos ▸ Nat.le_add_right ..

theorem bitPos_le (h : CursorMove s t) : s.bitPos.toNat ≤ t.bitPos.toNat := by
  cases h with
  | kept _ hbit | advance _ _ hbit => exact hbit ▸ le_rfl
  | bit _ hbit => exact hbit ▸ Nat.le_succ _

theorem pos_within (h : CursorMove s t) (hs : s.pos.toNat ≤ s.inLen.toNat) :
    t.pos.toNat ≤ s.inLen.toNat := by
  cases h with
  | kept hpos | bit hpos => exact hpos ▸ hs
  | advance hle hpos => exact hpos ▸ hle

/-- An operation that reads one wire field and then leaves the cursor alone. -/
theorem of_readU32 {p : BitVec 5} {k : Word → State → Host.Outcome State Fault Refusal}
    (hk : ∀ v u t, k v u = .next t → t.pos = u.pos ∧ t.bitPos = u.bitPos)
    (h : (readU32 s).andThen p k = .next t) : CursorMove s t := by
  obtain ⟨hle, hnext⟩ | ⟨-, rfl⟩ := readU32_andThen_next h
  · obtain ⟨hpos, hbit⟩ := hk _ _ _ hnext
    exact .advance hle (hpos ▸ toNat_advance hle) hbit
  · exact .kept rfl rfl

/-- HDR_PAIR reads two fields, or the first alone (42_header.md R164). -/
theorem of_hdrPair (h : exec .hdrPair s = .next t) : CursorMove s t := by
  obtain ⟨-, rfl⟩ | ⟨hle, -, rfl⟩ | ⟨hle, u, rfl, ⟨v, hv, rfl⟩ | ⟨-, rfl⟩⟩ := exec_hdrPair_next h
  · exact .kept rfl rfl
  · exact .advance hle (toNat_advance hle) rfl
  · obtain ⟨_, _, he, -⟩ := afterPair_eq v
    rw [he, fmapInsert_frame hv]
    exact .advance hle (toNat_advance hle) rfl
  · exact .advance hle (toNat_advance hle) rfl

theorem of_treeSeed (h : exec .treeSeed s = .next t) : CursorMove s t := by
  obtain ⟨u, hu, hc⟩ := exec_treeSeed_next h
  rw [(seedFrom_frame hu).1] at hc
  obtain ⟨-, r, -, rfl⟩ | ⟨-, rfl⟩ := hc <;> exact .kept rfl rfl

theorem of_treeMerge (h : exec .treeMerge s = .next t) : CursorMove s t := by
  obtain ⟨-, -, a, b, heap, root, phase, -, -, -, -, -, -, -, rfl, -⟩ := exec_treeMerge_next h
  exact .kept rfl rfl

/-- PAYLOAD consumes the payload's bytes, whatever mode it then chooses (44_bitstream_decode.md
R205). -/
theorem of_payload (h : exec .payload s = .next t) : CursorMove s t := by
  obtain ⟨hle, rfl⟩ | ⟨-, rfl⟩ := exec_payload_next h
  · refine .advance hle ?_ (payloadNext_bitPos _)
    rw [payloadNext_pos]
    exact toNat_advance hle
  · exact .kept rfl rfl

theorem of_decBit (h : exec .decBit s = .next t) : CursorMove s t := by
  obtain ⟨hr, -, u, rfl, ⟨-, rfl⟩ | ⟨y, -, -, rfl⟩ | ⟨-, -, rfl⟩⟩ := exec_decBit_next h <;>
    exact .bit rfl (toNat_bitPos_succ hr)

/-- R155 for every row of the phase table (30_encoding.md R118). -/
theorem of_exec {p : BitVec 5} {i : Instr} (hd : decodePhase p = .ok i)
    (h : exec i s = .next t) : CursorMove s t := by
  have hi := decodePhase_mem hd
  simp only [phaseTable, List.mem_cons, Prod.mk.injEq, List.not_mem_nil, or_false] at hi
  rcases hi with ⟨-, rfl⟩ | ⟨-, rfl⟩ | ⟨-, rfl⟩ | ⟨-, rfl⟩ | ⟨-, rfl⟩ | ⟨-, rfl⟩ | ⟨-, rfl⟩ |
    ⟨-, rfl⟩ | ⟨-, rfl⟩ | ⟨-, rfl⟩ | ⟨-, rfl⟩ | ⟨-, rfl⟩ | ⟨-, rfl⟩ | ⟨-, rfl⟩ | ⟨-, rfl⟩ |
    ⟨-, rfl⟩ | ⟨-, rfl⟩
  · rw [exec_idle_next h]
    exact .kept rfl rfl
  · exact of_readU32 (fun _ _ _ hk => by cases hk; exact ⟨rfl, rfl⟩) h
  · refine of_readU32 (fun _ _ _ hk => ?_) h
    split at hk <;> cases hk <;> exact ⟨rfl, rfl⟩
  · refine of_readU32 (fun _ _ _ hk => ?_) h
    split at hk <;> cases hk <;> exact ⟨rfl, rfl⟩
  · exact of_hdrPair h
  · exact of_treeSeed h
  · exact of_treeMerge h
  · rw [exec_codeBuild_next h]
    exact .kept rfl rfl
  · exact of_readU32 (fun _ _ _ hk => by cases hk; exact ⟨rfl, rfl⟩) h
  · exact of_readU32 (fun _ _ _ hk => by cases hk; exact ⟨rfl, rfl⟩) h
  · exact of_readU32 (fun _ _ _ hk => by cases hk; exact ⟨rfl, rfl⟩) h
  · exact of_payload h
  · obtain ⟨-, rfl⟩ | ⟨-, rfl⟩ := exec_decSingle_next h <;> exact .kept rfl rfl
  · exact of_decBit h
  · obtain ⟨-, rfl⟩ | ⟨-, rfl⟩ := exec_decEnd_next h <;> exact .kept rfl rfl
  · rw [exec_done_next h]
    exact .kept rfl rfl
  · rw [exec_error_next h]
    exact .kept rfl rfl

end CursorMove

/-- Settles O49: every way the cursor moves is forward. -/
theorem cursorsNeverGoBack : Obligations.CursorsNeverGoBack := by
  intro p i s t hd h
  have hmove := CursorMove.of_exec hd h
  exact ⟨hmove.pos_le, hmove.bitPos_le⟩

/-! ### What a step does to the cursor -/

theorem State.busy_iff :
    s.busy = true ↔ s.phase ≠ Phase.idle ∧ s.phase ≠ Phase.done ∧ s.phase ≠ Phase.error := by
  rw [State.busy_eq, decide_eq_true_iff]

theorem State.busy_eq_false_iff :
    s.busy = false ↔ s.phase = Phase.idle ∨ s.phase = Phase.done ∨ s.phase = Phase.error := by
  rw [← Bool.not_eq_true, State.busy_iff]
  tauto

/-- While not busy the engine keeps the state (40_step.md R142). -/
theorem exec_next_of_quiescent {i : Instr} (hb : s.busy = false)
    (hd : decodePhase s.phase = .ok i) (h : exec i s = .next t) : t = s := by
  rcases State.busy_eq_false_iff.1 hb with hp | hp | hp <;> rw [hp] at hd <;> cases hd
  · exact exec_idle_next h
  · exact exec_done_next h
  · exact exec_error_next h

/-- Only a command or RST leads to IDLE (40_step.md R146). -/
theorem EngineNext.phase_ne_idle (h : EngineNext s t) (hs : s.phase ≠ Phase.idle) :
    t.phase ≠ Phase.idle := by
  cases h with
  | quiet => exact hs
  | raised | hdrDeclen | hdrReserved | hdrCount | codeBuild | trlPbits | trlPbytes | trlUnpacked
  | decEnd => exact nofun
  | hdrPair _ _ hc => rcases hc with ⟨rfl, -⟩ | ⟨rfl, -⟩ <;> exact nofun
  | tree _ hc | decBit _ _ hc | decBitEmit _ _ hc => rcases hc with rfl | rfl <;> exact nofun
  | payload _ hc => rcases hc with ⟨rfl, -⟩ | rfl | rfl | rfl <;> exact nofun
  | decSingle => exact ite_ne _ nofun hs

/-- A write to IN_LEN is ignored, or it is not busy and the value lies within IN (10_state.md R35). -/
theorem State.writeInLen_cases (s : State) (v : Word) :
    s.writeInLen v = s ∨
    (s.busy = false ∧ v.toNat ≤ s.cfg.inSize ∧ s.writeInLen v = { s with inLen := v }) := by
  unfold State.writeInLen
  split
  · next hc => exact .inr ⟨hc.1, hc.2, rfl⟩
  · exact .inl rfl

/-- The ways a step treats the parameters, IN_LEN and POS (41_cursor.md R155; 10_state.md R35). -/
inductive CursorStep (s t : State) : Prop where
  | kept : t.cfg = s.cfg → t.inLen = s.inLen → t.pos = s.pos → t.phase = s.phase → CursorStep s t
  /-- START and CLEAR, and RST, which sets IN_LEN to 0 too. -/
  | zeroed : t.cfg = s.cfg → t.inLen = s.inLen ∨ t.inLen = 0#32 → t.pos = 0#32 → CursorStep s t
  /-- An operation of a decode. -/
  | engine : s.busy = true → t.phase ≠ Phase.idle → t.cfg = s.cfg → t.inLen = s.inLen →
      (s.pos.toNat ≤ s.inLen.toNat → t.pos.toNat ≤ s.inLen.toNat) → CursorStep s t
  /-- A host write to IN_LEN. -/
  | inLen {a : BusAccess} {ts : List Turn} {v : Word} : s.turns = .host a :: ts →
      decodeAccess a = .ok (.regWr32 0x00C#12 v) → s.busy = false → v.toNat ≤ s.cfg.inSize →
      t = { s with inLen := v, turns := ts } → CursorStep s t

namespace CursorStep

theorem of_engine {ts : List Turn} {i : Instr} (hd : decodePhase s.phase = .ok i)
    (h : exec i { s with turns := ts } = .next t) : CursorStep s t := by
  by_cases hb : s.busy = true
  case pos =>
    obtain ⟨hidle, -⟩ := State.busy_iff.1 hb
    obtain ⟨⟨hcfg, -, -, -, hlen, -⟩, -⟩ := engineLeavesItsInputs _ i _ t hd h
    have hnext : EngineNext { s with turns := ts } t := .of_exec hd h
    exact .engine hb (hnext.phase_ne_idle hidle) hcfg hlen (CursorMove.of_exec hd h).pos_within
  case neg =>
    rw [exec_next_of_quiescent (s := { s with turns := ts }) (Bool.eq_false_of_not_eq_true hb) hd h]
    exact .kept rfl rfl rfl rfl

theorem of_host {a : BusAccess} {ts : List Turn} {i : Instr} (hts : s.turns = .host a :: ts)
    (hd : decodeAccess a = .ok i) (h : exec i { s with turns := ts } = .next t) :
    CursorStep s t := by
  rcases host_next hd h with ⟨v, rfl⟩ | rfl | ⟨-, -, rfl⟩ | ⟨-, rfl⟩ | ⟨v, rfl⟩ | ⟨v, rfl, rfl⟩ |
    ⟨-, b, v, -, rfl⟩ | ⟨-, b, v, -, rfl⟩
  · exact .kept rfl rfl rfl rfl
  · exact .kept rfl rfl rfl rfl
  · exact .zeroed rfl (.inl rfl) rfl
  · exact .zeroed rfl (.inl rfl) rfl
  · obtain ⟨be, bitord, ie, he⟩ := State.writeCtrl_eq { s with turns := ts } v
    rw [he]
    exact .kept rfl rfl rfl rfl
  · obtain he | ⟨hb, hv, he⟩ := State.writeInLen_cases { s with turns := ts } v <;> rw [he]
    · exact .kept rfl rfl rfl rfl
    · exact .inLen hts hd hb hv rfl
  · exact .kept rfl rfl rfl rfl
  · rw [State.putInWord_eq]
    exact .kept rfl rfl rfl rfl

theorem of_step (h : step s = .next t) : CursorStep s t := by
  obtain ⟨-, ts, u, rfl, hc⟩ := step_next h
  rcases hc with ⟨-, -, rfl⟩ | ⟨-, -, i, hd, he⟩ | ⟨-, a, i, hts, hd, he⟩ | ⟨a, -, rfl⟩ |
    ⟨level, -, rfl⟩
  · exact .kept rfl rfl rfl rfl
  · exact of_engine hd he
  · exact of_host hts hd he
  · cases a.dir <;> exact .kept rfl rfl rfl rfl
  · cases level with
    | false => exact .kept rfl rfl rfl rfl
    | true => exact .zeroed rfl (.inr rfl) rfl

theorem keeps_cursorInv (hi : s.cursorInv) (h : CursorStep s t) : t.cursorInv := by
  have ⟨hok, hsize, hidle, hwithin⟩ := hi
  cases h with
  | kept hcfg hlen hpos hphase =>
    rw [State.cursorInv, hcfg, hlen, hpos, hphase]
    exact hi
  | zeroed hcfg hlen hpos =>
    have hle : t.inLen.toNat ≤ s.cfg.inSize := by
      rcases hlen with hlen | hlen <;> rw [hlen]
      · exact hsize
      · exact Nat.zero_le _
    rw [State.cursorInv, hcfg, hpos]
    exact ⟨hok, hle, fun _ => rfl, fun _ _ => Nat.zero_le _⟩
  | engine hbusy hphase hcfg hlen hpos =>
    obtain ⟨-, hdone, herror⟩ := State.busy_iff.1 hbusy
    rw [State.cursorInv, hcfg, hlen]
    exact ⟨hok, hsize, fun hc => absurd hc hphase, fun _ _ => hpos (hwithin hdone herror)⟩
  | @inLen _ _ v _ _ hbusy hv ht =>
    subst ht
    refine ⟨hok, hv, hidle, fun hdone herror => ?_⟩
    obtain hp | hp | hp := State.busy_eq_false_iff.1 hbusy
    · exact hidle hp ▸ Nat.zero_le _
    · exact absurd hp hdone
    · exact absurd hp herror

theorem keeps_pos_within (hi : s.cursorInv) (hs : s.pos.toNat ≤ s.inLen.toNat)
    (h : CursorStep s t) : t.pos.toNat ≤ t.inLen.toNat ∨ s.inLenDropsBelowPos := by
  obtain ⟨-, -, hidle, -⟩ := hi
  cases h with
  | kept _ hlen hpos => exact .inl (by rwa [hlen, hpos])
  | zeroed _ _ hpos => exact .inl (hpos ▸ Nat.zero_le _)
  | engine _ _ _ hlen hpos => exact .inl (hlen ▸ hpos hs)
  | @inLen a ts v hts hd hbusy _ ht =>
    subst ht
    obtain hle | hlt := le_or_gt s.pos.toNat v.toNat
    · exact .inl hle
    · refine .inr ⟨(State.busy_eq_false_iff.1 hbusy).resolve_left fun hp => ?_, a, ts, v, hts, hd, hlt⟩
      simp [hidle hp] at hlt

end CursorStep

/-- Settles O54: the engine moves POS only within IN_LEN, and START, CLEAR and RST set it to 0. The
host writes IN_LEN only while not busy, and in IDLE POS is 0, so only a write in DONE or ERROR can
leave IN_LEN below POS. -/
theorem stepsKeepTheCursorInvariant : Obligations.StepsKeepTheCursorInvariant := by
  intro s t hi h
  have hstep := CursorStep.of_step h
  exact ⟨hstep.keeps_cursorInv hi, fun hs => hstep.keeps_pos_within hi hs⟩

end Sys2Proof.Machine
end

section
/-! PROOFS. The header parser: each of its operations, outcome by outcome (42_header.md R160–R164). -/

namespace Sys2Proof.Machine

variable {s : State}

/-! ### A wire field in front of an operation (41_cursor.md R152) -/

section wireField

variable {p : BitVec 5} {k : Word → State → Host.Outcome State Fault Refusal}

theorem readU32_andThen_ok (hle : s.pos.toNat + 4 ≤ s.inLen.toNat) :
    (readU32 s).andThen p k =
      k (s.wireU32 s.pos.toNat) { s with pos := BitVec.ofNat 32 (s.pos.toNat + 4) } := by
  rw [readU32_ok hle, Act.andThen_ok]

theorem readU32_andThen_short (hlt : s.inLen.toNat < s.pos.toNat + 4) :
    (readU32 s).andThen p k = .next (s.raise .outOfData p) := by
  rw [readU32_short hlt, Act.andThen_raised]

end wireField

/-! ### The three fields of the header -/

/-- Settles O30: the field is there or it is not, and any value of it is taken. -/
theorem hdrDeclenReads : Obligations.HdrDeclenReads := by
  refine ⟨decodePhase_of_mem (by decide), fun s => ⟨?field, ?short⟩⟩
  case field => exact fun hle => ⟨_, readU32_andThen_ok hle, rfl, toNat_advance hle⟩
  case short => exact readU32_andThen_short

/-- Settles O31: where the field is there, its value decides. -/
theorem hdrReservedChecks : Obligations.HdrReservedChecks := by
  refine ⟨decodePhase_of_mem (by decide), fun s => ⟨?zero, ?nonzero, ?short⟩⟩
  case zero =>
    exact fun hle hv =>
      ⟨_, (readU32_andThen_ok hle).trans (if_neg (not_not.2 hv)), rfl, toNat_advance hle⟩
  case nonzero =>
    exact fun hle hv => ⟨_, (readU32_andThen_ok hle).trans (if_pos hv), rfl, toNat_advance hle⟩
  case short => exact readU32_andThen_short

/-- Settles O32: where the field is there, its value decides, and SYMCNT takes it either way. -/
theorem hdrCountReads : Obligations.HdrCountReads := by
  refine ⟨decodePhase_of_mem (by decide), fun s => ⟨?nonzero, ?zero, ?short⟩⟩
  case nonzero =>
    exact fun hle hv => ⟨_, (readU32_andThen_ok hle).trans (if_neg hv), rfl, toNat_advance hle⟩
  case zero =>
    intro hle hv
    exact ⟨_, (readU32_andThen_ok hle).trans (if_pos hv), by rw [hv]; rfl, toNat_advance hle⟩
  case short => exact readU32_andThen_short

/-! ### A pair of the frequency table -/

/-- A known symbol, or room for a new one: the symbol's count is the one entered, and ALPHA counts
the new symbol (42_header.md R160). -/
theorem fmapInsert_ok {y : Word} (c : Word)
    (hroom : (s.count? y).isSome = true ∨ s.alpha.toNat ≠ s.cfg.maxAlphabet) :
    ∃ fmap alpha, fmapInsert y c s = .ok () { s with fmap := fmap, alpha := alpha } ∧
      (∀ z, ({ s with fmap := fmap } : State).count? z = if z = y then some c else s.count? z) ∧
      ((s.count? y).isSome = true → alpha = s.alpha) ∧
      (s.count? y = none → s.alpha.toNat + 1 < 2 ^ 32 → alpha.toNat = s.alpha.toNat + 1) := by
  obtain ⟨hknown, he⟩ | ⟨hnew, hfull, -⟩ | ⟨hnew, -, he⟩ := fmapInsert_cases y c s
  · exact ⟨_, _, he, count?_put s y c, fun _ => rfl, fun hnew => by simp [hnew] at hknown⟩
  · simp [hnew, hfull] at hroom
  · exact ⟨_, _, he, count?_put s y c, fun hknown => by simp [hnew] at hknown,
      fun _ => State.toNat_alphaAfter⟩

theorem fmapInsert_full {y : Word} (c : Word) (hnew : s.count? y = none)
    (hfull : s.alpha.toNat = s.cfg.maxAlphabet) :
    fmapInsert y c s = .raised .alphabetTooLarge s := by
  rw [fmapInsert, hnew, if_neg (by simp), if_pos hfull]

/-- With a pair left, the end of HDR_PAIR counts it off, and goes on to TREE_SEED after the last one
(42_header.md R164). -/
theorem afterPair_of_pairLeft (h : s.pairsLeft ≠ 0#32) :
    ∃ n q, afterPair s = { s with pairsLeft := n, phase := q } ∧
      n.toNat + 1 = s.pairsLeft.toNat ∧ q = if n = 0#32 then Phase.treeSeed else s.phase := by
  obtain ⟨hone, he⟩ | ⟨hmore, he⟩ := afterPair_cases h
  · exact ⟨_, _, he, by simp [hone], rfl⟩
  · exact ⟨_, _, he, by bv_omega, (if_neg (by bv_omega)).symm⟩

/-- With the count there, the symbol is read behind it (42_header.md R164). -/
theorem exec_hdrPair_of_count (hle : s.pos.toNat + 4 ≤ s.inLen.toNat) :
    exec .hdrPair s =
      (readU32 { s with pos := BitVec.ofNat 32 (s.pos.toNat + 4) }).andThen Phase.hdrPair
        fun y u => (fmapInsert y (s.wireU32 s.pos.toNat) u).andThen Phase.hdrPair
          fun _ v => .next (afterPair v) :=
  readU32_andThen_ok hle

/-- The state with POS past a pair's two fields, where the pair is entered (42_header.md R164). -/
def State.pastPair (s : State) : State := { s with pos := BitVec.ofNat 32 (s.pos.toNat + 8) }

/-- With both fields there, HDR_PAIR is the entry of the pair (42_header.md R164). -/
theorem exec_hdrPair_of_pair (hle : s.pos.toNat + 8 ≤ s.inLen.toNat) :
    exec .hdrPair s =
      (fmapInsert (s.wireU32 (s.pos.toNat + 4)) (s.wireU32 s.pos.toNat) s.pastPair).andThen
        Phase.hdrPair fun _ v => .next (afterPair v) := by
  have hcount : s.pos.toNat + 4 ≤ s.inLen.toNat := by omega
  have hpos := toNat_advance hcount
  rw [exec_hdrPair_of_count hcount, readU32_andThen_ok (by dsimp only; omega)]
  simp only [hpos]
  rfl

/-- Settles O33: two fields and an entry, each of which raises its own error; after the entry only
PAIRS_LEFT and PHASE are written. -/
theorem hdrPairEntersThePair : Obligations.HdrPairEntersThePair := by
  refine ⟨decodePhase_of_mem (by decide), ?_⟩
  rintro s _ _ rfl rfl
  refine ⟨?entered, readU32_andThen_short, ?noSymbol, ?full⟩
  case entered =>
    intro hle hleft hroom
    obtain ⟨fmap, alpha, hinsert, hcounts, hknown, hnew⟩ :=
      fmapInsert_ok (s := s.pastPair) (s.wireU32 s.pos.toNat) hroom
    obtain ⟨n, q, hafter, hn, hq⟩ :=
      afterPair_of_pairLeft (s := { s.pastPair with fmap := fmap, alpha := alpha }) hleft
    refine ⟨{ s.pastPair with fmap := fmap, alpha := alpha, pairsLeft := n, phase := q }, ?_, rfl,
      toNat_advance hle, hcounts, hknown, hnew, hn, hq⟩
    rw [exec_hdrPair_of_pair hle, hinsert, Act.andThen_ok, hafter]
  case noSymbol =>
    intro hle hlt
    have hpos := toNat_advance hle
    exact ⟨_, (exec_hdrPair_of_count hle).trans (readU32_andThen_short (by dsimp only; omega)), rfl,
      hpos⟩
  case full =>
    intro hle hnew hfull
    have hinsert := fmapInsert_full (s := s.pastPair) (s.wireU32 s.pos.toNat) hnew hfull
    exact ⟨_, (exec_hdrPair_of_pair hle).trans (by rw [hinsert, Act.andThen_raised]), rfl,
      toNat_advance hle⟩

end Sys2Proof.Machine
end

section
/-! PROOFS. The walk of CODE_BUILD: what its code table holds, and that it is prefix-free and complete (43_code_table.md R179, R183–R185). -/

namespace Sys2Proof.Machine

variable {arena : List (Nat × Node)} {i : Nat} {p : List Bool} {ct : List CodeEntry}

/-- A filled slot is an entry of ARENA. -/
theorem mem_of_arenaGet {n : Node} (h : arenaGet arena i = some n) : (i, n) ∈ arena := by
  obtain ⟨⟨j, m⟩, hfind, rfl⟩ := Option.map_eq_some_iff.1 h
  obtain ⟨hmem, rfl⟩ := Sorted.find_some _ hfind
  exact hmem

/-- The walk without its fuel: `ct` is the table of the tree under node `i` with path `p`, the left
child first (43_code_table.md R179, R188). -/
inductive WalkTable (arena : List (Nat × Node)) : Nat → List Bool → List CodeEntry → Prop where
  | leaf {i : Nat} {p : List Bool} {y : Word} {f : BitVec 40} :
      arenaGet arena i = some (.leaf y f) → WalkTable arena i p [⟨p, y⟩]
  | internal {i l r : Nat} {p : List Bool} {f : BitVec 40} {cl cr : List CodeEntry} :
      arenaGet arena i = some (.internal f l r) → WalkTable arena l (p ++ [false]) cl →
      WalkTable arena r (p ++ [true]) cr → WalkTable arena i p (cl ++ cr)

theorem WalkTable.of_walk {fuel : Nat} (h : walk arena fuel i p = some ct) :
    WalkTable arena i p ct := by
  induction fuel generalizing i p ct with
  | zero => cases h
  | succ fuel ih =>
    unfold walk at h
    split at h
    · cases h
    · next hleaf =>
      cases h
      exact .leaf hleaf
    · next hnode =>
      split at h
      · next hl hr =>
        cases h
        exact .internal hnode (ih hl) (ih hr)
      · cases h

/-- A table that CODE_BUILD takes from ROOT and ARENA is the walk's from the empty path. -/
theorem WalkTable.of_codesOf {root : Option Nat} (h : codesOf root arena = some ct) :
    ∃ r, root = some r ∧ WalkTable arena r [] ct := by
  cases root with
  | none => cases h
  | some r => exact ⟨r, rfl, .of_walk h⟩

/-! ### Where the walk gives a table -/

/-- The filled slots up to `i`: as many as a path down from `i` can meet (43_code_table.md R180). -/
def slotsUpTo (arena : List (Nat × Node)) (i : Nat) : Finset Nat :=
  (arena.map Prod.fst).toFinset.filter (· ≤ i)

theorem card_slotsUpTo_le (arena : List (Nat × Node)) (i : Nat) :
    (slotsUpTo arena i).card ≤ arena.length :=
  calc (slotsUpTo arena i).card
    _ ≤ (arena.map Prod.fst).toFinset.card := Finset.card_filter_le _ _
    _ ≤ (arena.map Prod.fst).length := List.toFinset_card_le _
    _ = arena.length := List.length_map _

theorem self_mem_slotsUpTo (hi : (arenaGet arena i).isSome = true) : i ∈ slotsUpTo arena i := by
  obtain ⟨n, hn⟩ := Option.isSome_iff_exists.1 hi
  exact Finset.mem_filter.2
    ⟨List.mem_toFinset.2 (List.mem_map_of_mem (mem_of_arenaGet hn)), le_rfl⟩

/-- A slot below a filled one has fewer slots up to it. -/
theorem card_slotsUpTo_lt {j : Nat} (hi : (arenaGet arena i).isSome = true) (hj : j < i) :
    (slotsUpTo arena j).card < (slotsUpTo arena i).card := by
  have hsub : slotsUpTo arena j ⊆ slotsUpTo arena i :=
    Finset.monotone_filter_right _ fun _ _ hk => hk.trans hj.le
  exact Finset.card_lt_card
    ⟨hsub, fun hc => absurd (Finset.mem_filter.1 (hc (self_mem_slotsUpTo hi))).2 (by omega)⟩

/-- In a tree whose children stand below their parents the fuel lasts down to every leaf. -/
theorem walk_total (hbelow : childrenBelow arena) {fuel : Nat}
    (hi : (arenaGet arena i).isSome = true) (hfuel : (slotsUpTo arena i).card ≤ fuel) :
    ∃ ct, walk arena fuel i p = some ct := by
  induction fuel generalizing i p with
  | zero =>
    have hpos := Finset.card_pos.2 ⟨i, self_mem_slotsUpTo hi⟩
    omega
  | succ fuel ih =>
    obtain ⟨n, hn⟩ := Option.isSome_iff_exists.1 hi
    cases n with
    | leaf y f => exact ⟨_, by rw [walk, hn]⟩
    | internal f l r =>
      obtain ⟨hl, hr, hls, hrs⟩ := hbelow _ (mem_of_arenaGet hn)
      have hlt {j : Nat} (hj : j < i) : (slotsUpTo arena j).card ≤ fuel := by
        have := card_slotsUpTo_lt hi hj
        omega
      obtain ⟨cl, hcl⟩ := ih (p := p ++ [false]) hls (hlt hl)
      obtain ⟨cr, hcr⟩ := ih (p := p ++ [true]) hrs (hlt hr)
      exact ⟨cl ++ cr, by simp only [walk, hn, hcl, hcr]⟩

/-- ARENA has as many slots as the walk from any of them can need. -/
theorem codesOf_total (hbelow : childrenBelow arena) (hi : (arenaGet arena i).isSome = true) :
    ∃ ct, codesOf (some i) arena = some ct :=
  walk_total hbelow hi (card_slotsUpTo_le arena i)

/-- From a leaf the walk is over at once, whatever else ARENA holds. -/
theorem codesOf_leaf {y : Word} {f : BitVec 40} (h : arenaGet arena i = some (.leaf y f)) :
    codesOf (some i) arena = some [⟨[], y⟩] := by
  cases arena with
  | nil => cases h
  | cons c arena => simp only [codesOf, List.length_cons, walk, h]

/-! ### What the table holds -/

namespace WalkTable

theorem ne_nil (h : WalkTable arena i p ct) : ct ≠ [] := by
  induction h with
  | leaf => exact List.cons_ne_nil _ _
  | internal _ _ _ ihl => exact List.append_ne_nil_of_left_ne_nil ihl _

/-- Every code goes on from the path of the node the walk is at. -/
theorem path_prefix (h : WalkTable arena i p ct) {e : CodeEntry} (he : e ∈ ct) : p <+: e.code := by
  induction h with
  | leaf =>
    obtain rfl := List.mem_singleton.1 he
    exact List.prefix_rfl
  | internal _ _ _ ihl ihr =>
    obtain he | he := List.mem_append.1 he
    · exact (List.prefix_append _ _).trans (ihl he)
    · exact (List.prefix_append _ _).trans (ihr he)

/-- The table holds the leaves under the node, each with its path (43_code_table.md R179). -/
theorem mem_iff (h : WalkTable arena i p ct) {c : List Bool} {y : Word} :
    ⟨c, y⟩ ∈ ct ↔ ∃ q, c = p ++ q ∧ leafAt arena i q = some y := by
  induction h with
  | leaf hleaf =>
    refine ⟨fun hmem => ?_, ?_⟩
    · cases List.mem_singleton.1 hmem
      exact ⟨[], by simp, by simp [leafAt, hleaf]⟩
    · rintro ⟨q, rfl, hq⟩
      cases q <;> simp_all [leafAt]
  | internal hnode _ _ ihl ihr =>
    rw [List.mem_append, ihl, ihr]
    refine ⟨?_, ?_⟩
    · rintro (⟨q, rfl, hq⟩ | ⟨q, rfl, hq⟩)
      · exact ⟨false :: q, by simp, by simpa [leafAt, hnode] using hq⟩
      · exact ⟨true :: q, by simp, by simpa [leafAt, hnode] using hq⟩
    · rintro ⟨q, rfl, hq⟩
      cases q with
      | nil => simp [leafAt, hnode] at hq
      | cons b q =>
        cases b
        · exact .inl ⟨q, by simp, by simpa [leafAt, hnode] using hq⟩
        · exact .inr ⟨q, by simp, by simpa [leafAt, hnode] using hq⟩

/-! ### Prefix-freedom and completeness -/

/-- Exactly one entry's code is a prefix of `b`. -/
abbrev Matched (ct : List CodeEntry) (b : List Bool) : Prop :=
  ∃ e ∈ ct, e.code <+: b ∧ ∀ e' ∈ ct, e'.code <+: b → e' = e

/-- The bit-string `b` goes on to the codes of two entries and is neither of them. -/
abbrev Undecided (ct : List CodeEntry) (b : List Bool) : Prop :=
  ∃ e ∈ ct, ∃ e' ∈ ct, e.code ≠ e'.code ∧ b <+: e.code ∧ b <+: e'.code ∧ b ≠ e.code ∧ b ≠ e'.code

/-- Two bit-strings that part after `p` are no prefixes of each other. -/
theorem not_prefix_of_parted {b b' : Bool} {c d : List Bool} (hb : b ≠ b') (hc : p ++ [b] <+: c)
    (hd : p ++ [b'] <+: d) : ¬ c <+: d := by
  intro hcd
  obtain h : p ++ [b] = p ++ [b'] :=
    (List.prefix_of_prefix_length_le (hc.trans hcd) hd (by simp)).eq_of_length (by simp)
  exact hb (by simpa using h)

/-- Codes of the left subtree part from those of the right one at the node (43_code_table.md R183). -/
theorem prefixFree (h : WalkTable arena i p ct) :
    ct.Pairwise fun e e' => ¬ e.code <+: e'.code ∧ ¬ e'.code <+: e.code := by
  induction h with
  | leaf => exact List.pairwise_singleton _ _
  | internal _ hl hr ihl ihr =>
    refine List.pairwise_append.2 ⟨ihl, ihr, fun e he e' he' => ?_⟩
    exact ⟨not_prefix_of_parted (by decide) (hl.path_prefix he) (hr.path_prefix he'),
      not_prefix_of_parted (by decide) (hr.path_prefix he') (hl.path_prefix he)⟩

/-- A table that goes on from a part without a further prefix of `b` decides `b` as that part does. -/
theorem matched_or_undecided_of_part {part : List CodeEntry} {b : List Bool}
    (hsub : ∀ e ∈ part, e ∈ ct) (hrest : ∀ e ∈ ct, e.code <+: b → e ∈ part)
    (h : Matched part b ∨ Undecided part b) : Matched ct b ∨ Undecided ct b := by
  obtain ⟨e, he, hb, huniq⟩ | ⟨e, he, e', he', h⟩ := h
  · exact .inl ⟨e, hsub e he, hb, fun e' he' hb' => huniq e' (hrest e' he' hb') hb'⟩
  · exact .inr ⟨e, hsub e he, e', hsub e' he', h⟩

/-- A bit-string that goes on from the node's path ends at the node, goes left or goes right
(43_code_table.md R185). -/
theorem complete (h : WalkTable arena i p ct) {b : List Bool} (hb : p <+: b) :
    Matched ct b ∨ Undecided ct b := by
  induction h with
  | leaf => exact .inl ⟨_, List.mem_singleton_self _, hb, fun e he _ => List.mem_singleton.1 he⟩
  | @internal i l r p f cl cr _ hl hr ihl ihr =>
    obtain ⟨q, rfl⟩ := hb
    cases q with
    | nil =>
      obtain ⟨e, he⟩ := List.exists_mem_of_ne_nil _ hl.ne_nil
      obtain ⟨e', he'⟩ := List.exists_mem_of_ne_nil _ hr.ne_nil
      have hpe := hl.path_prefix he
      have hpe' := hr.path_prefix he'
      have hne {d : Bool} {c : List Bool} (hc : p ++ [d] <+: c) : p ≠ c := by
        rintro rfl
        simpa using hc.length_le
      rw [List.append_nil]
      refine .inr ⟨e, List.mem_append_left _ he, e', List.mem_append_right _ he', fun hc => ?_,
        (List.prefix_append _ _).trans hpe, (List.prefix_append _ _).trans hpe', hne hpe, hne hpe'⟩
      exact not_prefix_of_parted (by decide) hpe hpe' (hc ▸ List.prefix_rfl)
    | cons d q =>
      have hd : p ++ [d] <+: p ++ d :: q := ⟨q, by simp⟩
      cases d
      · refine matched_or_undecided_of_part (fun _ => List.mem_append_left _) (fun e he hc => ?_)
          (ihl hd)
        exact (List.mem_append.1 he).resolve_right fun her =>
          not_prefix_of_parted (by decide) (hr.path_prefix her) hd hc
      · refine matched_or_undecided_of_part (fun _ => List.mem_append_right _) (fun e he hc => ?_)
          (ihr hd)
        exact (List.mem_append.1 he).resolve_left fun hel =>
          not_prefix_of_parted (by decide) (hl.path_prefix hel) hd hc

end WalkTable

/-- Settles O39: two leaves' paths part at the node where the walk parts. -/
theorem codesArePrefixFree : Obligations.CodesArePrefixFree := by
  intro root arena ct h
  obtain ⟨r, -, hct⟩ := WalkTable.of_codesOf h
  exact hct.prefixFree

/-- Settles O40: a bit-string leads from the root to a leaf, or ends at an internal node, which has
leaves on both sides. -/
theorem codesAreComplete : Obligations.CodesAreComplete := by
  intro root arena ct h b
  obtain ⟨r, -, hct⟩ := WalkTable.of_codesOf h
  exact hct.complete List.nil_prefix

/-! ### CODE_BUILD (43_code_table.md R179, R184) -/

/-- Where the walk gives a table, CODE_BUILD writes it and goes to TRL_PBITS. -/
theorem exec_codeBuild_of_codesOf {s : State} (h : codesOf s.root s.arena = some ct) :
    exec .codeBuild s = .next { s with ct := ct, phase := Phase.trlPbits } := by
  rw [← codeTable_of_codesOf h]
  rfl

/-- Settles O37: the walk of such a tree gives a table, whose entries are the leaves under ROOT. -/
theorem codeBuildRecordsTheLeafPaths : Obligations.CodeBuildRecordsTheLeafPaths := by
  refine ⟨decodePhase_of_mem (by decide), fun s r _ hbelow hroot hfilled => ?_⟩
  obtain ⟨ct, hct⟩ := codesOf_total hbelow hfilled
  refine ⟨_, exec_codeBuild_of_codesOf (hroot ▸ hct), rfl, fun c y => ?_⟩
  rw [(WalkTable.of_walk hct).mem_iff]
  simp

/-- Settles O38: the walk ends at ROOT with the empty path. -/
theorem singleSymbolTable : Obligations.SingleSymbolTable :=
  fun _ _ _ _ _ hroot hleaf => exec_codeBuild_of_codesOf (hroot ▸ codesOf_leaf hleaf)

end Sys2Proof.Machine
end

section
/-! PROOFS. The heap and the tree builder: the least key, one leaf per symbol, and the merge of the two least (43_code_table.md R171–R178). -/

namespace Sys2Proof.Machine

variable {s t : State}

/-! ### The heap (43_code_table.md R171–R174) -/

theorem heapPopMin_of_heapPeek {m : Nat} (h : heapPeek s = .ok m s) :
    heapPopMin s = .ok m { s with heap := s.heap.filter (fun i => i != m) } := by
  rw [heapPopMin, h, Act.bind_ok]

theorem heapPeek_empty (h : s.heap = []) : heapPeek s = .refused .heapEmpty := by
  rw [heapPeek, h]
  rfl

theorem heapPeek_sole {i : Nat} (h : s.heap = [i]) : heapPeek s = .ok i s := by
  rw [heapPeek, h]
  rfl

/-- What follows a peek goes on with one of the indices. -/
theorem heapPeek_andThen_next {p : BitVec 5} {k : Nat → State → Host.Outcome State Fault Refusal}
    (hne : s.heap ≠ []) (hk : ∀ m, ∃ t, k m s = .next t) :
    ∃ t, (heapPeek s).andThen p k = .next t := by
  obtain ⟨m, hm⟩ := heapPeek_total hne
  rw [hm, Act.andThen_ok]
  exact hk m

theorem heapPush_ok {i : Nat} (hroom : s.heap.length < s.cfg.maxAlphabet) (hnew : i ∉ s.heap) :
    heapPush i s = .ok () { s with heap := Sorted.put id i s.heap } := by
  rw [heapPush, if_pos hroom, if_neg (by simpa using hnew)]

/-- Settles O34: the peeked index is the least key of the list, and the pop is the peek and the
removal of that index. -/
theorem heapGivesTheLeastKey : Obligations.HeapGivesTheLeastKey := by
  refine fun s => ⟨fun hne _ => ?some, fun hempty => ?none⟩
  case some =>
    obtain ⟨m, hm⟩ := heapPeek_total hne
    obtain ⟨-, hmem, hleast⟩ := heapPeek_ok hm
    exact ⟨m, _, heapPopMin_of_heapPeek hm, hm, hmem,
      fun i hi hne => (keyLt_iff _ _ _).1 (hleast i hi hne), rfl, by simp⟩
  case none =>
    have hpeek := heapPeek_empty hempty
    exact ⟨by rw [heapPopMin, hpeek]; rfl, hpeek⟩

/-! ### Ordered collections -/

/-- An entry with a key of its own is entered beside the others. -/
theorem Sorted.put_perm {α : Type} (key : α → Nat) {x : α} {l : List α}
    (h : ∀ e ∈ l, key e ≠ key x) : (Sorted.put key x l).Perm (x :: l) := by
  induction l with
  | nil => exact .rfl
  | cons e l ih =>
    obtain ⟨he, hl⟩ := List.forall_mem_cons.1 h
    unfold Sorted.put
    split_ifs with hlt heq
    · exact .rfl
    · exact absurd heq.symm he
    · exact ((ih hl).cons e).trans (.swap x e l)

/-- An entry with a key above the others is entered last. -/
theorem Sorted.put_eq_concat {α : Type} (key : α → Nat) {x : α} {l : List α}
    (h : ∀ e ∈ l, key e < key x) : Sorted.put key x l = l ++ [x] := by
  induction l with
  | nil => rfl
  | cons e l ih =>
    obtain ⟨he, hl⟩ := List.forall_mem_cons.1 h
    rw [Sorted.put, if_neg he.not_gt, if_neg he.ne', ih hl, List.cons_append]

theorem Sorted.nodup {l : List Nat} (h : Sorted.wf id l = true) : l.Nodup :=
  ((Sorted.wf_iff_pairwise id).1 h).imp fun hlt => hlt.ne

theorem Sorted.wf_filter {l : List Nat} (p : Nat → Bool) (h : Sorted.wf id l = true) :
    Sorted.wf id (l.filter p) = true :=
  (Sorted.wf_iff_pairwise id).2 (((Sorted.wf_iff_pairwise id).1 h).filter p)

/-- Removing one of distinct indices leaves the others. -/
theorem perm_cons_filter_ne {l : List Nat} {a : Nat} (hl : l.Nodup) (ha : a ∈ l) :
    l.Perm (a :: l.filter (fun i => i != a)) :=
  hl.erase_eq_filter a ▸ List.perm_cons_erase ha

/-! ### TREE_SEED (43_code_table.md R177) -/

/-- The leaf of an entry of FMAP, its count zero-extended to 40 bits. -/
def FreqEntry.leaf (e : FreqEntry) : Node := .leaf e.symbol (e.count.setWidth 40)

/-- The slots that the loop of TREE_SEED fills from slot `i` on. -/
def seedLeaves : Nat → List FreqEntry → List (Nat × Node)
  | _, [] => []
  | i, e :: l => (i, e.leaf) :: seedLeaves (i + 1) l

/-- With every slot and every index in HEAP below `i`, the loop of TREE_SEED appends to both. -/
theorem seedFrom_eq {i : Nat} {l : List FreqEntry} (harena : ∀ c ∈ s.arena, c.1 < i)
    (hheap : ∀ j ∈ s.heap, j < i) (hroom : s.heap.length + l.length ≤ s.cfg.maxAlphabet) :
    seedFrom i l s = .ok ()
      { s with arena := s.arena ++ seedLeaves i l, heap := s.heap ++ List.range' i l.length } := by
  induction l generalizing i s with
  | nil => simp [seedFrom, seedLeaves]
  | cons e l ih =>
    rw [List.length_cons] at hroom
    have hpush : heapPush i (s.arenaPut i e.leaf) = .ok ()
        { s with arena := s.arena ++ [(i, e.leaf)], heap := s.heap ++ [i] } := by
      have hlt : (s.arenaPut i e.leaf).heap.length < (s.arenaPut i e.leaf).cfg.maxAlphabet := by
        simp only [State.arenaPut_heap, State.arenaPut_cfg]
        omega
      have hnew : i ∉ (s.arenaPut i e.leaf).heap := fun hc => absurd (hheap i hc) (lt_irrefl i)
      rw [heapPush_ok hlt hnew]
      simp only [State.arenaPut, Sorted.put_eq_concat id hheap,
        Sorted.put_eq_concat Prod.fst (x := (i, e.leaf)) harena]
    rw [seedFrom, ← FreqEntry.leaf, hpush, Act.bind_ok, ih]
    · simp [seedLeaves, List.range'_succ]
    · simpa [or_imp, forall_and] using fun j n hc => (harena (j, n) hc).trans (Nat.lt_succ_self i)
    · simpa [or_imp, forall_and] using fun j hj => (hheap j hj).trans (Nat.lt_succ_self i)
    · simp only [List.length_append, List.length_singleton]
      omega

theorem arenaGet_cons (i j : Nat) (n : Node) (arena : List (Nat × Node)) :
    arenaGet ((i, n) :: arena) j = if i = j then some n else arenaGet arena j := by
  rw [arenaGet, Sorted.find]
  split_ifs <;> rfl

theorem arenaGet_seedLeaves (i j : Nat) (l : List FreqEntry) :
    arenaGet (seedLeaves i l) j = if i ≤ j then (l[j - i]?).map FreqEntry.leaf else none := by
  induction l generalizing i with
  | nil => simp [seedLeaves, arenaGet, Sorted.find]
  | cons e l ih =>
    rw [seedLeaves, arenaGet_cons, ih]
    obtain hlt | rfl | hlt := Nat.lt_trichotomy i j
    · have hsub : j - i = (j - (i + 1)) + 1 := by omega
      rw [if_neg hlt.ne, if_pos (Nat.succ_le_of_lt hlt), if_pos hlt.le, hsub,
        List.getElem?_cons_succ]
    · simp
    · rw [if_neg hlt.ne', if_neg (by omega), if_neg (by omega)]

/-- The state with the leaves of TREE_SEED made and pushed (43_code_table.md R177). -/
def State.seeded (s : State) : State :=
  { s with
    arena := seedLeaves 0 s.seedEntries
    nextIdx := s.alpha.toNat
    heap := List.range s.alpha.toNat }

/-- From an empty ARENA and HEAP, TREE_SEED is the leaves and the choice of where to go on. -/
theorem exec_treeSeed_eq (harena : s.arena = []) (hheap : s.heap = [])
    (hmax : s.alpha.toNat ≤ s.cfg.maxAlphabet) :
    ∃ root phase, exec .treeSeed s = .next { s.seeded with root := root, phase := phase } ∧
      ((s.alpha.toNat = 1 ∧ root = some 0 ∧ phase = Phase.codeBuild) ∨
        (s.alpha.toNat ≠ 1 ∧ root = s.root ∧ phase = Phase.treeMerge)) := by
  have hseed : seedFrom 0 s.seedEntries s = .ok () { s.seeded with nextIdx := s.nextIdx } := by
    rw [seedFrom_eq (by simp [harena]) (by simp [hheap]) (by simpa [hheap] using hmax)]
    simp [State.seeded, harena, hheap, List.range_eq_range']
  by_cases hone : s.alpha.toNat = 1
  · refine ⟨some 0, Phase.codeBuild, ?_, .inl ⟨hone, rfl, rfl⟩⟩
    have hpeek : heapPeek s.seeded = .ok 0 s.seeded := heapPeek_sole (by simp [State.seeded, hone])
    have hsize : s.seeded.heapSize = 1 := by simp [State.seeded, State.heapSize, hone]
    change (seedFrom 0 s.seedEntries s).andThen _ _ = _
    rw [hseed, Act.andThen_ok]
    change (if s.seeded.heapSize = 1 then (heapPeek s.seeded).andThen _ _ else _) = _
    rw [if_pos hsize, hpeek, Act.andThen_ok]
  · refine ⟨s.root, Phase.treeMerge, ?_, .inr ⟨hone, rfl, rfl⟩⟩
    have hsize : s.seeded.heapSize ≠ 1 := by simpa [State.seeded, State.heapSize] using hone
    change (seedFrom 0 s.seedEntries s).andThen _ _ = _
    rw [hseed, Act.andThen_ok]
    exact if_neg hsize

/-- Settles O35: the loop appends one leaf and one index per entry of FMAP, from slot 0 on. -/
theorem treeSeedMakesTheLeaves : Obligations.TreeSeedMakesTheLeaves := by
  refine ⟨decodePhase_of_mem (by decide), fun s _ halpha hpos hmax harena hheap => ?_⟩
  obtain ⟨root, phase, hexec, hnext⟩ := exec_treeSeed_eq harena hheap (halpha ▸ hmax)
  refine ⟨_, hexec, ?frame, fun i => ?leaves, ?heap, fun hone => ?one, fun htwo => ?more⟩
  case frame => rw [State.seeded, halpha]
  case leaves =>
    change arenaGet (seedLeaves 0 s.seedEntries) i = _
    rw [arenaGet_seedLeaves, if_pos (Nat.zero_le i), State.seedEntries_eq halpha]
    rfl
  case heap => rw [State.seeded, halpha]
  case one =>
    obtain ⟨-, rfl, rfl⟩ | ⟨hne, -⟩ := hnext
    · exact ⟨rfl, rfl⟩
    · exact absurd (halpha.trans hone) hne
  case more =>
    obtain ⟨hone, -⟩ | ⟨-, rfl, rfl⟩ := hnext
    · omega
    · exact ⟨rfl, rfl⟩

/-! ### TREE_MERGE (43_code_table.md R178) -/

/-- With both pops made, room for the parent and an index of its own for it, TREE_MERGE runs. -/
theorem exec_treeMerge_of_pops {a b : Nat} {u v : State} (htwo : 2 ≤ s.heap.length)
    (ha : heapPopMin s = .ok a u) (hb : heapPopMin u = .ok b v)
    (hroom : v.nextIdx < 2 * v.cfg.maxAlphabet - 1) (hlt : v.heap.length < v.cfg.maxAlphabet)
    (hnew : v.nextIdx ∉ v.heap) : ∃ t, exec .treeMerge s = .next t := by
  have hpush := heapPush_ok (i := v.nextIdx)
    (s := { v.arenaPut v.nextIdx (mergedNode v.arena a b) with nextIdx := v.nextIdx + 1 }) hlt hnew
  change ∃ t, execTreeMerge s = .next t
  unfold execTreeMerge
  rw [if_neg (show ¬ s.heapSize < 2 from htwo.not_gt), ha, Act.andThen_ok, hb, Act.andThen_ok,
    if_neg hroom.not_ge, hpush, Act.andThen_ok]
  dsimp only
  split
  · exact heapPeek_andThen_next (Sorted.put_ne_nil _ _ _) fun _ => ⟨_, rfl⟩
  · exact ⟨_, rfl⟩

/-- With two indices to pop, room for the parent and an index of its own for it, TREE_MERGE runs. -/
theorem exec_treeMerge_total (hwf : Sorted.wf id s.heap = true) (htwo : 2 ≤ s.heap.length)
    (hmax : s.heap.length ≤ s.cfg.maxAlphabet) (hnew : s.nextIdx ∉ s.heap)
    (hroom : s.nextIdx < 2 * s.cfg.maxAlphabet - 1) : ∃ t, exec .treeMerge s = .next t := by
  obtain ⟨a, ha⟩ := heapPopMin_total (s := s) (List.ne_nil_of_length_pos (by omega))
  have hrest := (perm_cons_filter_ne (Sorted.nodup hwf) (heapPopMin_ok ha).2.1).length_eq
  rw [List.length_cons] at hrest
  obtain ⟨b, hb⟩ := heapPopMin_total (s := { s with heap := s.heap.filter (fun i => i != a) })
    (List.ne_nil_of_length_pos (by dsimp only; omega))
  refine exec_treeMerge_of_pops htwo ha hb hroom ?_ fun hc =>
    hnew (List.mem_of_mem_filter (List.mem_of_mem_filter hc))
  exact lt_of_le_of_lt (List.length_filter_le _ _) (by dsimp only; omega)

/-- What TREE_MERGE leaves, with HEAP up to its order: the parent of the two least indices stands in
their place. -/
theorem exec_treeMerge_perm (hwf : Sorted.wf id s.heap = true) (hnew : s.nextIdx ∉ s.heap)
    (h : exec .treeMerge s = .next t) :
    ∃ a b rest, s.heap.Perm (a :: b :: rest) ∧
      (∀ i ∈ s.heap, i ≠ a → keyBelow s.arena a i) ∧
      (∀ i ∈ s.heap, i ≠ a → i ≠ b → keyBelow s.arena b i) ∧
      t = { s with
        arena := Sorted.put Prod.fst (s.nextIdx, mergedNode s.arena a b) s.arena
        nextIdx := s.nextIdx + 1, heap := t.heap, root := t.root, phase := t.phase } ∧
      t.heap.Perm (s.nextIdx :: rest) ∧ Sorted.wf id t.heap = true ∧
      ((t.heap.length = 1 ∧ t.root = some s.nextIdx ∧ t.phase = Phase.codeBuild) ∨
        (t.heap.length ≠ 1 ∧ t.root = s.root ∧ t.phase = s.phase)) := by
  obtain ⟨-, -, a, b, heap, root, phase, ha, hb, hab, hla, hlb, -, rfl, rfl, hc⟩ :=
    exec_treeMerge_next h
  have hnd := Sorted.nodup hwf
  have hba : b ∈ s.heap.filter (fun i => i != a) := List.mem_filter.2 ⟨hb, by simpa using hab.symm⟩
  have hput : (Sorted.put id s.nextIdx
      ((s.heap.filter (fun i => i != a)).filter (fun i => i != b))).Perm
      (s.nextIdx :: (s.heap.filter (fun i => i != a)).filter (fun i => i != b)) := by
    refine Sorted.put_perm id fun i hi (hc : i = s.nextIdx) => hnew ?_
    exact hc ▸ List.mem_of_mem_filter (List.mem_of_mem_filter hi)
  refine ⟨a, b, _, (perm_cons_filter_ne hnd ha).trans ((perm_cons_filter_ne (hnd.filter _) hba).cons a),
    fun i hi hne => (keyLt_iff _ _ _).1 (hla i hi hne),
    fun i hi hia hib => (keyLt_iff _ _ _).1 (hlb i hi hia hib), rfl, hput,
    Sorted.put_wf id (Sorted.wf_filter _ (Sorted.wf_filter _ hwf)), ?_⟩
  obtain ⟨hone, ⟨r, hr, rfl⟩, rfl⟩ | hmore := hc
  · obtain ⟨j, hj⟩ := List.length_eq_one_iff.1 hone
    have hmem := hput.mem_iff.2 List.mem_cons_self
    rw [hj, List.mem_singleton] at hr hmem
    exact .inl ⟨hone, by rw [hr, hmem], rfl⟩
  · exact .inr hmore

/-- The parent's frequency is the sum of its children's while that fits (43_code_table.md R178,
R182). -/
theorem mergedNode_of_fits {arena : List (Nat × Node)} {a b : Nat}
    (h : freqAt arena a + freqAt arena b < 2 ^ 40) :
    mergedNode arena a b =
      .internal (BitVec.ofNat 40 (freqAt arena a + freqAt arena b)) a b := by
  rw [mergedNode, freqSum, if_pos h]

/-- Settles O36: the two pops are the two least keys, and the parent of the two is entered at
NEXTIDX and pushed. -/
theorem treeMergeMergesTheTwoLeast : Obligations.TreeMergeMergesTheTwoLeast := by
  refine ⟨decodePhase_of_mem (by decide), fun s hwf htwo hmax _ hnew hfits hroom => ?_⟩
  obtain ⟨t, ht⟩ := exec_treeMerge_total hwf htwo hmax hnew hroom
  obtain ⟨a, b, rest, hheap, hla, hlb, hframe, hheap', -, hnext⟩ := exec_treeMerge_perm hwf hnew ht
  have hdistinct : (a :: b :: rest).Nodup := hheap.nodup_iff.1 (Sorted.nodup hwf)
  obtain ⟨⟨hab, har⟩, hbr, -⟩ : (a ≠ b ∧ a ∉ rest) ∧ b ∉ rest ∧ rest.Nodup := by
    simpa [not_or] using hdistinct
  have ha : a ∈ s.heap := hheap.mem_iff.2 (by simp)
  have hb : b ∈ s.heap := hheap.mem_iff.2 (by simp)
  have hsum := hfits a ha b hb hab
  have harena (i : Nat) : arenaGet t.arena i =
      if i = s.nextIdx then some (mergedNode s.arena a b) else arenaGet s.arena i := by
    rw [hframe, arenaGet_put]
  have hparent : arenaGet t.arena s.nextIdx = some (mergedNode s.arena a b) := by simp [harena]
  have hlen := hheap.length_eq
  have hlen' := hheap'.length_eq
  simp only [List.length_cons] at hlen hlen'
  refine ⟨a, b, t, ht, ha, hb, hab, hla, hlb, ?frame, ?parent, ?freq, fun i hi => ?others,
    fun i => ?heap, by omega, fun hlast => ?last, fun hmore => ?more⟩
  case frame => rw [hframe]
  case parent => rw [hparent, mergedNode_of_fits hsum]
  case freq => rw [freqAt_of_filled hparent, mergedNode, Node.freq, toNat_freqSum hsum]
  case others => rw [harena, if_neg hi]
  case heap =>
    rw [hheap'.mem_iff, hheap.mem_iff, List.mem_cons, List.mem_cons, List.mem_cons]
    exact or_congr_right
      ⟨fun hi => ⟨.inr (.inr hi), fun hc => har (hc ▸ hi), fun hc => hbr (hc ▸ hi)⟩,
        fun ⟨hi, hia, hib⟩ => (hi.resolve_left hia).resolve_left hib⟩
  case last =>
    obtain ⟨-, hroot, hphase⟩ | ⟨hne, -⟩ := hnext
    · exact ⟨hroot, hphase⟩
    · omega
  case more =>
    obtain ⟨hone, -⟩ | ⟨-, hroot, hphase⟩ := hnext
    · omega
    · exact ⟨hroot, hphase⟩

end Sys2Proof.Machine
end

section
/-! PROOFS. The forest under HEAP while the tree is built, and the candidate while the payload is decoded (43_code_table.md R177–R189; 44_bitstream_decode.md R207). -/

namespace Sys2Proof.Machine

variable {arena : List (Nat × Node)} {i j n : Nat}

/-! ### One tree (43_code_table.md R178, R182) -/

/-- Node `i` is the root of a tree of `n` leaves. Each count has 32 bits, so its frequency is below
`n * 2^32`. -/
inductive LeafTree (arena : List (Nat × Node)) : Nat → Nat → Prop where
  | leaf {i : Nat} {y : Word} {f : BitVec 40} :
      arenaGet arena i = some (.leaf y f) → f.toNat < 2 ^ 32 → LeafTree arena i 1
  | internal {i l r m n : Nat} {f : BitVec 40} :
      arenaGet arena i = some (.internal f l r) → f.toNat < (m + n) * 2 ^ 32 →
      LeafTree arena l m → LeafTree arena r n → LeafTree arena i (m + n)

namespace LeafTree

theorem filled (h : LeafTree arena i n) : (arenaGet arena i).isSome = true := by
  cases h with
  | leaf hnode | internal hnode => simp [hnode]

theorem freqAt_lt (h : LeafTree arena i n) : freqAt arena i < n * 2 ^ 32 := by
  cases h with
  | leaf hnode hf => rw [freqAt_of_filled hnode, one_mul]; exact hf
  | internal hnode hf => rw [freqAt_of_filled hnode]; exact hf

theorem pos (h : LeafTree arena i n) : 1 ≤ n := by
  induction h with
  | leaf => exact le_rfl
  | internal _ _ _ _ ihl => exact ihl.trans (Nat.le_add_right _ _)

/-- Filling an empty slot leaves every tree as it was. -/
theorem put {node : Node} (hj : arenaGet arena j = none) (h : LeafTree arena i n) :
    LeafTree (Sorted.put Prod.fst (j, node) arena) i n := by
  have keep {k : Nat} {m : Node} (hk : arenaGet arena k = some m) :
      arenaGet (Sorted.put Prod.fst (j, node) arena) k = some m := by
    rw [arenaGet_put, if_neg, hk]
    rintro rfl
    simp [hj] at hk
  induction h with
  | leaf hnode hf => exact .leaf (keep hnode) hf
  | internal hnode hf _ _ ihl ihr => exact .internal (keep hnode) hf ihl ihr

/-- The walk meets every leaf once. -/
theorem length_table (h : LeafTree arena i n) {p : List Bool} {ct : List CodeEntry}
    (hw : WalkTable arena i p ct) : ct.length = n := by
  induction h generalizing p ct with
  | leaf hnode =>
    cases hw with
    | leaf => rfl
    | internal hnode' => simp [hnode] at hnode'
  | internal hnode _ _ _ ihl ihr =>
    cases hw with
    | leaf hnode' => simp [hnode] at hnode'
    | internal hnode' hl hr =>
      cases hnode.symm.trans hnode'
      rw [List.length_append, ihl hl, ihr hr]

end LeafTree

/-! ### The forest -/

/-- What TREE_SEED and TREE_MERGE keep: the indices in HEAP are the roots of trees of `n` leaves in
all, the children stand below their parents, every slot is below NEXTIDX, and NEXTIDX rises as HEAP
shrinks (43_code_table.md R177, R178, R180). -/
structure Forest (arena : List (Nat × Node)) (nextIdx : Nat) (heap : List Nat) (n : Nat) : Prop where
  wf : Sorted.wf id heap = true
  children : childrenBelow arena
  below : ∀ c ∈ arena, c.1 < nextIdx
  slots : nextIdx + heap.length = 2 * n
  trees : ∃ size : Nat → Nat, (∀ i ∈ heap, LeafTree arena i (size i)) ∧ (heap.map size).sum = n

/-- Two different members of a list stand in front of the others, up to order. -/
theorem exists_perm_cons_cons {l : List Nat} (hi : i ∈ l) (hj : j ∈ l) (hij : i ≠ j) :
    ∃ rest, l.Perm (i :: j :: rest) := by
  have hj' : j ∈ l.erase i := (List.mem_erase_of_ne hij.symm).2 hj
  exact ⟨_, (List.perm_cons_erase hi).trans ((List.perm_cons_erase hj').cons i)⟩

/-- Entering a node with its children below it keeps the children below their parents. -/
theorem childrenBelow_put {node : Node} (h : childrenBelow arena)
    (hnode : ∀ f l r, node = .internal f l r → l < i ∧ r < i ∧ (arenaGet arena l).isSome = true ∧
      (arenaGet arena r).isSome = true) :
    childrenBelow (Sorted.put Prod.fst (i, node) arena) := by
  have keep {k : Nat} (hk : (arenaGet arena k).isSome = true) :
      (arenaGet (Sorted.put Prod.fst (i, node) arena) k).isSome = true := by
    rw [arenaGet_put]
    split_ifs
    · rfl
    · exact hk
  rintro ⟨j, m⟩ hc
  cases m with
  | leaf => trivial
  | internal f l r =>
    obtain hc | hc := Sorted.mem_put Prod.fst hc
    · cases hc
      obtain ⟨hl, hr, hls, hrs⟩ := hnode f l r rfl
      exact ⟨hl, hr, keep hls, keep hrs⟩
    · obtain ⟨hl, hr, hls, hrs⟩ := h _ hc
      exact ⟨hl, hr, keep hls, keep hrs⟩

theorem mem_seedLeaves {l : List FreqEntry} {c : Nat × Node} (h : c ∈ seedLeaves i l) :
    c.1 < i + l.length ∧ ∃ e : FreqEntry, c.2 = e.leaf := by
  induction l generalizing i with
  | nil => cases h
  | cons e l ih =>
    rw [List.length_cons]
    obtain rfl | h := List.mem_cons.1 h
    · exact ⟨by dsimp only; omega, e, rfl⟩
    · obtain ⟨hlt, he⟩ := ih h
      exact ⟨by omega, he⟩

theorem FreqEntry.toNat_leaf_freq_lt (e : FreqEntry) : (e.count.setWidth 40).toNat < 2 ^ 32 := by
  rw [BitVec.toNat_setWidth]
  have := e.count.isLt
  omega

namespace Forest

variable {nextIdx : Nat} {heap : List Nat}

/-- The leaves that TREE_SEED makes. -/
theorem seed (l : List FreqEntry) :
    Forest (seedLeaves 0 l) l.length (List.range l.length) l.length where
  wf := (Sorted.wf_iff_pairwise id).2 List.pairwise_lt_range
  children := by
    rintro ⟨j, m⟩ hc
    obtain ⟨-, e, rfl : m = e.leaf⟩ := mem_seedLeaves hc
    trivial
  below c hc := by simpa using (mem_seedLeaves hc).1
  slots := by rw [List.length_range]; omega
  trees := by
    refine ⟨fun _ => 1, fun i hi => ?_, by simp⟩
    have hi : i < l.length := List.mem_range.1 hi
    refine .leaf (y := l[i].symbol) (f := l[i].count.setWidth 40) ?_ l[i].toNat_leaf_freq_lt
    simp [arenaGet_seedLeaves, hi, FreqEntry.leaf]

theorem filled (h : Forest arena nextIdx heap n) (hi : i ∈ heap) :
    (arenaGet arena i).isSome = true := by
  obtain ⟨size, htrees, -⟩ := h.trees
  exact (htrees i hi).filled

theorem lt_nextIdx (h : Forest arena nextIdx heap n) (hi : (arenaGet arena i).isSome = true) :
    i < nextIdx := by
  obtain ⟨m, hm⟩ := Option.isSome_iff_exists.1 hi
  exact h.below _ (mem_of_arenaGet hm)

theorem nextIdx_empty (h : Forest arena nextIdx heap n) : arenaGet arena nextIdx = none :=
  Option.not_isSome_iff_eq_none.1 fun hc => lt_irrefl _ (h.lt_nextIdx hc)

theorem nextIdx_not_mem (h : Forest arena nextIdx heap n) : nextIdx ∉ heap :=
  fun hc => lt_irrefl _ (h.lt_nextIdx (h.filled hc))

theorem ne_nextIdx (h : Forest arena nextIdx heap n) (hi : i ∈ heap) : i ≠ nextIdx :=
  fun hc => h.nextIdx_not_mem (hc ▸ hi)

theorem length_heap_le (h : Forest arena nextIdx heap n) : heap.length ≤ n := by
  obtain ⟨size, htrees, hsum⟩ := h.trees
  rw [← hsum, ← List.length_map size]
  refine List.length_le_sum_of_one_le _ fun k hk => ?_
  obtain ⟨i, hi, rfl⟩ := List.mem_map.1 hk
  exact (htrees i hi).pos

/-- Two trees of the forest have at most 256 leaves, so their frequencies add up below `2^40`
(43_code_table.md R182). -/
theorem freq_fits (h : Forest arena nextIdx heap n) (hn : n ≤ 256) {a b : Nat} {rest : List Nat}
    (hperm : heap.Perm (a :: b :: rest)) : freqAt arena a + freqAt arena b < 2 ^ 40 := by
  obtain ⟨size, htrees, hsum⟩ := h.trees
  have ha := (htrees a (hperm.mem_iff.2 (by simp))).freqAt_lt
  have hb := (htrees b (hperm.mem_iff.2 (by simp))).freqAt_lt
  have hsum := (hperm.map size).sum_eq.symm.trans hsum
  simp only [List.map_cons, List.sum_cons] at hsum
  omega

/-- A merge joins two trees into one. -/
theorem merge (h : Forest arena nextIdx heap n) (hn : n ≤ 256) {a b : Nat} {rest heap' : List Nat}
    (hperm : heap.Perm (a :: b :: rest)) (hperm' : heap'.Perm (nextIdx :: rest))
    (hwf : Sorted.wf id heap' = true) :
    Forest (Sorted.put Prod.fst (nextIdx, mergedNode arena a b) arena) (nextIdx + 1) heap' n := by
  obtain ⟨size, htrees, hsum⟩ := h.trees
  have ha : a ∈ heap := hperm.mem_iff.2 (by simp)
  have hb : b ∈ heap := hperm.mem_iff.2 (by simp)
  have hrest {i : Nat} (hi : i ∈ rest) : i ∈ heap := hperm.mem_iff.2 (by simp [hi])
  have hfits := h.freq_fits hn hperm
  have hlen := hperm.length_eq
  have hlen' := hperm'.length_eq
  simp only [List.length_cons] at hlen hlen'
  refine ⟨hwf, ?children, fun c hc => ?below, by have := h.slots; omega,
    Function.update size nextIdx (size a + size b), fun i hi => ?tree, ?sum⟩
  case children =>
    refine childrenBelow_put h.children fun f l r hnode => ?_
    cases hnode
    exact ⟨h.lt_nextIdx (h.filled ha), h.lt_nextIdx (h.filled hb), h.filled ha, h.filled hb⟩
  case below =>
    obtain rfl | hc := Sorted.mem_put Prod.fst hc
    · exact Nat.lt_succ_self _
    · exact (h.below c hc).trans (Nat.lt_succ_self _)
  case tree =>
    obtain rfl | hi := List.mem_cons.1 (hperm'.mem_iff.1 hi)
    · rw [Function.update_self]
      refine .internal (by rw [arenaGet_put, if_pos rfl]; rfl) ?_
        ((htrees a ha).put h.nextIdx_empty) ((htrees b hb).put h.nextIdx_empty)
      rw [toNat_freqSum hfits]
      have := (htrees a ha).freqAt_lt
      have := (htrees b hb).freqAt_lt
      omega
    · rw [Function.update_of_ne (h.ne_nextIdx (hrest hi))]
      exact (htrees i (hrest hi)).put h.nextIdx_empty
  case sum =>
    have hkeep : rest.map (Function.update size nextIdx (size a + size b)) = rest.map size :=
      List.map_congr_left fun i hi => Function.update_of_ne (h.ne_nextIdx (hrest hi)) _ _
    calc (heap'.map (Function.update size nextIdx (size a + size b))).sum
      _ = size a + size b + (rest.map size).sum := by
        rw [(hperm'.map _).sum_eq, List.map_cons, List.sum_cons, Function.update_self, hkeep]
      _ = (heap.map size).sum := by
        rw [(hperm.map size).sum_eq, List.map_cons, List.map_cons, List.sum_cons, List.sum_cons,
          add_assoc]
      _ = n := hsum

/-- With one tree left the walk from its root gives a table of all the leaves. -/
theorem codesOf_root (h : Forest arena nextIdx [i] n) :
    ∃ ct, codesOf (some i) arena = some ct ∧ ct.length = n := by
  obtain ⟨size, htrees, hsum⟩ := h.trees
  have hi : i ∈ [i] := List.mem_singleton_self i
  obtain ⟨ct, hct⟩ := codesOf_total h.children (h.filled hi)
  refine ⟨ct, hct, ?_⟩
  rw [(htrees i hi).length_table (.of_walk hct), ← hsum]
  simp

end Forest

/-! ### The candidate (44_bitstream_decode.md R207) -/

namespace WalkTable

variable {p : List Bool} {ct : List CodeEntry}

/-- A path has fewer steps than its tree has leaves (43_code_table.md R186). -/
theorem length_code_lt (h : WalkTable arena i p ct) {e : CodeEntry} (he : e ∈ ct) :
    e.code.length < p.length + ct.length := by
  induction h with
  | leaf =>
    obtain rfl := List.mem_singleton.1 he
    simp
  | internal _ hl hr ihl ihr =>
    have := List.length_pos_iff.2 hl.ne_nil
    have := List.length_pos_iff.2 hr.ne_nil
    simp only [List.length_append, List.length_singleton] at ihl ihr ⊢
    obtain he | he := List.mem_append.1 he
    · have := ihl he
      omega
    · have := ihr he
      omega

theorem eq_of_prefix (h : WalkTable arena i p ct) {e e' : CodeEntry} (he : e ∈ ct) (he' : e' ∈ ct)
    (hpre : e.code <+: e'.code) : e = e' := by
  by_contra hne
  have : Std.Symm fun e e' : CodeEntry => ¬ e.code <+: e'.code ∧ ¬ e'.code <+: e.code :=
    ⟨fun _ _ h => h.symm⟩
  exact (h.prefixFree.forall he he' hne).1 hpre

/-- The table of one entry is the empty code (43_code_table.md R184). -/
theorem eq_sole (h : WalkTable arena i [] ct) (hlen : ct.length = 1) : ∃ y, ct = [⟨[], y⟩] := by
  obtain ⟨⟨c, y⟩, rfl⟩ := List.length_eq_one_iff.1 hlen
  have hc : c.length < 1 := by simpa using h.length_code_lt (List.mem_singleton_self _)
  obtain rfl : c = [] := List.length_eq_zero_iff.1 (by omega)
  exact ⟨y, rfl⟩

end WalkTable

/-- The bit-string is a proper prefix of some code. -/
def OpenCode (ct : List CodeEntry) (c : List Bool) : Prop := ∃ e ∈ ct, c <+: e.code ∧ c ≠ e.code

namespace OpenCode

variable {ct : List CodeEntry} {c : List Bool}

/-- In a table of more than one entry the walk has left the root, so no code is empty. -/
theorem nil_of_walkTable (h : WalkTable arena i [] ct) (hlen : ct.length ≠ 1) : OpenCode ct [] := by
  cases h with
  | leaf => exact absurd rfl hlen
  | internal _ hl _ =>
    obtain ⟨e, he⟩ := List.exists_mem_of_ne_nil _ hl.ne_nil
    refine ⟨e, List.mem_append_left _ he, List.nil_prefix, fun hc => ?_⟩
    have hpre := (hl.path_prefix he).length_le
    simp [← hc] at hpre

/-- The empty bit-string is open where any is. -/
theorem nil (h : OpenCode ct c) : OpenCode ct [] := by
  obtain ⟨e, he, hpre, hne⟩ := h
  refine ⟨e, he, List.nil_prefix, fun hc => hne ?_⟩
  rw [← hc] at hpre ⊢
  exact List.prefix_nil.1 hpre

/-- One more bit completes a code or leaves the candidate open: the table is complete and no code
is shorter than an open candidate (43_code_table.md R183, R185). -/
theorem concat (h : OpenCode ct c) (hw : WalkTable arena i [] ct) (b : Bool)
    (hnone : ∀ e ∈ ct, e.code ≠ c ++ [b]) : OpenCode ct (c ++ [b]) := by
  obtain ⟨e, he, hpre, -⟩ | ⟨e, he, -, -, -, hpre, -, hne, -⟩ :=
    hw.complete (b := c ++ [b]) List.nil_prefix
  · obtain ⟨e', he', hpre', hne'⟩ := h
    have hc : e.code <+: c := (List.prefix_concat_iff.1 hpre).resolve_left (hnone e he)
    obtain rfl := hw.eq_of_prefix he he' (hc.trans hpre')
    exact absurd (hpre'.eq_of_length_le hc.length_le) hne'
  · exact ⟨e, he, hpre, hne⟩

theorem length_lt (h : OpenCode ct c) (hw : WalkTable arena i [] ct) : c.length + 1 < ct.length := by
  obtain ⟨e, he, hpre, hne⟩ := h
  have hlt : c.length < e.code.length :=
    lt_of_le_of_ne hpre.length_le fun hc => hne (hpre.eq_of_length hc)
  have := hw.length_code_lt he
  simp only [List.length_nil] at this
  omega

end OpenCode

end Sys2Proof.Machine
end

section
/-! PROOFS. What each phase of a decode finds, kept by every step, so that no reachable state is refused (40_step.md R146; 43_code_table.md R189; 44_bitstream_decode.md R209). -/

namespace Sys2Proof.Machine

variable {s t : State} {i : Instr}

/-! ### The stages of a decode -/

/-- CT is the table of a walk and has an entry for every symbol (43_code_table.md R179, R181). -/
def State.hasTable (s : State) : Prop :=
  ∃ arena r, WalkTable arena r [] s.ct ∧ s.ct.length = s.alpha.toNat

/-- What the operation that PHASE selects finds. -/
inductive DecodeStage (s : State) : Prop where
  /-- No operation that takes anything for granted. -/
  | quiet : s.phase = Phase.idle ∨ s.phase = Phase.decEnd ∨ s.phase = Phase.done ∨
      s.phase = Phase.error → DecodeStage s
  | header : s.phase = Phase.hdrDeclen ∨ s.phase = Phase.hdrReserved ∨ s.phase = Phase.hdrCount ∨
      s.phase = Phase.hdrPair → s.arena = [] → s.heap = [] → s.cand = [] → DecodeStage s
  /-- At least one pair has been entered (42_header.md R164). -/
  | seed : s.phase = Phase.treeSeed → s.arena = [] → s.heap = [] → s.cand = [] →
      1 ≤ s.alpha.toNat → DecodeStage s
  | merge : s.phase = Phase.treeMerge → Forest s.arena s.nextIdx s.heap s.alpha.toNat →
      2 ≤ s.heap.length → s.cand = [] → DecodeStage s
  | build {r : Nat} : s.phase = Phase.codeBuild → s.root = some r →
      Forest s.arena s.nextIdx [r] s.alpha.toNat → s.cand = [] → DecodeStage s
  | trailer : s.phase = Phase.trlPbits ∨ s.phase = Phase.trlPbytes ∨ s.phase = Phase.trlUnpacked ∨
      s.phase = Phase.payload → s.hasTable → s.cand = [] → DecodeStage s
  | single : s.phase = Phase.decSingle → s.hasTable → s.alpha = 1#32 → DecodeStage s
  | bit : s.phase = Phase.decBit → s.hasTable → s.bitReadable s.bitPos.toNat →
      OpenCode s.ct s.cand → DecodeStage s

/-- The operation answers a next state, of some stage. -/
def GoesOn (o : Host.Outcome State Fault Refusal) : Prop := ∃ t, o = .next t ∧ DecodeStage t

theorem DecodeStage.raise (s : State) (e : HbdError) (p : BitVec 5) : DecodeStage (s.raise e p) :=
  .quiet (.inr (.inr (.inr rfl)))

/-- A wire field in front of an operation: without its bytes the decode ends (41_cursor.md R152). -/
theorem goesOn_readU32 {p : BitVec 5} {k : Word → State → Host.Outcome State Fault Refusal}
    (hk : ∀ v pos, GoesOn (k v { s with pos := pos })) : GoesOn ((readU32 s).andThen p k) := by
  obtain ⟨-, he⟩ | ⟨-, he⟩ := readU32_cases s <;> rw [he]
  · exact hk _ _
  · exact ⟨_, rfl, .raise _ _ _⟩

/-! ### The header -/

/-- After an entry FMAP has a symbol. -/
theorem alpha_pos_of_fmapInsert {y c : Word} (hi : s.alphabetInv)
    (h : fmapInsert y c s = .ok () t) : 1 ≤ t.alpha.toNat := by
  obtain ⟨-, -, halpha, -⟩ := fmapInsert_keeps_alphabetInv hi h
  have hne : t.fmap ≠ [] := by
    obtain ⟨-, he⟩ | ⟨-, -, he⟩ | ⟨-, -, he⟩ := fmapInsert_cases y c s <;> cases he.symm.trans h <;>
      exact Sorted.put_ne_nil _ _ _
  rw [halpha]
  exact List.length_pos_iff.2 hne

theorem goesOn_hdrPair (hi : s.alphabetInv) (hp : s.phase = Phase.hdrPair) (harena : s.arena = [])
    (hheap : s.heap = []) (hcand : s.cand = []) : GoesOn (exec .hdrPair s) := by
  refine goesOn_readU32 fun c pos => goesOn_readU32 fun y pos' => ?_
  have entered {v : State} (hv : fmapInsert y c { s with pos := pos' } = .ok () v) :
      DecodeStage (afterPair v) := by
    have hpos := alpha_pos_of_fmapInsert (s := { s with pos := pos' }) hi hv
    have hframe := fmapInsert_frame hv
    obtain ⟨n, phase, he, ⟨rfl, -⟩ | ⟨rfl, -⟩⟩ := afterPair_eq v <;> rw [he]
    · rw [hframe]
      exact .seed rfl harena hheap hcand hpos
    · rw [hframe]
      exact .header (.inr (.inr (.inr hp))) harena hheap hcand
  obtain ⟨-, he⟩ | ⟨-, -, he⟩ | ⟨-, -, he⟩ := fmapInsert_cases y c { s with pos := pos' } <;> rw [he]
  · exact ⟨_, rfl, entered he⟩
  · exact ⟨_, rfl, .raise _ _ _⟩
  · exact ⟨_, rfl, entered he⟩

/-! ### The tree and the table -/

theorem goesOn_treeSeed (hi : s.alphabetInv) (harena : s.arena = []) (hheap : s.heap = [])
    (hcand : s.cand = []) (hpos : 1 ≤ s.alpha.toNat) : GoesOn (exec .treeSeed s) := by
  obtain ⟨-, -, halpha, hmax⟩ := hi
  obtain ⟨root, phase, he, hnext⟩ := exec_treeSeed_eq harena hheap (halpha ▸ hmax)
  have hforest := Forest.seed s.seedEntries
  rw [State.seedEntries_length] at hforest
  refine ⟨_, he, ?_⟩
  obtain ⟨hone, rfl, rfl⟩ | ⟨hne, rfl, rfl⟩ := hnext
  · exact .build rfl rfl (by simpa [State.seeded, hone] using hforest) hcand
  · have htwo : 2 ≤ (List.range s.alpha.toNat).length := by
      rw [List.length_range]
      omega
    exact .merge rfl hforest htwo hcand

theorem goesOn_treeMerge (hi : s.alphabetInv) (hp : s.phase = Phase.treeMerge)
    (hforest : Forest s.arena s.nextIdx s.heap s.alpha.toNat) (htwo : 2 ≤ s.heap.length)
    (hcand : s.cand = []) : GoesOn (exec .treeMerge s) := by
  obtain ⟨⟨-, -, -, hnominal⟩, -, halpha, hmax⟩ := hi
  have hheap := hforest.length_heap_le
  have hslots := hforest.slots
  obtain ⟨t, ht⟩ := exec_treeMerge_total hforest.wf htwo (by omega) hforest.nextIdx_not_mem (by omega)
  obtain ⟨a, b, rest, hperm, -, -, hframe, hperm', hwf, hnext⟩ :=
    exec_treeMerge_perm hforest.wf hforest.nextIdx_not_mem ht
  have hforest' := hforest.merge (by omega) hperm hperm' hwf
  have hlen := hperm'.length_eq
  rw [List.length_cons] at hlen
  refine ⟨t, ht, ?_⟩
  obtain ⟨hone, hroot, hphase⟩ | ⟨hne, -, hphase⟩ := hnext
  · obtain ⟨r, hr⟩ := List.length_eq_one_iff.1 hone
    have hmem := hperm'.mem_iff.2 List.mem_cons_self
    rw [hr, List.mem_singleton] at hmem
    rw [hr] at hforest'
    exact .build hphase (hmem ▸ hroot) (by rw [hframe]; exact hforest') (by rw [hframe]; exact hcand)
  · refine .merge (hphase.trans hp) ?_ (by omega) ?_
    · rw [hframe]; exact hforest'
    · rw [hframe]; exact hcand

theorem goesOn_codeBuild {r : Nat} (hroot : s.root = some r)
    (hforest : Forest s.arena s.nextIdx [r] s.alpha.toNat) (hcand : s.cand = []) :
    GoesOn (exec .codeBuild s) := by
  obtain ⟨ct, hct, hlen⟩ := hforest.codesOf_root
  exact ⟨_, exec_codeBuild_of_codesOf (hroot ▸ hct),
    .trailer (.inl rfl) ⟨s.arena, r, .of_walk hct, hlen⟩ hcand⟩

/-! ### The payload -/

theorem exec_payload_total (s : State) : ∃ t, exec .payload s = .next t := by
  change ∃ t, execPayload s = .next t
  unfold execPayload
  obtain ⟨-, he⟩ | ⟨-, he⟩ := readBytes_cases s.pBytes.toNat s <;> rw [he]
  · rw [Act.andThen_ok]
    dsimp only
    split_ifs <;> exact ⟨_, rfl⟩
  · exact ⟨_, rfl⟩

theorem goesOn_payload (hi : s.progressInv) (hp : s.phase = Phase.payload) (htable : s.hasTable)
    (hcand : s.cand = []) : GoesOn (exec .payload s) := by
  obtain ⟨t, ht⟩ := exec_payload_total s
  refine ⟨t, ht, ?_⟩
  obtain ⟨hzero, -⟩ := hi.fresh hp (by decide)
  obtain ⟨hle, rfl⟩ | ⟨-, rfl⟩ := exec_payload_next ht
  · obtain ⟨-, -, he⟩ | ⟨hone, -, he⟩ | ⟨-, -, he⟩ | ⟨-, -, -, he⟩ | ⟨hne, hbytes, hbits, he⟩ :=
      payloadNext_cases { s with
        pos := BitVec.ofNat 32 (s.pos.toNat + s.pBytes.toNat), payBase := s.pos } <;> rw [he]
    · exact .quiet (.inr (.inr (.inl rfl)))
    · exact .single rfl htable hone
    · exact .raise _ _ _
    · exact .quiet (.inr (.inl rfl))
    · have hopen : OpenCode s.ct s.cand := by
        obtain ⟨arena, r, hw, hlen⟩ := htable
        rw [hcand]
        exact .nil_of_walkTable hw fun hc => hne (BitVec.eq_of_toNat_eq (hlen.symm.trans hc))
      have hfirst : s.bitPos.toNat < s.pBits.toNat := by
        rw [hzero]
        exact BitVec.toNat_pos_of_ne_zero hbits
      exact .bit rfl htable ⟨hfirst, hbytes, hle⟩ hopen
  · exact .raise _ _ _

theorem exec_decSingle_total (s : State) : ∃ t, exec .decSingle s = .next t := by
  change ∃ t, execDecSingle s = .next t
  unfold execDecSingle
  obtain ⟨-, he⟩ | ⟨-, he⟩ := emit_cases (soleSymbol s.ct) s <;> rw [he]
  · exact ⟨_, rfl⟩
  · rw [Act.andThen_ok]
    split_ifs <;> exact ⟨_, rfl⟩

theorem goesOn_decSingle (hp : s.phase = Phase.decSingle) (htable : s.hasTable)
    (hone : s.alpha = 1#32) : GoesOn (exec .decSingle s) := by
  obtain ⟨t, ht⟩ := exec_decSingle_total s
  refine ⟨t, ht, ?_⟩
  obtain ⟨-, rfl⟩ | ⟨-, rfl⟩ := exec_decSingle_next ht
  · by_cases hlast : s.ocnt + 1 = s.unpacked.toNat
    · exact .quiet (.inr (.inr (.inl (if_pos hlast))))
    · exact .single ((if_neg hlast).trans hp) htable hone
  · exact .raise _ _ _

theorem ctLookup_andThen_next {c : List Bool} {p : BitVec 5}
    {k : Option Word → State → Host.Outcome State Fault Refusal}
    (huniq : ∀ e ∈ s.ct, ∀ e' ∈ s.ct, e.code = e'.code → e = e')
    (hk : ∀ m, ∃ t, k m s = .next t) : ∃ t, (ctLookup c s).andThen p k = .next t := by
  obtain ⟨-, he⟩ | ⟨y, -, -, he⟩ | ⟨⟨e, he, e', he', hc, hc', hne⟩, -⟩ := ctLookup_cases c s
  · rw [he]; exact hk none
  · rw [he]; exact hk (some y)
  · exact absurd (congrArg CodeEntry.symbol (huniq e he e' he' (hc.trans hc'.symm))) hne

theorem emitMatch_andThen_next {m : Option Word} {p : BitVec 5}
    {k : Unit → State → Host.Outcome State Fault Refusal}
    (hk : ∀ u, ∃ t, k () u = .next t) : ∃ t, (emitMatch m s).andThen p k = .next t := by
  cases m with
  | none => exact hk s
  | some y =>
    rw [emitMatch]
    obtain ⟨-, he⟩ | ⟨-, he⟩ := emit_cases y s <;> rw [he]
    · exact ⟨_, rfl⟩
    · exact hk _

/-- DEC_BIT runs where the bit is there, the candidate has room and no code stands for two symbols
(43_code_table.md R189). -/
theorem exec_decBit_total (hread : s.bitReadable s.bitPos.toNat) (hlen : s.cand.length < s.cfg.lMax)
    (huniq : ∀ e ∈ s.ct, ∀ e' ∈ s.ct, e.code = e'.code → e = e') :
    ∃ t, exec .decBit s = .next t := by
  change ∃ t, execDecBit s = .next t
  unfold execDecBit
  rw [bitRead_ok hread, Act.andThen_ok]
  dsimp only
  rw [if_neg (by simpa using hlen)]
  refine ctLookup_andThen_next huniq fun m => emitMatch_andThen_next fun u => ?_
  split_ifs <;> exact ⟨_, rfl⟩

theorem goesOn_decBit (hi : s.alphabetInv) (hp : s.phase = Phase.decBit) (htable : s.hasTable)
    (hread : s.bitReadable s.bitPos.toNat) (hopen : OpenCode s.ct s.cand) :
    GoesOn (exec .decBit s) := by
  have ⟨_, _, hw, hlen⟩ := htable
  obtain ⟨-, -, halpha, hmax⟩ := hi
  have hroom : s.cand.length < s.cfg.lMax := by
    have := hopen.length_lt hw
    unfold Params.lMax
    omega
  obtain ⟨t, ht⟩ := exec_decBit_total hread hroom
    fun e he e' he' hc => hw.eq_of_prefix he he' (hc ▸ List.prefix_rfl)
  refine ⟨t, ht, ?_⟩
  obtain ⟨-, -, u, rfl, hc⟩ := exec_decBit_next ht
  have hsucc := toNat_bitPos_succ hread
  by_cases hlast : s.bitPos + 1#32 = s.pBits
  · obtain ⟨-, rfl⟩ | ⟨y, -, -, rfl⟩ | ⟨-, -, rfl⟩ := hc
    · exact .quiet (.inr (.inl (if_pos hlast)))
    · exact .quiet (.inr (.inl (if_pos hlast)))
    · exact .raise _ _ _
  · have hread' : ({ s with bitPos := s.bitPos + 1#32 } : State).bitReadable
        (s.bitPos + 1#32).toNat := by
      obtain ⟨hlt, hbits, hbytes⟩ := hread
      exact ⟨lt_of_le_of_ne (hsucc ▸ hlt) fun hc => hlast (BitVec.eq_of_toNat_eq hc), hbits, hbytes⟩
    obtain ⟨hnone, rfl⟩ | ⟨y, -, -, rfl⟩ | ⟨-, -, rfl⟩ := hc
    · exact .bit ((if_neg hlast).trans hp) htable hread' (hopen.concat hw _ hnone)
    · exact .bit ((if_neg hlast).trans hp) htable hread' hopen.nil
    · exact .raise _ _ _

theorem goesOn_decEnd (s : State) : GoesOn (exec .decEnd s) := by
  change GoesOn (execDecEnd s)
  unfold execDecEnd
  split_ifs
  · exact ⟨_, rfl, .raise _ _ _⟩
  · exact ⟨_, rfl, .quiet (.inr (.inr (.inl rfl)))⟩

/-! ### Every step -/

namespace DecodeStage

/-- The operation that PHASE selects goes on, stage by stage (40_step.md R146). -/
theorem goesOn (ha : s.alphabetInv) (hp : s.progressInv) (hs : DecodeStage s)
    (hd : decodePhase s.phase = .ok i) : GoesOn (exec i s) := by
  cases hs with
  | quiet hq =>
    obtain hq | hq | hq | hq := hq <;> cases (hq ▸ hd : decodePhase _ = _)
    · exact ⟨s, rfl, .quiet (.inl hq)⟩
    · exact goesOn_decEnd s
    · exact ⟨s, rfl, .quiet (.inr (.inr (.inl hq)))⟩
    · exact ⟨s, rfl, .quiet (.inr (.inr (.inr hq)))⟩
  | header hq harena hheap hcand =>
    obtain hq | hq | hq | hq := hq <;> cases (hq ▸ hd : decodePhase _ = _)
    · exact goesOn_readU32 fun v pos => ⟨_, rfl, .header (.inr (.inl rfl)) harena hheap hcand⟩
    · refine goesOn_readU32 fun v pos => ?_
      split_ifs
      · exact ⟨_, rfl, .raise _ _ _⟩
      · exact ⟨_, rfl, .header (.inr (.inr (.inl rfl))) harena hheap hcand⟩
    · refine goesOn_readU32 fun v pos => ?_
      split_ifs
      · exact ⟨_, rfl, .raise _ _ _⟩
      · exact ⟨_, rfl, .header (.inr (.inr (.inr rfl))) harena hheap hcand⟩
    · exact goesOn_hdrPair ha hq harena hheap hcand
  | seed hq harena hheap hcand hpos =>
    cases (hq ▸ hd : decodePhase _ = _)
    exact goesOn_treeSeed ha harena hheap hcand hpos
  | merge hq hforest htwo hcand =>
    cases (hq ▸ hd : decodePhase _ = _)
    exact goesOn_treeMerge ha hq hforest htwo hcand
  | build hq hroot hforest hcand =>
    cases (hq ▸ hd : decodePhase _ = _)
    exact goesOn_codeBuild hroot hforest hcand
  | trailer hq htable hcand =>
    obtain hq | hq | hq | hq := hq <;> cases (hq ▸ hd : decodePhase _ = _)
    · exact goesOn_readU32 fun v pos => ⟨_, rfl, .trailer (.inr (.inl rfl)) htable hcand⟩
    · exact goesOn_readU32 fun v pos => ⟨_, rfl, .trailer (.inr (.inr (.inl rfl))) htable hcand⟩
    · exact goesOn_readU32 fun v pos => ⟨_, rfl, .trailer (.inr (.inr (.inr rfl))) htable hcand⟩
    · exact goesOn_payload hp hq htable hcand
  | single hq htable hone =>
    cases (hq ▸ hd : decodePhase _ = _)
    exact goesOn_decSingle hq htable hone
  | bit hq htable hread hopen =>
    cases (hq ▸ hd : decodePhase _ = _)
    exact goesOn_decBit ha hq htable hread hopen

/-! What three of the phases find, where the others are excluded by PHASE. -/

theorem forest (hs : DecodeStage s) (hp : s.phase = Phase.treeMerge) :
    Forest s.arena s.nextIdx s.heap s.alpha.toNat := by
  cases hs with
  | merge _ hforest => exact hforest
  | _ hq => exact absurd (hp ▸ hq) (by decide)

theorem codesOf_isSome (hs : DecodeStage s) (hp : s.phase = Phase.codeBuild) :
    (codesOf s.root s.arena).isSome = true := by
  cases hs with
  | build _ hroot hforest =>
    obtain ⟨ct, hct, -⟩ := hforest.codesOf_root
    rw [hroot, hct]
    rfl
  | _ hq => exact absurd (hp ▸ hq) (by decide)

theorem sole (hs : DecodeStage s) (hp : s.phase = Phase.decSingle) : ∃ y, s.ct = [⟨[], y⟩] := by
  cases hs with
  | single _ htable hone =>
    obtain ⟨arena, r, hw, hlen⟩ := htable
    exact hw.eq_sole (by rw [hlen, hone]; rfl)
  | _ hq => exact absurd (hp ▸ hq) (by decide)

/-- What a host access without a command writes, and the RST level, enter no stage; IN_LEN is left
out, which a busy block does not take (10_state.md R35). -/
theorem of_host (hs : DecodeStage s) (be bitord ie rst : Bool) (inMem : List Host.Cell)
    (rdData : Word) (turns : List Turn) :
    DecodeStage { s with
      be := be, bitord := bitord, ie := ie, rst := rst, inMem := inMem, rdData := rdData,
      turns := turns } := by
  cases hs with
  | quiet hq => exact .quiet hq
  | header hq harena hheap hcand => exact .header hq harena hheap hcand
  | seed hq harena hheap hcand hpos => exact .seed hq harena hheap hcand hpos
  | merge hq hforest htwo hcand => exact .merge hq hforest htwo hcand
  | build hq hroot hforest hcand => exact .build hq hroot hforest hcand
  | trailer hq htable hcand => exact .trailer hq htable hcand
  | single hq htable hone => exact .single hq htable hone
  | bit hq htable hread hopen => exact .bit hq htable hread hopen

theorem of_idle (hb : s.busy = false) : DecodeStage s :=
  .quiet ((State.busy_eq_false_iff.1 hb).imp_right .inr)

theorem of_turns (hs : DecodeStage s) (ts : List Turn) : DecodeStage { s with turns := ts } :=
  hs.of_host s.be s.bitord s.ie s.rst s.inMem s.rdData ts

theorem of_respond (hs : DecodeStage s) (v : Word) : DecodeStage (s.respond v) :=
  hs.of_host s.be s.bitord s.ie s.rst s.inMem v s.turns

theorem of_setRst (hs : DecodeStage s) (level : Bool) : DecodeStage (s.setRst level) := by
  cases level with
  | false => exact hs.of_host s.be s.bitord s.ie false s.inMem s.rdData s.turns
  | true => exact .quiet (.inl rfl)

theorem of_hostOp {a : BusAccess} (hs : DecodeStage s) (hd : decodeAccess a = .ok i)
    (h : exec i s = .next t) : DecodeStage t := by
  obtain ⟨v, rfl⟩ | rfl | ⟨-, -, rfl⟩ | ⟨-, rfl⟩ | ⟨v, rfl⟩ | ⟨v, -, rfl⟩ | ⟨-, b, v, -, rfl⟩ |
    ⟨-, b, v, -, rfl⟩ := host_next hd h
  · exact hs.of_respond v
  · exact hs
  · exact .header (.inl rfl) rfl rfl rfl
  · exact .quiet (.inl rfl)
  · obtain ⟨be, bitord, ie, he⟩ := s.writeCtrl_eq v
    rw [he]
    exact hs.of_host be bitord ie s.rst s.inMem s.rdData s.turns
  · obtain he | ⟨hb, -, he⟩ := s.writeInLen_cases v <;> rw [he]
    · exact hs
    · exact of_idle hb
  · exact hs.of_host s.be s.bitord s.ie s.rst _ s.rdData s.turns
  · rw [State.putInWord_eq]
    exact hs.of_host s.be s.bitord s.ie s.rst _ s.rdData s.turns

theorem of_step (ha : s.alphabetInv) (hp : s.progressInv) (hs : DecodeStage s)
    (h : step s = .next t) : DecodeStage t := by
  obtain ⟨-, ts, u, rfl, hc⟩ := step_next h
  have hu := hs.of_turns ts
  obtain ⟨-, -, rfl⟩ | ⟨-, -, i, hd, he⟩ | ⟨-, a, i, -, hd, he⟩ | ⟨a, -, rfl⟩ | ⟨level, -, rfl⟩ := hc
  · exact hu
  · obtain ⟨t', ht', hstage⟩ := hu.goesOn (s := { s with turns := ts }) ha hp hd
    cases ht'.symm.trans he
    exact hstage
  · exact hu.of_hostOp hd he
  · cases a.dir
    · exact hu.of_respond 0#32
    · exact hu
  · exact hu.of_setRst level

end DecodeStage

/-! ### Every reachable state -/

/-- What holds of every reachable state. -/
structure SoundDecode (s : State) : Prop where
  control : s.controlInv
  alphabet : s.alphabetInv
  progress : s.progressInv
  stage : DecodeStage s

theorem SoundDecode.of_reachable (h : Reachable s) : SoundDecode s := by
  induction h with
  | reset p n d ts hp =>
    exact ⟨State.controlInv_of_noError (Nat.zero_le _) rfl rfl, ⟨hp, rfl, rfl, Nat.zero_le _⟩,
      State.progressInv_of_fresh rfl rfl nofun nofun, .quiet (.inl rfl)⟩
  | step s t _ hstep ih =>
    exact ⟨stepsKeepTheControlInvariant s t ih.control hstep,
      stepsKeepTheAlphabetInvariant s t ih.alphabet hstep,
      stepsKeepTheProgressInvariant s t ih.progress hstep,
      ih.stage.of_step ih.alphabet ih.progress hstep⟩

theorem decodePhase_legal {p : BitVec 5} (h : p.toNat ≤ 0x10) : ∃ i, decodePhase p = .ok i := by
  have hall : ∀ q : BitVec 5, q.toNat ≤ 0x10 → (decodePhase q).isOk = true := by decide
  have hp := hall p h
  cases hd : decodePhase p with
  | ok i => exact ⟨i, rfl⟩
  | error e => rw [hd] at hp; cases hp

/-- A host operation always answers a next state (45_host_commands.md R230–R240). -/
theorem hostTurn_total (a : BusAccess) (s : State) : ∃ t, hostTurn a s = .next t := by
  unfold hostTurn
  split_ifs
  · exact ⟨_, rfl⟩
  · split
    · next i hd =>
      obtain rfl | rfl | ⟨r, rfl⟩ | ⟨r, v, rfl, -⟩ | ⟨b, rfl⟩ | ⟨b, rfl⟩ | ⟨b, v, rfl⟩ |
        ⟨b, v, rfl⟩ | ⟨j, rfl⟩ := decodeAccess_ok hd <;> exact ⟨_, rfl⟩
    · exact ⟨_, rfl⟩

namespace SoundDecode

theorem of_turns (h : SoundDecode s) (ts : List Turn) : SoundDecode { s with turns := ts } :=
  ⟨h.control, h.alphabet, h.progress, h.stage.of_turns ts⟩

theorem engineTurn_total (h : SoundDecode s) : ∃ t, engineTurn s = .next t := by
  cases hrst : s.rst with
  | true => exact ⟨s, if_pos hrst⟩
  | false =>
    obtain ⟨i, hd⟩ := decodePhase_legal h.control.1.1
    obtain ⟨t, ht, -⟩ := h.stage.goesOn h.alphabet h.progress hd
    exact ⟨t, (engineTurn_of_phase hrst hd).trans ht⟩

theorem step_total (h : SoundDecode s) : ∃ t, step s = .next t := by
  cases hts : s.turns with
  | nil =>
    rw [step_of_noTurns h.control.1 hts]
    exact h.engineTurn_total
  | cons turn ts =>
    rw [step_of_turn h.control.1 hts]
    cases turn with
    | engine => exact (h.of_turns ts).engineTurn_total
    | host a => exact hostTurn_total a _
    | rst level => exact ⟨_, rfl⟩

/-- Each operation finds what its rule takes for granted (log 11). -/
theorem needsNoFreeValue (h : SoundDecode s) : s.needsNoFreeValue := by
  obtain ⟨⟨-, -, -, hnominal⟩, -, halpha, hmax⟩ := h.alphabet
  obtain ⟨-, -, -, hpairs, -⟩ := h.progress
  refine ⟨fun hp => ⟨hpairs hp, by omega⟩, fun _ => halpha, fun hp => ?merge,
    h.stage.codesOf_isSome, h.stage.sole⟩
  have hforest := h.stage.forest hp
  refine ⟨fun i hi => hforest.filled hi, fun i hi j hj hij => ?_⟩
  obtain ⟨rest, hperm⟩ := exists_perm_cons_cons hi hj hij
  exact hforest.freq_fits (by omega) hperm

end SoundDecode

/-- Settles O58: every stage of a decode leads to one of the next, and a host access and RST always
answer. -/
theorem reachableStatesAreNeverRefused : Obligations.ReachableStatesAreNeverRefused := by
  intro s hs
  have hsound := SoundDecode.of_reachable hs
  obtain ⟨t, ht⟩ := hsound.step_total
  exact ⟨fun _ hr => (nomatch ht.symm.trans hr), hsound.needsNoFreeValue⟩

end Sys2Proof.Machine
end

section
/-! PROOFS. The trailer, the payload and the decoding phases: each operation, outcome by outcome (44_bitstream_decode.md R200–R208). -/

namespace Sys2Proof.Machine

variable {s : State}

/-! ### The trailer (44_bitstream_decode.md R202, R203, R204) -/

/-- Settles O42: the field is there or it is not, and any value of it is taken. -/
theorem trailerReads : Obligations.TrailerReads := by
  refine ⟨decodePhase_of_mem (by decide), decodePhase_of_mem (by decide),
    decodePhase_of_mem (by decide), fun s => ⟨fun hle => ?fields, fun hlt => ?short⟩⟩
  case fields =>
    refine ⟨?_, ?_, ?_⟩ <;> exact ⟨_, readU32_andThen_ok hle, rfl, toNat_advance hle⟩
  case short =>
    exact ⟨readU32_andThen_short hlt, readU32_andThen_short hlt, readU32_andThen_short hlt⟩

/-! ### The payload (44_bitstream_decode.md R205) -/

/-- The state with the payload bound: PAYBASE at its first byte, POS past its last. -/
def State.withPayload (s : State) : State :=
  { s with pos := BitVec.ofNat 32 (s.pos.toNat + s.pBytes.toNat), payBase := s.pos }

theorem exec_payload_fits (hle : s.pos.toNat + s.pBytes.toNat ≤ s.inLen.toNat) :
    exec .payload s = .next (payloadNext s.withPayload) := by
  obtain ⟨t, ht⟩ := exec_payload_total s
  obtain ⟨-, rfl⟩ | ⟨hlt, -⟩ := exec_payload_next ht
  · exact ht
  · omega

theorem exec_payload_short (hlt : s.inLen.toNat < s.pos.toNat + s.pBytes.toNat) :
    exec .payload s = .next (s.raise .outOfData Phase.payload) := by
  obtain ⟨t, ht⟩ := exec_payload_total s
  obtain ⟨hle, -⟩ | ⟨-, rfl⟩ := exec_payload_next ht
  · omega
  · exact ht

theorem payloadNext_single (hone : s.alpha = 1#32) :
    payloadNext s =
      { s with phase := if s.unpacked = 0#32 then Phase.done else Phase.decSingle } := by
  rw [payloadNext, if_pos hone]
  split_ifs <;> rfl

theorem payloadNext_overlong (hne : s.alpha ≠ 1#32) (hbits : 8 * s.pBytes.toNat < s.pBits.toNat) :
    payloadNext s = s.raise .outOfData Phase.payload := by
  rw [payloadNext, if_neg hne, if_pos hbits]

theorem payloadNext_multi (hne : s.alpha ≠ 1#32) (hbits : s.pBits.toNat ≤ 8 * s.pBytes.toNat) :
    payloadNext s = { s with phase := if s.pBits = 0#32 then Phase.decEnd else Phase.decBit } := by
  rw [payloadNext, if_neg hne, if_neg (not_lt.2 hbits)]
  split_ifs <;> rfl

/-- Settles O43: the payload is bound or it is not; once bound, ALPHA and PBITS choose what follows. -/
theorem payloadChoosesTheMode : Obligations.PayloadChoosesTheMode := by
  refine ⟨decodePhase_of_mem (by decide), fun s => ⟨exec_payload_short, fun hle => ?fits⟩⟩
  case fits =>
    refine ⟨_, exec_payload_fits hle, ?pos, fun hone => ?single, fun hne hbits => ?overlong,
      fun hne hbits => ?multi⟩
    case pos => rw [payloadNext_pos]; exact toNat_advance hle
    case single => rw [payloadNext_single (s := s.withPayload) hone]; rfl
    case overlong => rw [payloadNext_overlong (s := s.withPayload) hne hbits]; rfl
    case multi => rw [payloadNext_multi (s := s.withPayload) hne hbits]; rfl

/-! ### The code table and the output (44_bitstream_decode.md R200, R201) -/

theorem ctLookup_ambiguous {c : List Bool} {y z : Word} (hy : ⟨c, y⟩ ∈ s.ct) (hz : ⟨c, z⟩ ∈ s.ct)
    (hne : y ≠ z) : ctLookup c s = .refused .ambiguousMatch := by
  obtain ⟨hnone, -⟩ | ⟨w, -, huniq, -⟩ | ⟨-, he⟩ := ctLookup_cases c s
  · exact absurd rfl (hnone _ hy)
  · exact absurd ((huniq _ hy rfl).trans (huniq _ hz rfl).symm) hne
  · exact he

/-- Settles O44: no entry with the code, one symbol for it, or two. -/
theorem ctLookupMatchesExactly : Obligations.CtLookupMatchesExactly :=
  fun _ _ _ => ⟨ctLookup_none, ctLookup_some, fun _ => ctLookup_ambiguous⟩

theorem emit_room {y : Word} (hroom : s.ocnt ≠ s.cfg.outSize) :
    emit y s = .ok () { s.memWriteOut s.ocnt y with ocnt := s.ocnt + 1 } :=
  if_neg hroom

theorem emit_full {y : Word} (hfull : s.ocnt = s.cfg.outSize) :
    emit y s = .raised .outputOverflow s :=
  if_pos hfull

theorem emitMatch_room {y : Word} (hroom : s.ocnt ≠ s.cfg.outSize) :
    emitMatch (some y) s =
      .ok () { s.memWriteOut s.ocnt y with ocnt := s.ocnt + 1, cand := [] } := by
  rw [emitMatch, emit_room hroom, Act.bind_ok]

theorem emitMatch_full {y : Word} (hfull : s.ocnt = s.cfg.outSize) :
    emitMatch (some y) s = .raised .outputOverflow s := by
  rw [emitMatch, emit_full hfull, Act.bind]

/-- A write to OUT, word by word: the one written and every other. -/
theorem outWord_memWriteOut_frame (s : State) (i : Nat) (y : Word) :
    (s.memWriteOut i y).outWord i = y ∧
      ∀ j, j ≠ i → (s.memWriteOut i y).outWord j = s.outWord j := by
  refine ⟨?_, fun j hj => ?_⟩
  · rw [State.outWord_memWriteOut, if_pos rfl]
  · rw [State.outWord_memWriteOut, if_neg hj]

/-! ### DEC_SINGLE and DEC_BIT (44_bitstream_decode.md R206, R207) -/

/-- Going on to phase `q` under a condition, and staying otherwise, writes PHASE at most. -/
theorem next_phase_ite (s : State) (q : BitVec 5) (p : Prop) [Decidable p] :
    (if p then .next { s with phase := q } else .next s : Host.Outcome State Fault Refusal) =
      .next { s with phase := if p then q else s.phase } := by
  split_ifs <;> rfl

/-- With a sole entry in CT, DEC_SINGLE is the emission of its symbol. -/
theorem exec_decSingle_of_sole {y : Word} (hct : s.ct = [⟨[], y⟩]) :
    exec .decSingle s = (emit y s).andThen Phase.decSingle fun _ u =>
      .next { u with phase := if u.ocnt = u.unpacked.toNat then Phase.done else u.phase } := by
  change execDecSingle s = _
  rw [execDecSingle, hct, soleSymbol_sole]
  simp only [next_phase_ite]

/-- Settles O45: with room the sole symbol goes to OUT[OCNT], without it the emission raises. -/
theorem decSingleEmitsACopy : Obligations.DecSingleEmitsACopy := by
  refine ⟨decodePhase_of_mem (by decide), fun s y hct => ⟨fun hroom => ?room, fun hfull => ?full⟩⟩
  case room =>
    rw [exec_decSingle_of_sole hct, emit_room hroom, Act.andThen_ok]
    exact ⟨_, rfl, rfl, outWord_memWriteOut_frame s s.ocnt y⟩
  case full =>
    rw [exec_decSingle_of_sole hct, emit_full hfull]
    rfl

/-- The state with the next payload bit moved to the candidate (44_bitstream_decode.md R207). -/
def State.bitTaken (s : State) : State :=
  { s with bitPos := s.bitPos + 1#32, cand := s.cand ++ [s.payloadBit s.bitPos.toNat] }

/-- The end of DEC_BIT: DEC_END follows the last bit (44_bitstream_decode.md R207). -/
def State.afterBit (s : State) : State :=
  { s with phase := if s.bitPos = s.pBits then Phase.decEnd else s.phase }

/-- With a bit to read and room for it, DEC_BIT is the lookup of the grown candidate. -/
theorem exec_decBit_of_readable (hread : s.bitReadable s.bitPos.toNat)
    (hlen : s.cand.length < s.cfg.lMax) :
    exec .decBit s = (ctLookup s.bitTaken.cand s.bitTaken).andThen Phase.decBit fun m u =>
      (emitMatch m u).andThen Phase.decBit fun _ v => .next v.afterBit := by
  change execDecBit s = _
  rw [execDecBit, bitRead_ok hread, Act.andThen_ok]
  simp only [next_phase_ite]
  exact if_neg (by simpa using hlen)

/-- On a code DEC_BIT is the emission of its symbol. -/
theorem exec_decBit_of_code {y : Word} (hread : s.bitReadable s.bitPos.toNat)
    (hlen : s.cand.length < s.cfg.lMax) (hy : ⟨s.bitTaken.cand, y⟩ ∈ s.ct)
    (huniq : ∀ e ∈ s.ct, e.code = s.bitTaken.cand → e.symbol = y) :
    exec .decBit s =
      (emitMatch (some y) s.bitTaken).andThen Phase.decBit fun _ v => .next v.afterBit := by
  rw [exec_decBit_of_readable hread hlen, ctLookup_some (s := s.bitTaken) hy huniq, Act.andThen_ok]

/-- Settles O46: the bit is taken first; then the grown candidate is no code, or it is one and the
emission has room, or OUT is full and the emission raises in the state with the bit taken. -/
theorem decBitConsumesABit : Obligations.DecBitConsumesABit := by
  refine ⟨decodePhase_of_mem (by decide), ?_⟩
  rintro s _ y hread hlen rfl
  refine ⟨fun hnone => ?noCode, fun hy huniq hroom => ?emitted, fun hy huniq hfull => ?full⟩
  case noCode =>
    rw [exec_decBit_of_readable hread hlen,
      ctLookup_none (s := s.bitTaken) (c := s.bitTaken.cand) hnone]
    rfl
  case emitted =>
    rw [exec_decBit_of_code hread hlen hy huniq, emitMatch_room (s := s.bitTaken) hroom,
      Act.andThen_ok]
    exact ⟨_, rfl, rfl, outWord_memWriteOut_frame s s.ocnt y⟩
  case full =>
    rw [exec_decBit_of_code hread hlen hy huniq, emitMatch_full (s := s.bitTaken) hfull]
    rfl

/-! ### DEC_END (44_bitstream_decode.md R208) -/

/-- Settles O47: the length of the candidate decides. -/
theorem decEndChecksTheCandidate : Obligations.DecEndChecksTheCandidate := by
  refine ⟨decodePhase_of_mem (by decide), fun s => ⟨fun hnil => ?empty, fun hne => ?leftover⟩⟩
  case empty => exact if_neg (by simp [hnil])
  case leftover => exact if_pos (by simpa using hne)

end Sys2Proof.Machine
end

section
/-! PROOFS. The commands on the host bus, and the step that follows one (45_host_commands.md R230, R231, R233; 40_step.md R142). -/

namespace Sys2Proof.Machine

variable {s t : State} {i : Instr} {ts : List Turn}

/-! ### START and CLEAR (45_host_commands.md R230, R231) -/

/-- START is accepted from IDLE, DONE and ERROR. -/
theorem exec_start_of_notBusy (hb : s.busy = false) :
    exec .start s = .next (s.restart Phase.hdrDeclen) :=
  congrArg Host.Outcome.next (if_neg (by simp [hb]))

theorem exec_start_of_busy (hb : s.busy = true) : exec .start s = .next s :=
  congrArg Host.Outcome.next (if_pos hb)

/-- A restart is the reset state but for CTRL, IN_LEN, IN, OUT, PHASE and the model's own fields. -/
theorem State.restart_eq (s : State) (p : BitVec 5) :
    s.restart p = { State.resetWith s.cfg s.inst s.draws with
      be := s.be, bitord := s.bitord, ie := s.ie, inLen := s.inLen, inMem := s.inMem,
      outMem := s.outMem, rst := s.rst, rdData := s.rdData, turns := s.turns, phase := p } := rfl

/-- IRQ can be 1 in DONE and ERROR alone (10_state.md R31). -/
theorem State.irq_restart (s : State) {p : BitVec 5} (hdone : p ≠ Phase.done)
    (herror : p ≠ Phase.error) : (s.restart p).irq = false := by
  rw [State.irq_eq, decide_eq_false_iff_not]
  exact fun hirq => hirq.2.elim hdone herror

/-- Settles O22: START restarts the block in HDR_DECLEN, a busy phase in which IRQ is 0. -/
theorem startBeginsADecode : Obligations.StartBeginsADecode := by
  refine ⟨rfl, rfl, fun s => ⟨fun hb => ?accepted, exec_start_of_busy⟩⟩
  case accepted =>
    exact ⟨_, exec_start_of_notBusy hb, s.restart_eq Phase.hdrDeclen, rfl,
      s.irq_restart (by decide) (by decide)⟩

/-- Settles O23: CLEAR restarts the block in IDLE, where neither BUSY nor IRQ is 1. -/
theorem clearAbortsToIdle : Obligations.ClearAbortsToIdle :=
  ⟨rfl, rfl, fun s => ⟨_, rfl, s.restart_eq Phase.idle, rfl,
    s.irq_restart (by decide) (by decide)⟩⟩

/-! ### The step after a command (45_host_commands.md R233) -/

/-- The engine's turn in IDLE leaves the state as it is, RST asserted or not (40_step.md R142). -/
theorem engineTurn_of_idle (hp : s.phase = Phase.idle) : engineTurn s = .next s := by
  cases hrst : s.rst with
  | true => exact if_pos hrst
  | false => exact engineTurn_of_phase (i := .idle) hrst (by rw [hp]; rfl)

/-- Of the host operations START and CLEAR alone write PHASE and ERRCODE. -/
theorem host_keeps_phase {a : BusAccess} (hd : decodeAccess a = .ok i) (h : exec i s = .next t) :
    i = .start ∨ i = .clear ∨ (t.phase = s.phase ∧ t.errCode = s.errCode) := by
  obtain ⟨v, rfl⟩ | rfl | ⟨hi, -⟩ | ⟨hi, -⟩ | ⟨v, rfl⟩ | ⟨v, -, rfl⟩ | ⟨-, b, v, -, rfl⟩ |
    ⟨-, b, v, -, rfl⟩ := host_next hd h
  · exact .inr (.inr ⟨rfl, rfl⟩)
  · exact .inr (.inr ⟨rfl, rfl⟩)
  · exact .inl hi
  · exact .inr (.inl hi)
  · obtain ⟨be, bitord, ie, he⟩ := s.writeCtrl_eq v
    rw [he]
    exact .inr (.inr ⟨rfl, rfl⟩)
  · obtain he | ⟨-, -, he⟩ := s.writeInLen_cases v <;> rw [he] <;> exact .inr (.inr ⟨rfl, rfl⟩)
  · exact .inr (.inr ⟨rfl, rfl⟩)
  · exact .inr (.inr ⟨rfl, rfl⟩)

/-- Every move but a host access that decodes to START leaves an idle block idle. -/
theorem step_keeps_idle (hp : s.phase = Phase.idle) (h : step s = .next t)
    (hno : ∀ a us, s.turns = .host a :: us → decodeAccess a ≠ .ok .start) :
    t.phase = Phase.idle ∧ t.errCode ≠ 7#3 := by
  obtain ⟨⟨-, he⟩, ts, u, rfl, hc⟩ := step_next h
  obtain ⟨-, -, rfl⟩ | ⟨-, -, i, hd, hx⟩ | ⟨-, a, i, hts, hd, hx⟩ | ⟨a, -, rfl⟩ | ⟨level, -, rfl⟩ := hc
  · exact ⟨hp, he⟩
  · cases (hp ▸ hd : decodePhase Phase.idle = .ok i)
    rw [exec_idle_next hx]
    exact ⟨hp, he⟩
  · obtain rfl | rfl | ⟨hphase, hcode⟩ := host_keeps_phase hd hx
    · exact absurd hd (hno a ts hts)
    · rw [exec_clear_next hx]
      exact ⟨rfl, by simp⟩
    · exact ⟨hphase.trans hp, hcode ▸ he⟩
  · cases a.dir <;> exact ⟨hp, he⟩
  · cases level with
    | false => exact ⟨hp, he⟩
    | true => exact ⟨rfl, by simp [State.setRst]⟩

/-- Settles O24: START leaves the legal phase HDR_DECLEN, whose operation the engine runs next; CLEAR
leaves IDLE, which only a START leaves. -/
theorem stepAfterACommand : Obligations.StepAfterACommand := by
  intro s t ts
  refine ⟨fun hrst hb h => ?start, fun h => ?clear, fun hp he => ?idle, step_keeps_idle⟩
  case start =>
    cases exec_start_next hb h
    have hlegal : (s.restart Phase.hdrDeclen).legalCodes := ⟨by simp, by simp⟩
    exact ⟨fun hts => (step_of_noTurns hlegal hts).trans (engineTurn_of_phase hrst rfl),
      fun hts => (step_of_turn hlegal hts).trans (engineTurn_of_phase hrst rfl)⟩
  case clear =>
    cases exec_clear_next h
    exact ⟨rfl, rfl⟩
  case idle =>
    have hlegal : s.legalCodes := ⟨by simp [hp], he⟩
    exact ⟨fun hts => (step_of_noTurns hlegal hts).trans (engineTurn_of_idle hp),
      fun hts => (step_of_turn hlegal hts).trans (engineTurn_of_idle hp)⟩

end Sys2Proof.Machine
end

section
/-! PROOFS. The registers on the host bus: where each stands, what it reads, and which writes are taken (10_state.md R21, R26, R35, R61; 45_host_commands.md R232–R237). -/

namespace Sys2Proof.Machine

variable {s : State} {r : BitVec 12}

/-! ### Where the registers stand -/

/-- The REG offset of a register (10_state.md R21). -/
def RegName.offset : RegName → BitVec 12
  | .ctrl => 0x000#12
  | .cmd => 0x004#12
  | .status => 0x008#12
  | .inLen => 0x00C#12
  | .outCount => 0x010#12
  | .pos => 0x014#12
  | .bitPos => 0x018#12
  | .decLen => 0x01C#12
  | .symCnt => 0x020#12
  | .alpha => 0x024#12
  | .pBits => 0x028#12
  | .pBytes => 0x02C#12
  | .unpacked => 0x030#12
  | .payBase => 0x034#12
  | .candLen => 0x038#12
  | .capInSize => 0x03C#12
  | .capOutSize => 0x040#12
  | .capMaxAlpha => 0x044#12

theorem regAt_offset (n : RegName) : regAt n.offset = some n := by
  cases n <;> rfl

theorem offset_of_regAt {n : RegName} (h : regAt r = some n) : r = n.offset := by
  unfold regAt at h
  iterate 18
    obtain ⟨hr, hn⟩ | ⟨-, h⟩ := ite_eq_iff.1 h
    · cases hn
      exact hr
  cases h

/-- The registers fill the aligned offsets up to 0x044, so there is none from 0x048 on and none at a
misaligned offset (10_state.md R61). -/
theorem regAt_none (h : 0x048 ≤ r.toNat ∨ r.toNat % 4 ≠ 0) : regAt r = none := by
  have hoff : ∀ n : RegName, n.offset.toNat < 0x048 ∧ n.offset.toNat % 4 = 0 := by
    intro n
    cases n <;> decide
  cases hr : regAt r with
  | none => rfl
  | some n =>
    obtain ⟨hlt, hal⟩ := hoff n
    rw [offset_of_regAt hr] at h
    omega

/-! ### Reads -/

theorem exec_regRd32_offset (s : State) (n : RegName) :
    exec (.regRd32 n.offset) s = .next (s.respond (s.regRead n)) := by
  simp only [exec, execRegRd32, State.regValue, regAt_offset]

theorem exec_regRd32_hole (h : 0x048 ≤ r.toNat ∨ r.toNat % 4 ≠ 0) :
    exec (.regRd32 r) s = .next (s.respond 0#32) := by
  simp only [exec, execRegRd32, State.regValue, regAt_none h]

theorem State.outCountWord_eq (s : State) :
    s.outCountWord = if s.phase = 0x0F#5 then BitVec.ofNat 32 s.ocnt else 0#32 := by
  simp [State.outCountWord, State.isDone]

/-- Settles O14: a read at a register's offset returns the register, elsewhere 0. -/
theorem registerReads : Obligations.RegisterReads := by
  intro s r d
  have hread := exec_regRd32_offset s
  refine ⟨fun hal => decodeAccess_regRd32 d ((aligned_iff r).2 hal), hread .cmd, hread .inLen,
    ?outCount, hread .pos, hread .bitPos, hread .decLen, hread .symCnt, hread .alpha, hread .pBits,
    hread .pBytes, hread .unpacked, hread .payBase, hread .candLen, hread .capInSize,
    hread .capOutSize, hread .capMaxAlpha, fun h => exec_regRd32_hole (.inl h),
    fun h => exec_regRd32_hole (.inr h)⟩
  case outCount => exact s.outCountWord_eq ▸ hread .outCount

/-! ### Writes -/

theorem State.writeInLen_taken {v : Word} (hb : s.busy = false) (hv : v.toNat ≤ s.cfg.inSize) :
    s.writeInLen v = { s with inLen := v } :=
  if_pos ⟨hb, hv⟩

theorem State.writeInLen_ignored {v : Word} (h : s.busy = true ∨ s.cfg.inSize < v.toNat) :
    s.writeInLen v = s :=
  if_neg fun ⟨hb, hv⟩ => h.elim (by simp [hb]) hv.not_gt

/-- CMD takes 1 and 2 alone (45_host_commands.md R232). -/
theorem State.writeCmd_reserved {v : Word} (h1 : v ≠ 1#32) (h2 : v ≠ 2#32) : s.writeCmd v = s :=
  (if_neg h1).trans (if_neg h2)

/-- CTRL, CMD and IN_LEN are the only registers a write reaches (45_host_commands.md R234). -/
theorem State.regWrite_ignored (v : Word) (hctrl : r ≠ RegName.ctrl.offset)
    (hcmd : r ≠ RegName.cmd.offset) (hlen : r ≠ RegName.inLen.offset) : s.regWrite r v = s := by
  unfold State.regWrite
  split
  · next hr => exact absurd (offset_of_regAt hr) hctrl
  · next hr => exact absurd (offset_of_regAt hr) hcmd
  · next hr => exact absurd (offset_of_regAt hr) hlen
  · rfl
  · rfl

/-- Settles O15: IN_LEN by its own rule, CMD by the value, and no effect elsewhere. -/
theorem registerWrites : Obligations.RegisterWrites := by
  intro s r v
  exact ⟨fun hb hv => congrArg Host.Outcome.next (State.writeInLen_taken hb hv),
    fun h => congrArg Host.Outcome.next (State.writeInLen_ignored h), rfl, rfl,
    fun h1 h2 => congrArg Host.Outcome.next (State.writeCmd_reserved h1 h2),
    fun hctrl hcmd hlen => congrArg Host.Outcome.next (State.regWrite_ignored v hctrl hcmd hlen)⟩

end Sys2Proof.Machine
end

section
/-! PROOFS. IN and OUT on the host bus (45_host_commands.md R238, R239, R240; 20_memory.md R80, R82). -/

namespace Sys2Proof.Machine

variable {s : State} {a : BitVec 30}

/-! ### Which words of IN are mapped (20_memory.md R80, R81) -/

theorem State.inWordMapped_iff : s.inWordMapped a ↔ a.toNat % 4 = 0 ∧ a.toNat + 3 < s.cfg.inSize :=
  and_congr_left' (aligned_iff a)

theorem State.not_inWordMapped (h : a.toNat % 4 ≠ 0 ∨ s.cfg.inSize ≤ a.toNat + 3) :
    ¬ s.inWordMapped a := by
  rw [State.inWordMapped_iff]
  omega

/-! ### Reads (45_host_commands.md R238) -/

theorem exec_inRd32_unmapped (h : ¬ s.inWordMapped a) :
    exec (.inRd32 a) s = .next (s.respond 0#32) := by
  simp only [exec, execInRd32, if_neg h]

/-- Settles O17: the byte, or the four bytes as one number; 0 where they do not lie in IN. -/
theorem inReads : Obligations.InReads := by
  intro s a d
  refine ⟨decodeAccess_inRd8 d a, fun hal => decodeAccess_inRd32 d ((aligned_iff a).2 hal),
    fun hin => ?byte, exec_inRd8_beyond, fun hal hin => ?word,
    fun h => exec_inRd32_unmapped (State.not_inWordMapped h)⟩
  case byte =>
    exact ⟨_, exec_inRd8_mapped hin, rfl, BitVec.toNat_setWidth_of_le (by decide)⟩
  case word =>
    exact ⟨_, exec_inRd32_mapped (State.inWordMapped_iff.2 ⟨hal, hin⟩), rfl, toNat_wordOf ..⟩

/-! ### Writes (45_host_commands.md R239) -/

/-- An 8-bit write takes the lowest lane of the data (20_memory.md R82). -/
theorem decodeAccess_inWr8_lane (a : BitVec 30) (v : Word) :
    decodeAccess ⟨.write, 8, inOff a, v⟩ = .ok (.inWr8 a (v.extractLsb' 0 8)) := by
  simp [decodeAccess_inOff, decodeIn]

theorem exec_inWr8_ignored (b : Byte) (h : s.busy = true ∨ s.cfg.inSize ≤ a.toNat) :
    exec (.inWr8 a b) s = .next s :=
  congrArg Host.Outcome.next (if_neg fun ⟨hb, hin⟩ => h.elim (by simp [hb]) hin.not_ge)

theorem exec_inWr32_ignored (v : Word) (h : s.busy = true ∨ ¬ s.inWordMapped a) :
    exec (.inWr32 a v) s = .next s :=
  congrArg Host.Outcome.next (if_neg fun ⟨hb, hmapped⟩ => h.elim (by simp [hb]) (absurd hmapped))

/-- A 32-bit write as numbers: byte `j` of the word holds lane `j` (20_memory.md R82). -/
theorem State.toNat_inByte_putInWord (s : State) (n : Nat) (v : Word) {j : Nat} (hj : j < 4) :
    ((s.putInWord n v).inByte (n + j)).toNat = v.toNat / 2 ^ (8 * j) % 2 ^ 8 := by
  rw [State.inByte_putInWord_lane s n v hj, lane, toNat_byte]

theorem State.inByte_putInWord_frame (s : State) {n c : Nat} (v : Word)
    (hc : c < n ∨ n + 3 < c) : (s.putInWord n v).inByte c = s.inByte c := by
  rw [State.inByte_putInWord, if_neg (by omega), if_neg (by omega), if_neg (by omega),
    if_neg (by omega)]

/-- Settles O18: the byte or the four lanes are stored, and what a write does not reach reads as
before; a write that is not taken stores nothing. -/
theorem inWritesStore : Obligations.InWritesStore := by
  intro s a v
  refine ⟨decodeAccess_inWr8_lane a v, fun hal => decodeAccess_inWr32 v ((aligned_iff a).2 hal),
    fun hb hin b => ?byte, fun h b => exec_inWr8_ignored b h, fun hb hal hin => ?word,
    fun h => exec_inWr32_ignored v (h.imp_right State.not_inWordMapped)⟩
  case byte =>
    refine ⟨_, exec_inWr8_mapped b hb hin, rfl, ?stored, fun c hc => ?frame⟩
    case stored => rw [State.inByte_putInByte, if_pos rfl]
    case frame => rw [State.inByte_putInByte, if_neg hc]
  case word =>
    have hlane {j : Nat} := s.toNat_inByte_putInWord a.toNat v (j := j)
    have htop : v.toNat / 2 ^ 24 % 2 ^ 8 = v.toNat / 2 ^ 24 := by
      have hv := v.isLt
      omega
    refine ⟨_, exec_inWr32_mapped v hb (State.inWordMapped_iff.2 ⟨hal, hin⟩), State.putInWord_eq ..,
      ?lane0, hlane (j := 1) (by decide), hlane (j := 2) (by decide),
      (hlane (j := 3) (by decide)).trans htop, fun c => State.inByte_putInWord_frame s v⟩
    case lane0 => simpa using hlane (j := 0) (by decide)

/-! ### OUT (45_host_commands.md R240) -/

theorem State.outRead_eq (s : State) (n : Nat) :
    s.outRead n =
      if n < s.cfg.outSize ∧ s.phase = 0x0F#5 ∧ n < s.ocnt then s.outWord n else 0#32 := by
  simp [State.outRead, State.isDone]

theorem exec_outRd32 (j : BitVec 29) (s : State) :
    exec (.outRd32 j) s = .next (s.respond (s.outRead j.toNat)) := rfl

/-- Settles O20: the gate of the read is three conditions, and the word is returned behind all. -/
theorem outReadIsGated : Obligations.OutReadIsGated := by
  intro s j d
  refine ⟨decodeAccess_outRd32 d j, fun hin hdone hlt => ?word, fun h => ?zero⟩
  case word =>
    rw [exec_outRd32, State.outRead_eq, if_pos ⟨hin, hdone, hlt⟩]
    rfl
  case zero =>
    have hgate : ¬ (j.toNat < s.cfg.outSize ∧ s.phase = 0x0F#5 ∧ j.toNat < s.ocnt) := by
      rintro ⟨hin, hdone, hlt⟩
      exact h.elim hin.not_ge fun h => h.elim (absurd hdone) hlt.not_ge
    rw [exec_outRd32, State.outRead_eq, if_neg hgate]
    rfl

end Sys2Proof.Machine
end

section
/-! PROOFS. Several instances side by side (60_exceptions.md R268): a move changes the instance that makes it alone, and no step changes which instance it is. -/

namespace Sys2Proof.Machine

variable {s t : State} {k : Nat} {sys sys' : List State}

/-! ### A move of one instance -/

/-- Settles O7: a move writes at most the place of the instance that makes it. -/
theorem instancesShareNothing : Obligations.InstancesShareNothing := by
  intro k j sys sys' h hjk
  obtain ⟨-, rfl⟩ | ⟨s, t, -, -, rfl⟩ := systemStep_next h
  · rfl
  · exact List.getElem?_set_ne hjk.symm

theorem systemStep_length (h : systemStep k sys = .next sys') : sys'.length = sys.length := by
  obtain ⟨-, rfl⟩ | ⟨s, t, -, -, rfl⟩ := systemStep_next h
  · rfl
  · exact List.length_set

/-- A move gives its own place a step of the state that stood there. -/
theorem systemStep_getElem?_self (h : systemStep k sys = .next sys') (ht : sys'[k]? = some t) :
    ∃ s, sys[k]? = some s ∧ step s = .next t := by
  obtain ⟨hk, rfl⟩ | ⟨s, u, hk, hu, rfl⟩ := systemStep_next h
  · exact absurd (ht.symm.trans hk) nofun
  · obtain ⟨hlt, -⟩ := List.getElem?_eq_some_iff.1 hk
    rw [List.getElem?_set_self hlt] at ht
    cases ht
    exact ⟨s, hk, hu⟩

/-! ### The instance number -/

theorem EngineNext.inst_eq (h : EngineNext s t) : t.inst = s.inst := by
  cases h <;> rfl

/-- No step changes which instance the state is; RST draws IN and OUT anew for the same instance. -/
theorem step_inst_eq (h : step s = .next t) : t.inst = s.inst := by
  refine step_keeps_of_hostBlind (Inv := fun u => u.inst = s.inst) (fun _ _ _ _ _ _ _ _ hu => hu)
    ?engine ?restart ?inByte ?reset rfl h
  case engine => exact fun u v hu hv => hv.inst_eq.trans hu
  case restart => exact fun u p hu _ => hu
  case inByte => exact fun u a v hu _ => hu
  case reset => exact fun u hu => hu

theorem instancesOwn_systemReset (n : Nat) : instancesOwn (systemReset n) := by
  intro k s hs
  obtain ⟨-, rfl⟩ := systemReset_getElem?_eq_some.1 hs
  rfl

theorem instancesOwn.systemStep (hown : instancesOwn sys) (h : systemStep k sys = .next sys') :
    instancesOwn sys' := by
  intro j t ht
  by_cases hjk : j = k
  case pos =>
    subst hjk
    obtain ⟨s, hs, hst⟩ := systemStep_getElem?_self h ht
    exact (step_inst_eq hst).trans (hown j s hs)
  case neg => exact hown j t (instancesShareNothing k j sys sys' h hjk ▸ ht)

/-- Settles O8: place `k` out of reset is the reset state of instance `k`, whose memories are its own
draw; a move changes one place, and that by a step, which keeps the instance number. -/
theorem instancesHoldTheirOwnMemories : Obligations.InstancesHoldTheirOwnMemories := by
  refine ⟨fun n k hk => ?reset, fun n => ⟨systemReset_length n, instancesOwn_systemReset n⟩,
    fun k sys sys' hown h => ⟨systemStep_length h, hown.systemStep h⟩⟩
  case reset =>
    exact ⟨_, systemReset_getElem?_eq_some.2 ⟨hk, rfl⟩, rfl,
      State.inByte_resetWith Config.params k 0, State.outWord_resetWith Config.params k 0⟩

end Sys2Proof.Machine
end

section
/-! PROOFS. Errors and the gate of the output: what raising an error writes, and what the host reads of OUT outside DONE (60_exceptions.md R250, R251, R261; 70_reset_and_hazards.md R283). -/

namespace Sys2Proof.Machine

variable {s : State}

/-! ### Raising an error (60_exceptions.md R251) -/

theorem State.irq_raise (s : State) (e : HbdError) (p : BitVec 5) : (s.raise e p).irq = s.ie := by
  simp [State.irq_eq]

/-- Settles O25: `State.raise` writes the code of the error, the phase it is raised in and ERROR; BUSY
and ERR follow from the phase ERROR alone. -/
theorem errorEntry : Obligations.ErrorEntry := by
  intro s p
  exact ⟨rfl, rfl, rfl, rfl, rfl, rfl, fun e => ⟨rfl, rfl, s.irq_raise e p⟩⟩

/-! ### OUT outside DONE (60_exceptions.md R261) -/

theorem State.outCountWord_of_notDone (hp : s.phase ≠ 0x0F#5) : s.outCountWord = 0#32 := by
  rw [State.outCountWord_eq, if_neg hp]

theorem State.outRead_of_notDone (hp : s.phase ≠ 0x0F#5) (n : Nat) : s.outRead n = 0#32 := by
  rw [State.outRead_eq, if_neg fun ⟨_, hdone, _⟩ => hp hdone]

/-- Settles O16: OUT_COUNT and the read of an OUT word are both gated by DONE. -/
theorem noOutputBeforeDone : Obligations.NoOutputBeforeDone := by
  intro s i hp
  refine ⟨?count, ?word⟩
  case count =>
    exact State.outCountWord_of_notDone hp ▸ exec_regRd32_offset s .outCount
  case word =>
    rw [exec_outRd32, State.outRead_of_notDone hp]
    rfl

end Sys2Proof.Machine
end

section
/-! PROOFS. Progress: every engine step of a decode goes to a later phase, or stays in a phase that repeats with less left to do (70_reset_and_hazards.md R290, 40_step.md R146). -/

namespace Sys2Proof.Machine

variable {s t : State} {i : Instr}

/-! ### What is left to do in the phases that repeat -/

theorem State.workLeft_of_hdrPair (hp : s.phase = Phase.hdrPair) : s.workLeft = s.pairsLeft.toNat :=
  if_pos hp

theorem State.workLeft_of_treeMerge (hp : s.phase = Phase.treeMerge) :
    s.workLeft = s.heap.length := by
  rw [State.workLeft, hp]
  rfl

theorem State.workLeft_of_decSingle (hp : s.phase = Phase.decSingle) :
    s.workLeft = s.unpacked.toNat - s.ocnt := by
  rw [State.workLeft, hp]
  rfl

theorem State.workLeft_of_decBit (hp : s.phase = Phase.decBit) :
    s.workLeft = s.pBits.toNat - s.bitPos.toNat := by
  rw [State.workLeft, hp]
  rfl

/-! ### Progress -/

/-- The progress of an engine step from `s` to `t`. DONE and ERROR have the greatest PHASE codes, so a
step that ends the decode goes to a later phase as well. -/
def Advances (s t : State) : Prop :=
  s.phase.toNat < t.phase.toNat ∨ (t.phase = s.phase ∧ t.workLeft < s.workLeft)

theorem Advances.of_arrow {p q : BitVec 5} (hs : s.phase = p) (ht : t.phase = q)
    (hlt : p.toNat < q.toNat) : Advances s t :=
  .inl (hs ▸ ht ▸ hlt)

/-- A pair is entered; the last one leads to TREE_SEED (42_header.md R164). -/
theorem exec_hdrPair_advances (hp : s.phase = Phase.hdrPair) (hleft : s.pairsLeft ≠ 0#32)
    (h : exec .hdrPair s = .next t) : Advances s t := by
  obtain ⟨-, rfl⟩ | ⟨-, -, rfl⟩ | ⟨-, u, rfl, ⟨v, hv, rfl⟩ | ⟨-, rfl⟩⟩ := exec_hdrPair_next h
  · exact .of_arrow hp rfl (by simp)
  · exact .of_arrow hp rfl (by simp)
  · have hframe := fmapInsert_frame hv
    have hvp : v.phase = Phase.hdrPair := by rw [hframe]; exact hp
    have hvl : v.pairsLeft = s.pairsLeft := by rw [hframe]
    obtain ⟨-, he⟩ | ⟨hmore, he⟩ := afterPair_cases (hvl ▸ hleft) <;> rw [he]
    · exact .of_arrow hp rfl (by simp)
    · refine .inr ⟨hvp.trans hp.symm, ?_⟩
      rw [State.workLeft_of_hdrPair (s := { v with pairsLeft := v.pairsLeft - 1#32 }) hvp,
        State.workLeft_of_hdrPair hp, ← hvl]
      dsimp only
      bv_omega
  · exact .of_arrow hp rfl (by simp)

theorem length_filter_ne_lt {l : List Nat} {a : Nat} (ha : a ∈ l) :
    (l.filter (fun i => i != a)).length < l.length :=
  List.length_filter_lt_length_iff_exists.2 ⟨a, ha, by simp⟩

/-- TREE_MERGE removes two indices from HEAP and enters one (43_code_table.md R178). -/
theorem exec_treeMerge_length_heap_lt (h : exec .treeMerge s = .next t) :
    t.heap.length < s.heap.length := by
  obtain ⟨-, -, a, b, heap, root, phase, ha, hb, hab, -, -, hnew, rfl, rfl, -⟩ :=
    exec_treeMerge_next h
  have hput := (Sorted.put_perm id fun i hi (hc : i = s.nextIdx) => hnew (hc ▸ hi)).length_eq
  have hfirst := length_filter_ne_lt ha
  have hrest : b ∈ s.heap.filter (fun i => i != a) :=
    List.mem_filter.2 ⟨hb, by simpa using hab.symm⟩
  have hsecond := length_filter_ne_lt hrest
  rw [List.length_cons] at hput
  dsimp only
  omega

theorem exec_treeMerge_advances (hp : s.phase = Phase.treeMerge)
    (h : exec .treeMerge s = .next t) : Advances s t := by
  obtain ⟨ht, -⟩ | ⟨ht, -⟩ := exec_treeMerge_arrows hp h
  · refine .inr ⟨ht.trans hp.symm, ?_⟩
    rw [State.workLeft_of_treeMerge ht, State.workLeft_of_treeMerge hp]
    exact exec_treeMerge_length_heap_lt h
  · exact .of_arrow hp ht (by simp)

/-- Every mode PAYLOAD chooses is a later phase (44_bitstream_decode.md R205). -/
theorem payload_lt_payloadNext (s : State) :
    Phase.payload.toNat < (payloadNext s).phase.toNat := by
  unfold payloadNext
  split_ifs <;> simp

/-- A copy is emitted, or the output is full (44_bitstream_decode.md R206). -/
theorem exec_decSingle_advances (hp : s.phase = Phase.decSingle) (hleft : s.ocnt < s.unpacked.toNat)
    (h : exec .decSingle s = .next t) : Advances s t := by
  obtain ⟨-, rfl⟩ | ⟨-, rfl⟩ := exec_decSingle_next h
  · by_cases hlast : s.ocnt + 1 = s.unpacked.toNat
    · exact .of_arrow hp (if_pos hlast) (by simp)
    · refine .inr ⟨if_neg hlast, ?_⟩
      rw [State.workLeft_of_decSingle ((if_neg hlast).trans hp), State.workLeft_of_decSingle hp]
      exact Nat.sub_succ_lt_self _ _ hleft
  · exact .of_arrow hp rfl (by simp)

/-- DEC_BIT takes one bit, whatever it finds (44_bitstream_decode.md R207). -/
theorem exec_decBit_takes_bit (h : exec .decBit s = .next t) :
    t.pBits = s.pBits ∧ t.bitPos.toNat = s.bitPos.toNat + 1 ∧ s.bitPos.toNat < s.pBits.toNat := by
  obtain ⟨hread, -, u, rfl, ⟨-, rfl⟩ | ⟨y, -, -, rfl⟩ | ⟨-, -, rfl⟩⟩ := exec_decBit_next h <;>
    exact ⟨rfl, toNat_bitPos_succ hread, hread.1⟩

theorem exec_decBit_advances (hp : s.phase = Phase.decBit) (h : exec .decBit s = .next t) :
    Advances s t := by
  obtain ⟨ht, -⟩ | ⟨ht, -⟩ | ⟨ht, -⟩ := exec_decBit_arrows hp h
  · obtain ⟨hbits, hpos, hleft⟩ := exec_decBit_takes_bit h
    refine .inr ⟨ht.trans hp.symm, ?_⟩
    rw [State.workLeft_of_decBit ht, State.workLeft_of_decBit hp, hbits, hpos]
    exact Nat.sub_succ_lt_self _ _ hleft
  · exact .of_arrow hp ht (by simp)
  · exact .of_arrow hp ht (by simp)

/-- Progress for every row of the phase table in which the block is busy (30_encoding.md R118): the
phases that repeat have their own lemma above, the others are left at once. -/
theorem exec_advances (hi : s.progressInv) (hb : s.busy = true) (hd : decodePhase s.phase = .ok i)
    (h : exec i s = .next t) : Advances s t := by
  obtain ⟨-, -, -, hpairs, hcopies⟩ := hi
  have quiescent {p : BitVec 5} (hp : s.phase = p)
      (hq : p = Phase.idle ∨ p = Phase.done ∨ p = Phase.error) : Advances s t := by
    subst hp
    obtain hq | hq | hq := hq <;> simp [State.busy, hq] at hb
  have hrow := decodePhase_mem hd
  simp only [phaseTable, List.mem_cons, Prod.mk.injEq, List.not_mem_nil, or_false] at hrow
  rcases hrow with ⟨hp, rfl⟩ | ⟨hp, rfl⟩ | ⟨hp, rfl⟩ | ⟨hp, rfl⟩ | ⟨hp, rfl⟩ | ⟨hp, rfl⟩ |
    ⟨hp, rfl⟩ | ⟨hp, rfl⟩ | ⟨hp, rfl⟩ | ⟨hp, rfl⟩ | ⟨hp, rfl⟩ | ⟨hp, rfl⟩ | ⟨hp, rfl⟩ | ⟨hp, rfl⟩ |
    ⟨hp, rfl⟩ | ⟨hp, rfl⟩ | ⟨hp, rfl⟩
  · exact quiescent hp (.inl rfl)
  · obtain ⟨-, rfl⟩ | ⟨-, rfl⟩ := exec_hdrDeclen_next h <;> exact .of_arrow hp rfl (by simp)
  · obtain ⟨-, -, rfl⟩ | ⟨-, -, rfl⟩ | ⟨-, rfl⟩ := exec_hdrReserved_next h <;>
      exact .of_arrow hp rfl (by simp)
  · obtain ⟨-, -, rfl⟩ | ⟨-, -, rfl⟩ | ⟨-, rfl⟩ := exec_hdrCount_next h <;>
      exact .of_arrow hp rfl (by simp)
  · exact exec_hdrPair_advances hp (hpairs hp) h
  · obtain ⟨u, -, ⟨-, r, -, rfl⟩ | ⟨-, rfl⟩⟩ := exec_treeSeed_next h <;>
      exact .of_arrow hp rfl (by simp)
  · exact exec_treeMerge_advances hp h
  · rw [exec_codeBuild_next h]
    exact .of_arrow hp rfl (by simp)
  · obtain ⟨-, rfl⟩ | ⟨-, rfl⟩ := exec_trlPbits_next h <;> exact .of_arrow hp rfl (by simp)
  · obtain ⟨-, rfl⟩ | ⟨-, rfl⟩ := exec_trlPbytes_next h <;> exact .of_arrow hp rfl (by simp)
  · obtain ⟨-, rfl⟩ | ⟨-, rfl⟩ := exec_trlUnpacked_next h <;> exact .of_arrow hp rfl (by simp)
  · obtain ⟨-, rfl⟩ | ⟨-, rfl⟩ := exec_payload_next h
    · exact .of_arrow hp rfl (payload_lt_payloadNext _)
    · exact .of_arrow hp rfl (by simp)
  · exact exec_decSingle_advances hp (hcopies hp) h
  · exact exec_decBit_advances hp h
  · obtain ⟨-, rfl⟩ | ⟨-, rfl⟩ := exec_decEnd_next h <;> exact .of_arrow hp rfl (by simp)
  · exact quiescent hp (.inr (.inl rfl))
  · exact quiescent hp (.inr (.inr rfl))

/-- Settles O57: a legal phase has an operation, the engine's turn runs it, and it advances. -/
theorem engineStepsMakeProgress : Obligations.EngineStepsMakeProgress := by
  intro s t ts hlegal hi hb hrst hts h
  obtain ⟨i, hd⟩ := decodePhase_legal hlegal.1
  have hturn : engineTurn { s with turns := ts } = .next t := (step_of_turn hlegal hts).symm.trans h
  rw [engineTurn_of_phase (s := { s with turns := ts }) hrst hd] at hturn
  exact .inr (exec_advances (s := { s with turns := ts }) hi hb hd hturn)

end Sys2Proof.Machine
end

section
/-! PROOFS. What comes from outside during a decode: the RST input, and host accesses while busy (70_reset_and_hazards.md R280, R284, R285). -/

namespace Sys2Proof.Machine

variable {s t : State} {i : Instr}

/-! ### RST (70_reset_and_hazards.md R280) -/

theorem engineTurn_of_rst (hrst : s.rst = true) : engineTurn s = .next s :=
  if_pos hrst

theorem hostTurn_of_rst (a : BusAccess) (hrst : s.rst = true) :
    hostTurn a s = .next (s.noEffect a.dir) :=
  if_pos hrst

/-- An access without effect writes the value returned alone, and that only for a read. -/
theorem State.noEffect_eq (s : State) (d : Dir) :
    s.noEffect d = { s with rdData := if d = .read then 0#32 else s.rdData } := by
  cases d <;> rfl

/-- Settles O11: the first two clauses are `State.setRst` at each level, the others the turns under
RST. -/
theorem rstSetsEveryElement : Obligations.RstSetsEveryElement := by
  intro s a ts hlegal
  refine ⟨step_of_turn hlegal, step_of_turn hlegal, fun hrst hts => ?engine, fun hrst hts => ?host⟩
  case engine => exact (step_of_turn hlegal hts).trans (engineTurn_of_rst hrst)
  case host =>
    have hturn := hostTurn_of_rst (s := { s with turns := ts }) a hrst
    rw [State.noEffect_eq] at hturn
    exact (step_of_turn hlegal hts).trans hturn

/-! ### Host accesses while busy (70_reset_and_hazards.md R284, R285) -/

theorem hostTurn_next {a : BusAccess} (h : hostTurn a s = .next t) :
    t = s.noEffect a.dir ∨ ∃ i, decodeAccess a = .ok i ∧ exec i s = .next t := by
  unfold hostTurn at h
  split at h
  · exact .inl (Host.Outcome.next.inj h).symm
  · split at h
    · next i hd => exact .inr ⟨i, hd, h⟩
    · exact .inl (Host.Outcome.next.inj h).symm

/-- While busy every host operation but CLEAR writes CTRL.IE and the value returned at most. -/
theorem host_keeps_decode {a : BusAccess} (hb : s.busy = true) (hd : decodeAccess a = .ok i)
    (hne : i ≠ .clear) (h : exec i s = .next t) :
    t = { s with ie := t.ie, rdData := t.rdData } := by
  have idle_only {p : Prop} (hidle : s.busy = false) : p := by simp [hb] at hidle
  obtain ⟨v, rfl⟩ | rfl | ⟨-, hidle, -⟩ | ⟨hi, -⟩ | ⟨v, rfl⟩ | ⟨v, -, rfl⟩ | ⟨hidle, -⟩ |
    ⟨hidle, -⟩ := host_next hd h
  · rfl
  · rfl
  · exact idle_only hidle
  · exact absurd hi hne
  · rw [State.writeCtrl_of_busy v hb]
  · rw [State.writeInLen_ignored (.inl hb)]
  · exact idle_only hidle
  · exact idle_only hidle

/-- Settles O21: the access runs a host operation that is not CLEAR, or has no effect. -/
theorem hostCannotDisturbADecode : Obligations.HostCannotDisturbADecode := by
  intro s t a ts hb hclear hts h
  have hturn : hostTurn a { s with turns := ts } = .next t :=
    (step_of_turn (step_next h).1 hts).symm.trans h
  obtain he | ⟨i, hd, hx⟩ := hostTurn_next hturn
  · rw [he, State.noEffect_eq]
  · exact host_keeps_decode (s := { s with turns := ts }) hb hd (fun hi => hclear (hi ▸ hd)) hx

end Sys2Proof.Machine
end
